-- ==== Sys2Proof/Word.lean ====
section
/-! DEFINITION. The word types of the core: the 32-bit command and host-register word (30_encoding.md R60,
10_state.md R30) and the 8-bit port pattern (20_memory.md R40). -/

namespace Sys2Proof

/-- A command word, or one host register: 32 bits (R30, R60). -/
abbrev Word := BitVec 32

/-- One digital port, one field of a command word: 8 bits (R40, R61). -/
abbrev Byte := BitVec 8

/-- The level of one physical pin: `true` is 1. -/
abbrev Level := Bool

end Sys2Proof
end

