-- ==== Sys2Proof/Syntax.lean ====
section
/-! DEFINITION. The 13 commands of spec/opcode_table.json (30_encoding.md R63), one constructor each. -/

namespace Sys2Proof

/-- A command. The channel fields and the relay state are the whole 8-bit fields of the word: `WellFormed` says
which of their values a legal command has (R64). -/
inductive Instr where
  /-- No operation (R82). -/
  | nop
  /-- Validate the configuration and start (R83). -/
  | init
  /-- Read port `p` (R86). -/
  | prd (p : Byte)
  /-- Write port `p`, bits `m`, from `v` (R87). -/
  | pwr (p m v : Byte)
  /-- One ADC handshake (R100). -/
  | adcs
  /-- One capacitive cycle (R120). -/
  | capm
  /-- One scan of the 16 reflectance channels (R140). -/
  | rscan
  /-- Drain the encoder accumulator of line `ch` (R155). -/
  | edrn (ch : Byte)
  /-- One debounced poll of the four switches (R185). -/
  | swp
  /-- Apply the signed speed `s` to motor `ch` (R165). -/
  | mset (ch : Byte) (s : BitVec 16)
  /-- Set relay `ch` to `st` (R170). -/
  | rset (ch st : Byte)
  /-- One sampling cycle (R195). -/
  | frame
  /-- Cancel the command in flight (R205). -/
  | abort
deriving DecidableEq, Repr

/-- The row of spec/opcode_table.json a constructor stands for. -/
def Instr.mnemonic : Instr → String
  | .nop => "NOP"
  | .init => "INIT"
  | .prd _ => "PRD"
  | .pwr _ _ _ => "PWR"
  | .adcs => "ADCS"
  | .capm => "CAPM"
  | .rscan => "RSCAN"
  | .edrn _ => "EDRN"
  | .swp => "SWP"
  | .mset _ _ => "MSET"
  | .rset _ _ => "RSET"
  | .frame => "FRAME"
  | .abort => "ABORT"

end Sys2Proof
end

