-- ==== Sys2Proof/WellFormed.lean ====
section
/-! DEFINITION. Which terms of `Instr` are legal commands: the field checks of 30_encoding.md R64. -/

namespace Sys2Proof

/-- A channel field is 0 or 1 (R62, R64). -/
def channelOk (ch : Byte) : Bool := decide (ch.toNat ≤ 1)

/-- The state field of RSET is 0 or 1 (R62, R64). -/
def relayStateOk (st : Byte) : Bool := decide (st.toNat ≤ 1)

/-- The checks of R64 on the operand fields. A port handle is not checked (R66). -/
def Instr.wellFormed : Instr → Bool
  | .nop => true
  | .init => true
  | .prd _ => true
  | .pwr _ _ _ => true
  | .adcs => true
  | .capm => true
  | .rscan => true
  | .edrn ch => channelOk ch
  | .swp => true
  | .mset ch _ => channelOk ch
  | .rset ch st => channelOk ch && relayStateOk st
  | .frame => true
  | .abort => true

/-- `i` is a legal command. -/
abbrev Instr.WellFormed (i : Instr) : Prop := i.wellFormed = true

end Sys2Proof
end

