-- ==== Sys2Proof/Decode.lean ====
section
/-! DEFINITION. Decoding and encoding of the 32-bit command word (30_encoding.md R60 to R67). -/

namespace Sys2Proof

/-- `op = word[31:24]` (R61). -/
def opField (w : Word) : Byte := w.extractLsb' 24 8

/-- `a = word[23:16]` (R61). -/
def aField (w : Word) : Byte := w.extractLsb' 16 8

/-- `b = word[15:8]` (R61). -/
def bField (w : Word) : Byte := w.extractLsb' 8 8

/-- `c = word[7:0]` (R61). -/
def cField (w : Word) : Byte := w.extractLsb' 0 8

/-- Why a word is illegal (R64, R65); each reason is reported to the host as IllegalCommand (R223). -/
inductive DecodeError where
  /-- `op` is none of the 13 (R65). -/
  | unassignedOp
  /-- a field the format does not use is not zero (R64). -/
  | reservedField
  /-- a channel field above 1 (R64). -/
  | badChannel
  /-- an RSET state field above 1 (R64). -/
  | badState
deriving DecidableEq, Repr

/-- The outcome of decoding: exactly one legal command, or illegal (R65). -/
inductive Decoded where
  | legal (i : Instr)
  | illegal (e : DecodeError)
deriving DecidableEq, Repr

/-- The command of a legal word. -/
def Decoded.toOption : Decoded → Option Instr
  | .legal i => some i
  | .illegal _ => none

/-- Accept `i` if the fields `rs` that its format reserves are all zero (R62, R64). -/
def reservedZero (rs : List Byte) (i : Instr) : Decoded :=
  if rs.all (· == 0#8) then .legal i else .illegal .reservedField

/-- Accept what `d` accepts if the channel field is 0 or 1 (R64). -/
def withChannel (ch : Byte) (d : Decoded) : Decoded :=
  if channelOk ch then d else .illegal .badChannel

/-- Accept what `d` accepts if the relay state field is 0 or 1 (R64). -/
def withRelayState (st : Byte) (d : Decoded) : Decoded :=
  if relayStateOk st then d else .illegal .badState

/-- Decode a command from its four fields: the opcode map of R63 with the formats of R62. -/
def decodeFields (op a b c : Byte) : Decoded :=
  match op.toNat with
  | 0x00 => reservedZero [a, b, c] .nop
  | 0x01 => reservedZero [a, b, c] .init
  | 0x02 => reservedZero [b, c] (.prd a)
  | 0x03 => .legal (.pwr a b c)
  | 0x10 => reservedZero [a, b, c] .adcs
  | 0x11 => reservedZero [a, b, c] .capm
  | 0x12 => reservedZero [a, b, c] .rscan
  | 0x13 => withChannel a (reservedZero [b, c] (.edrn a))
  | 0x14 => reservedZero [a, b, c] .swp
  | 0x20 => withChannel a (.legal (.mset a (b ++ c)))
  | 0x21 => withChannel a (withRelayState c (reservedZero [b] (.rset a c)))
  | 0x30 => reservedZero [a, b, c] .frame
  | 0x3F => reservedZero [a, b, c] .abort
  | _ => .illegal .unassignedOp

/-- The total decoder (R65). -/
def decode (w : Word) : Decoded := decodeFields (opField w) (aField w) (bField w) (cField w)

/-- The word of the fields `op`, `a`, `b`, `c` (R61). -/
def wordOf (op a b c : Byte) : Word := op ++ a ++ b ++ c

/-- The high byte of a 16-bit operand, field `b` of format M (R62). -/
def speedHigh (s : BitVec 16) : Byte := s.extractLsb' 8 8

/-- The low byte of a 16-bit operand, field `c` of format M (R62). -/
def speedLow (s : BitVec 16) : Byte := s.extractLsb' 0 8

/-- The word of a command (R61 to R63). -/
def encode : Instr → Word
  | .nop => wordOf 0x00 0 0 0
  | .init => wordOf 0x01 0 0 0
  | .prd p => wordOf 0x02 p 0 0
  | .pwr p m v => wordOf 0x03 p m v
  | .adcs => wordOf 0x10 0 0 0
  | .capm => wordOf 0x11 0 0 0
  | .rscan => wordOf 0x12 0 0 0
  | .edrn ch => wordOf 0x13 ch 0 0
  | .swp => wordOf 0x14 0 0 0
  | .mset ch s => wordOf 0x20 ch (speedHigh s) (speedLow s)
  | .rset ch st => wordOf 0x21 ch 0 st
  | .frame => wordOf 0x30 0 0 0
  | .abort => wordOf 0x3F 0 0 0

/-- One row of the match/mask table of R63. -/
structure OpcodeRow where
  mnemonic : String
  pattern  : Word
  mask     : Word
deriving DecidableEq, Repr

/-- The match/mask table of R63: a word `w` is the command when `w & mask == match`. -/
def opcodeTable : List OpcodeRow :=
  [⟨"NOP", 0x00000000, 0xFFFFFFFF⟩, ⟨"INIT", 0x01000000, 0xFFFFFFFF⟩, ⟨"PRD", 0x02000000, 0xFF00FFFF⟩,
   ⟨"PWR", 0x03000000, 0xFF000000⟩, ⟨"ADCS", 0x10000000, 0xFFFFFFFF⟩, ⟨"CAPM", 0x11000000, 0xFFFFFFFF⟩,
   ⟨"RSCAN", 0x12000000, 0xFFFFFFFF⟩, ⟨"EDRN", 0x13000000, 0xFFFEFFFF⟩, ⟨"SWP", 0x14000000, 0xFFFFFFFF⟩,
   ⟨"MSET", 0x20000000, 0xFFFE0000⟩, ⟨"RSET", 0x21000000, 0xFFFEFFFE⟩, ⟨"FRAME", 0x30000000, 0xFFFFFFFF⟩,
   ⟨"ABORT", 0x3F000000, 0xFFFFFFFF⟩]

/-- `w` matches the row `r`. -/
def OpcodeRow.matchesWord (r : OpcodeRow) (w : Word) : Bool := w &&& r.mask == r.pattern

/-- The command the decoder reads from a table word of `nbits` bits (bit 0 the least significant): a command is one
32-bit word and no byte order exists (R51, R60). -/
def decodeTableWord (nbits w : Nat) : Option Instr := (decode (BitVec.ofNat 32 (w % 2 ^ nbits))).toOption

end Sys2Proof
end

