-- ==== Sys2Proof/Config.lean ====
section
/-! DEFINITION. The configuration value `CFG` of 00_scope.md R5, the logical pins of R6, and the environment's
answer to a read (20_memory.md R58). `CFG` is a parameter: no rule writes it. Every number is a plain `Nat`, so that
the malformed configurations that INIT must refuse (R84) can be written down (log 19). -/

namespace Sys2Proof

/-- The 36 logical pins that have a `PIN` entry (R6): 12 outputs, 7 digital inputs, 17 analog inputs. -/
inductive Pin where
  | motorPwm (i : Fin 2)
  | motorDir (i : Fin 2)
  | motorEn (i : Fin 2)
  | relay (i : Fin 2)
  | capDischarge
  | capCharge
  | adcRd
  | adcCs
  | sw (i : Fin 4)
  | adcInt
  | enc (i : Fin 2)
  | capSample
  | refl (k : Fin 16)
deriving DecidableEq, Repr

/-- `PIN[name]`: the physical place and the polarity of a one-bit pin (R5). -/
structure PinCfg where
  present : Bool
  port    : Nat
  bit     : Nat
  active  : Nat
deriving DecidableEq, Repr, Inhabited

/-- `ADC_DATA`: the port that carries the 8-bit data bus (R5). -/
structure AdcDataCfg where
  present : Bool
  port    : Nat
  mask    : Byte
deriving DecidableEq, Repr, Inhabited

/-- `ENC_EDGE`: which edges of an encoder line count as a tick (R153). -/
inductive EncEdge where
  | rising
  | falling
  | both
deriving DecidableEq, Repr, Inhabited

/-- The immutable configuration `CFG` (R5). `PORT_WIDTH` = 8 and `PWM_MAX` = 255 are constants of the model. -/
structure Config where
  nports       : Nat
  motorPwm     : Vector PinCfg 2
  motorDir     : Vector PinCfg 2
  motorEn      : Vector PinCfg 2
  relay        : Vector PinCfg 2
  capDischarge : PinCfg
  capCharge    : PinCfg
  adcRd        : PinCfg
  adcCs        : PinCfg
  sw           : Vector PinCfg 4
  adcInt       : PinCfg
  enc          : Vector PinCfg 2
  capSample    : PinCfg
  refl         : Vector PinCfg 16
  adcData      : AdcDataCfg
  adcTimeout   : Nat
  capSettle    : Nat
  capTimeout   : Nat
  capVthresh   : Nat
  capContactT  : Nat
  swDebounce   : Nat
  motorIdleEn  : Nat
  encEdge      : EncEdge
  analogWidth  : Nat
  pollPeriod   : Nat
deriving DecidableEq, Repr

/-- What the environment answers to one read (R58): the level of every bit of the port, whether the read
succeeded, and the analog value. A port read uses `levels`, a switch read `levels` and `ok`, an analog read `ok` and
`value`. -/
structure Answer where
  levels : Byte
  ok     : Bool
  value  : BitVec 16
deriving DecidableEq, Repr, Inhabited

/-- The answer to read number `n` when no scripted answer is left: FREE, nothing is known of it (R58 "under no law
inside this spec"; log 2). -/
opaque Config.freeAnswer : Nat → Answer

/-- A pin entry that is present, active high. -/
def highPin (port bit : Nat) : PinCfg := { present := true, port := port, bit := bit, active := 1 }

/-- A pin entry that is present, active low. -/
def lowPin (port bit : Nat) : PinCfg := { present := true, port := port, bit := bit, active := 0 }

/-- `CFG_EX`, the example configuration of 95_test_vectors.md section 1. Only `State.reset` takes it, because the
host asks for one constant state (DESIGN CHOICE, log 3). -/
def configExample : Config where
  nports       := 8
  motorPwm     := #v[highPin 2 0, highPin 2 3]
  motorDir     := #v[highPin 2 1, highPin 2 4]
  motorEn      := #v[highPin 2 2, highPin 2 5]
  relay        := #v[highPin 2 6, highPin 2 7]
  capDischarge := highPin 1 3
  capCharge    := highPin 1 4
  adcRd        := lowPin 1 1
  adcCs        := lowPin 1 0
  sw           := #v[lowPin 3 0, lowPin 3 1, lowPin 3 2, lowPin 3 3]
  adcInt       := lowPin 1 2
  enc          := #v[highPin 1 6, highPin 1 7]
  capSample    := highPin 1 5
  refl         := #v[highPin 4 0, highPin 4 1, highPin 4 2, highPin 4 3, highPin 4 4, highPin 4 5, highPin 4 6,
                     highPin 4 7, highPin 5 0, highPin 5 1, highPin 5 2, highPin 5 3, highPin 5 4, highPin 5 5,
                     highPin 5 6, highPin 5 7]
  adcData      := { present := true, port := 0, mask := 0xFF }
  adcTimeout   := 5
  capSettle    := 2
  capTimeout   := 10
  capVthresh   := 512
  capContactT  := 6
  swDebounce   := 3
  motorIdleEn  := 0
  encEdge      := .rising
  analogWidth  := 10
  pollPeriod   := 1

end Sys2Proof
end

