-- ==== Sys2Proof/Machine/State.lean ====
section
/-! DEFINITION. The state of the core (10_state.md R10 to R33, 44_encoder.md R150), with the model's own inputs
beside it (log 1, 2, 3, 5, 10, 11), the reasons a step can stop, and the state after reset (70_reset_and_hazards.md
R241). All of it is plain data. -/

namespace Sys2Proof.Machine

open Sys2Proof

/-- The port latches `OUT[p]` as (port, byte) cells: ports strictly rising, none equal to what an unlisted port holds
(R23; log 14). -/
abbrev Memory := List Host.Cell

/-- `MODE` (R11). The code 3 never occurs and has no constructor (log 13). -/
inductive Mode where
  | unconfigured
  | ready
  | fatal
deriving DecidableEq, Repr, Inhabited

/-- `ADC_STATE` (R13): the source's AdcHandshakeState. -/
inductive AdcState where
  | idle
  | assertCs
  | awaitConversion
  | assertRd
  | deassertRd
  | deassertCs
deriving DecidableEq, Repr, Inhabited

/-- `CAP_STATE` (R13): the source's CapacitiveCycleState. -/
inductive CapState where
  | idle
  | discharge
  | charge
  | sample
  | compute
deriving DecidableEq, Repr, Inhabited

/-- `FRAME_PHASE` (R13, R196). -/
inductive FramePhase where
  | none
  | scan
  | drain0
  | drain1
  | switches
  | capacitive
  | adc
  | commit
deriving DecidableEq, Repr, Inhabited

/-- The exceptions of R215, in code order 1 to 8. -/
inductive Cause where
  | configurationError
  | invalidPortHandle
  | conversionTimeout
  | channelUnavailable
  | contractViolation
  | wrongMode
  | illegalCommand
  | aborted
deriving DecidableEq, Repr, Inhabited

/-- The sequencer registers (R13). -/
structure SeqRegs where
  /-- `BUSY` -/
  busy       : Bool
  /-- `CMD_LATCH` -/
  cmdLatch   : Word
  /-- `FRAME_PHASE` -/
  framePhase : FramePhase
  /-- `ADC_STATE` -/
  adcState   : AdcState
  /-- `CAP_STATE` -/
  capState   : CapState
  /-- `REFL_IDX`, five bits of which only 0..15 occur (log 13) -/
  reflIdx    : Fin 16
deriving DecidableEq, Repr

/-- The ADC handshake's working registers `ADC_POLLS`, `ADC_ERR`, `ADC_LATCH` (R15). -/
structure AdcRegs where
  polls : BitVec 16
  err   : Bool
  latch : Byte
deriving DecidableEq, Repr

/-- The capacitive cycle's working registers `CAP_TIMER`, `CAP_ELAPSED`, `CAP_TO` (R16). -/
structure CapRegs where
  timer    : BitVec 16
  elapsed  : BitVec 16
  timedOut : Bool
deriving DecidableEq, Repr

/-- The debouncers `SW_STABLE[0..3]`, `SW_CNT[0..3]` (R18). -/
structure SwRegs where
  stable : Vector Bool 4
  cnt    : Vector (BitVec 8) 4
deriving DecidableEq, Repr

/-- The encoder counters `ENC_ACC[0..1]`, `ENC_PREV[0..1]` (R20). -/
structure EncRegs where
  acc  : Vector (BitVec 16) 2
  prev : Vector Bool 2
deriving DecidableEq, Repr

/-- The result registers (R24 to R28), each as the host reads it. -/
structure Results where
  /-- `R_PORT`: `[7:0]` value, `[8]` valid (R24) -/
  port   : BitVec 9
  /-- `R_ADC`: `[7:0]` sample, `[8]` valid (R25) -/
  adc    : BitVec 9
  /-- `R_CAP`: `[15:0]` elapsed, `[16]` contact, `[17]` timeout, `[18]` valid (R26) -/
  cap    : BitVec 19
  /-- `R_ENC[0..1]`: `[15:0]` delta, `[16]` valid (R27) -/
  enc    : Vector (BitVec 17) 2
  /-- `R_SW`: `[3:0]` state, `[7:4]` avail, `[8]` valid (R28) -/
  sw     : BitVec 9
  /-- `R_REFL[0..15]`: `[15:0]` value, `[16]` avail (R28) -/
  refl   : Vector (BitVec 17) 16
  /-- `R_REFL_ST`: a scan has completed (R28) -/
  reflSt : Bool
deriving DecidableEq, Repr

/-- The frame bank (R29). -/
structure FrameBank where
  refl : Vector (BitVec 17) 16
  enc  : Vector (BitVec 17) 2
  sw   : BitVec 9
  cap  : BitVec 19
  adc  : BitVec 9
  /-- `F_SEQ`: `[15:0]` seq, `[16]` valid -/
  seq  : BitVec 17
deriving DecidableEq, Repr

/-- The mode, `DRIVE_EN` and the exception registers (R11, R31, R32). -/
structure StatusRegs where
  mode    : Mode
  driveEn : Bool
  refused : Bool
  aborted : Bool
  /-- `STATUS.CAUSE`: the latest exception; `none` is code 0, none since reset (R215) -/
  cause   : Option Cause
  esticky : BitVec 9
deriving DecidableEq, Repr

/-- One pending step of the host, the environment or the sequencer (R8; log 1). -/
inductive Event where
  /-- one tick of the sequencer (R7, R88) -/
  | tick
  /-- the host writes `v` to host register `n` (R30, R71) -/
  | hostWrite (n : BitVec 6) (v : Word)
  /-- the host reads host register `n` (R30) -/
  | hostRead (n : BitVec 6)
  /-- the host drives `RST` to this level (R240) -/
  | rst (asserted : Bool)
  /-- the environment puts this physical level on encoder line `i` (R151) -/
  | encLine (i : Fin 2) (level : Level)
deriving DecidableEq, Repr

/-- One access of the sequencer, in the trace notation of 20_memory.md section 7. -/
inductive Access where
  /-- `W(p, m, v)` -/
  | write (p : Nat) (m v : Byte)
  /-- `R(p)=x` -/
  | read (p : Nat) (x : Byte)
  /-- `A(name)=(ok, val)` -/
  | analog (name : Pin) (ok : Bool) (val : BitVec 16)
deriving DecidableEq, Repr

/-- What stands outside the core: the reset input, the encoder lines, the schedule, the environment's answers, and
the history of accesses. The MODEL's own fields (log 1, 2, 5, 10, 11). -/
structure World where
  /-- the level of the reset input `RST` (R240) -/
  rst     : Bool
  /-- the physical level of the encoder lines (R58, R151) -/
  encLine : Vector Level 2
  /-- the pending steps, the next one first; when there is none the sequencer ticks (R8) -/
  events  : List Event
  /-- the environment's answers to the coming reads, the next one first (R58) -/
  answers : List Answer
  /-- how many reads have been answered: it numbers the free answers (log 2) -/
  reads   : Nat
  /-- the accesses made, the oldest first (R50) -/
  trace   : List Access
deriving DecidableEq, Repr

/-- The whole state of the core (R10), with the parameter `CFG` (R5) and the outside beside it. -/
structure State where
  /-- `CFG`: written by no rule (R5; log 3) -/
  cfg    : Config
  status : StatusRegs
  seq    : SeqRegs
  adc    : AdcRegs
  cap    : CapRegs
  sw     : SwRegs
  enc    : EncRegs
  /-- `DUTY[0..1]` (R19) -/
  duty   : Vector (BitVec 8) 2
  /-- the port latches `OUT` (R23) -/
  out    : Memory
  res    : Results
  bank   : FrameBank
  io     : World
deriving DecidableEq, Repr

/-- Why the machine stops. Neither is reached from a state that satisfies the invariant of Safety.lean (log 7). -/
inductive Fault where
  /-- The active command stands at a position from which no rule gives a transition (R210, 93 U11). Raised by the
  meanings of ADCS, CAPM and FRAME. Safe: the model stops. -/
  | noTransition
  /-- `BUSY` is 1 and `CMD_LATCH` holds no command, although only an accepted word is ever latched (R65, R80). Raised
  by the tick. Safe: the model stops. -/
  | latchHoldsNoCommand
deriving DecidableEq, Repr

/-- Why an instruction has no meaning. -/
inductive Refusal where
  /-- The instruction has no meaning yet. Raised by an arm of `exec`. Safe: the model stops. -/
  | notModelled (mnemonic : String)
deriving DecidableEq, Repr

/-- The sentinel of an unavailable reflectance element: avail 0, value 0xFFFF (R28, R241). -/
def reflSentinel : BitVec 17 := 0x0FFFF

/-- Every piece of state of the core at its reset value (R241), under configuration `c` and outside `w`. -/
def State.resetWith (c : Config) (w : World) : State where
  cfg    := c
  status := { mode := .unconfigured, driveEn := false, refused := false, aborted := false, cause := none,
              esticky := 0 }
  seq    := { busy := false, cmdLatch := 0, framePhase := .none, adcState := .idle, capState := .idle, reflIdx := 0 }
  adc    := { polls := 0, err := false, latch := 0 }
  cap    := { timer := 0, elapsed := 0, timedOut := false }
  sw     := { stable := Vector.replicate 4 false, cnt := Vector.replicate 4 0 }
  enc    := { acc := Vector.replicate 2 0, prev := Vector.replicate 2 false }
  duty   := Vector.replicate 2 0
  out    := []
  res    := { port := 0, adc := 0, cap := 0, enc := Vector.replicate 2 0, sw := 0,
              refl := Vector.replicate 16 reflSentinel, reflSt := false }
  bank   := { refl := Vector.replicate 16 reflSentinel, enc := Vector.replicate 2 0, sw := 0, cap := 0, adc := 0,
              seq := 0 }
  io     := w

/-- The outside at the start: reset released, encoder lines low, nothing pending, nothing scripted
(DESIGN CHOICE, log 1, 2, 5, 10, 11). -/
def World.start : World :=
  { rst := false, encLine := Vector.replicate 2 false, events := [], answers := [], reads := 0, trace := [] }

/-- The machine right after reset (R241), under the example configuration (DESIGN CHOICE, log 3). -/
def State.reset : State := State.resetWith configExample World.start

end Sys2Proof.Machine
end

