-- ==== Sys2Proof/Machine/Operands.lean ====
section
/-! DEFINITION. Operand forms: the fields of a command assembled into operands (30_encoding.md R67), a logical pin
resolved through `CFG` (00_scope.md R6, 20_memory.md R45, 48_laws.md R212), and the codes of the named positions
(10_state.md R11, R13, 60_exceptions.md R215). -/

namespace Sys2Proof.Machine

open Sys2Proof

/-- Channel: `ch = a[0]` (R67). -/
def channelOf (a : Byte) : Fin 2 := if a.getLsbD 0 then 1 else 0

/-- RSET state: `st = c[0]` (R67). -/
def relayStateOf (c : Byte) : Bool := c.getLsbD 0

/-- A port handle: `p = zext(a)` (R67). -/
def portOf (a : Byte) : Nat := a.toNat

/-- `abs17(s)`: the magnitude of a 16-bit signed number, 17 bits (00_scope.md section 7, R168). -/
def abs17 (s : BitVec 16) : BitVec 17 := BitVec.ofNat 17 s.toInt.natAbs

/-- The clamped duty `min(abs17(s), 255)` (R168). -/
def clampDuty (s : BitVec 16) : BitVec 8 := BitVec.ofNat 8 (min (abs17 s).toNat 255)

/-- `sat_inc(x)`: `x + 1` below 32767, else 32767 (R152). -/
def satInc (x : BitVec 16) : BitVec 16 := if x.toNat < 32767 then x + 1 else 32767

/-- `CFG.PIN[name]` (R5, R6). -/
def pinOf (c : Config) : Pin → PinCfg
  | .motorPwm i => c.motorPwm[i]
  | .motorDir i => c.motorDir[i]
  | .motorEn i => c.motorEn[i]
  | .relay i => c.relay[i]
  | .capDischarge => c.capDischarge
  | .capCharge => c.capCharge
  | .adcRd => c.adcRd
  | .adcCs => c.adcCs
  | .sw i => c.sw[i]
  | .adcInt => c.adcInt
  | .enc i => c.enc[i]
  | .capSample => c.capSample
  | .refl k => c.refl[k]

/-- The 12 output pins, in the order in which INIT writes them (R6, R85). -/
def outputPins : List Pin :=
  [.motorPwm 0, .motorDir 0, .motorEn 0, .motorPwm 1, .motorDir 1, .motorEn 1, .relay 0, .relay 1,
   .capDischarge, .capCharge, .adcRd, .adcCs]

/-- The 24 input pins that have a `PIN` entry: 7 digital, 17 analog (R6). -/
def inputPins : List Pin :=
  [.sw 0, .sw 1, .sw 2, .sw 3, .adcInt, .enc 0, .enc 1, .capSample,
   .refl 0, .refl 1, .refl 2, .refl 3, .refl 4, .refl 5, .refl 6, .refl 7,
   .refl 8, .refl 9, .refl 10, .refl 11, .refl 12, .refl 13, .refl 14, .refl 15]

/-- All 36 logical pins that have a `PIN` entry (R6). -/
def allPins : List Pin := outputPins ++ inputPins

/-- Physical pin (p, b) is where the logical pin `name` is mapped. -/
def pinIsAt (c : Config) (name : Pin) (p b : Nat) : Bool :=
  (pinOf c name).port == p && (pinOf c name).bit == b

/-- Pin (p, b) is an output pin (R44). -/
def isOutputPin (c : Config) (p b : Nat) : Bool := outputPins.any (fun name => pinIsAt c name p b)

/-- The asserted level of a pin: its `active` (R45). -/
def PinCfg.activeLevel (P : PinCfg) : Level := P.active == 1

/-- The level of logical value `a` on a pin: `active` when asserted, its complement when not (R45). -/
def PinCfg.levelOf (P : PinCfg) (a : Bool) : Level := if a then PinCfg.activeLevel P else !PinCfg.activeLevel P

/-- The logical value of a level on a pin (R45). -/
def PinCfg.logical (P : PinCfg) (l : Level) : Bool := l == PinCfg.activeLevel P

/-- `1 << P.bit` (R45). -/
def PinCfg.maskBit (P : PinCfg) : Byte := 1#8 <<< P.bit

/-- `lvl << P.bit` (R45). -/
def PinCfg.levelBit (P : PinCfg) (lvl : Level) : Byte := (if lvl then 1#8 else 0#8) <<< P.bit

/-- An analog value as a reading of `ANALOG_WIDTH` bits, zero-extended to 16 (R46, R141; log 9). -/
def analogReading (c : Config) (v : BitVec 16) : BitVec 16 := BitVec.ofNat 16 (v.toNat % 2 ^ c.analogWidth)

/-- `MODE`'s code (R11). -/
def Mode.code : Mode → BitVec 2
  | .unconfigured => 0
  | .ready => 1
  | .fatal => 2

/-- `ADC_STATE`'s code (R13). -/
def AdcState.code : AdcState → BitVec 3
  | .idle => 0
  | .assertCs => 1
  | .awaitConversion => 2
  | .assertRd => 3
  | .deassertRd => 4
  | .deassertCs => 5

/-- `CAP_STATE`'s code (R13). -/
def CapState.code : CapState → BitVec 3
  | .idle => 0
  | .discharge => 1
  | .charge => 2
  | .sample => 3
  | .compute => 4

/-- `FRAME_PHASE`'s code (R13). -/
def FramePhase.code : FramePhase → BitVec 3
  | .none => 0
  | .scan => 1
  | .drain0 => 2
  | .drain1 => 3
  | .switches => 4
  | .capacitive => 5
  | .adc => 6
  | .commit => 7

/-- The code of an exception (R215). -/
def Cause.code : Cause → Nat
  | .configurationError => 1
  | .invalidPortHandle => 2
  | .conversionTimeout => 3
  | .channelUnavailable => 4
  | .contractViolation => 5
  | .wrongMode => 6
  | .illegalCommand => 7
  | .aborted => 8

/-- The content of `STATUS.CAUSE`: 0 when nothing has been recorded since reset (R31, R215). -/
def causeByte : Option Cause → Byte
  | none => 0
  | some c => BitVec.ofNat 8 (Cause.code c)

end Sys2Proof.Machine
end

