-- ==== Sys2Proof/Machine/Flags.lean ====
section
/-! DEFINITION. The flag and result words: valid, avail, contact and timeout bits (10_state.md R24 to R29), the
sticky bits (R32), `STATUS` (R31) and `SEQ` (R33). -/

namespace Sys2Proof.Machine

open Sys2Proof

/-- A valid 8-bit result: `{1, x}` (R24, R25). -/
def validByte (x : Byte) : BitVec 9 := 1#1 ++ x

/-- `R_CAP` of a completed cycle: `{1, timeout, contact, elapsed}` (R26, R126). -/
def capResult (timedOut contact : Bool) (elapsed : BitVec 16) : BitVec 19 :=
  1#1 ++ BitVec.ofBool timedOut ++ BitVec.ofBool contact ++ elapsed

/-- The verdict: contact exactly when the cycle ended by a crossing with an elapsed time strictly below
`CAP_CONTACT_T` (R127). -/
def contactVerdict (c : Config) (timedOut : Bool) (elapsed : BitVec 16) : Bool :=
  !timedOut && decide (elapsed.toNat < c.capContactT)

/-- `R_ENC[i]` of a drain: `{1, d}` (R27, R155). -/
def encResult (d : BitVec 16) : BitVec 17 := 1#1 ++ d

/-- An available reflectance element: `{1, value}` (R28, R141). -/
def reflReading (v : BitVec 16) : BitVec 17 := 1#1 ++ v

/-- Four bits, element 3 on the left: bit i is element i. -/
def nibble (v : Vector Bool 4) : BitVec 4 :=
  BitVec.ofBool v[3] ++ BitVec.ofBool v[2] ++ BitVec.ofBool v[1] ++ BitVec.ofBool v[0]

/-- `R_SW` of a poll: `{1, avail, state}` (R28, R186). -/
def swResult (avail stable : Vector Bool 4) : BitVec 9 := 1#1 ++ nibble avail ++ nibble stable

/-- `F_SEQ` after a commit: valid, and seq one more modulo 65536 (R203). -/
def nextFrameSeq (q : BitVec 17) : BitVec 17 := 1#1 ++ (q.extractLsb' 0 16 + 1)

/-- `ESTICKY` with the bit of `c` set (R32, R216). -/
def stickyWith (e : BitVec 9) (c : Cause) : BitVec 9 := e ||| (1#9 <<< Cause.code c)

/-- `STATUS`, 16 bits: `CAUSE`, two zeros, `DRIVE_EN`, `ABORTED`, `REFUSED`, `BUSY`, `MODE` (R31). -/
def statusWord (s : State) : BitVec 16 :=
  causeByte s.status.cause ++ 0#2 ++ BitVec.ofBool s.status.driveEn ++ BitVec.ofBool s.status.aborted ++
    BitVec.ofBool s.status.refused ++ BitVec.ofBool s.seq.busy ++ Mode.code s.status.mode

/-- `SEQ`, 19 bits: `FRAME_PHASE`, three zeros, `REFL_IDX`, a zero, `CAP_STATE`, a zero, `ADC_STATE` (R33). -/
def seqWord (s : State) : BitVec 19 :=
  FramePhase.code s.seq.framePhase ++ 0#3 ++ BitVec.ofNat 5 s.seq.reflIdx.val ++ 0#1 ++
    CapState.code s.seq.capState ++ 0#1 ++ AdcState.code s.seq.adcState

end Sys2Proof.Machine
end

