-- ==== Sys2Proof/Machine/Ops.lean ====
section
/-! DEFINITION. The shared operations: the port latches, the PortBus and analog accesses (20_memory.md R41 to R46),
recording and taking an exception (60_exceptions.md R216 to R218), completion and the start procedures
(40_portbus_ops.md R81, 47_frame_abort.md R196). -/

namespace Sys2Proof.Machine

open Sys2Proof

/-! ### The port latches -/

/-- What a latch that is not listed holds: the reset content 0x00 (R241; log 14). -/
def Memory.unlisted : Byte := 0x00

/-- The content of latch `p`. -/
def Memory.read : Memory → Nat → Byte
  | [], _ => Memory.unlisted
  | (q, x) :: rest, p => if q = p then x else Memory.read rest p

/-- Put a cell in front, unless it holds what an unlisted latch holds. -/
def Memory.put (p : Nat) (v : Byte) (m : Memory) : Memory := if v = Memory.unlisted then m else (p, v) :: m

/-- Latch `p` becomes `v`, the canonical form kept. -/
def Memory.write : Memory → Nat → Byte → Memory
  | [], p, v => Memory.put p v []
  | (q, x) :: rest, p, v =>
    if p < q then Memory.put p v ((q, x) :: rest)
    else if p = q then Memory.put p v rest
    else (q, x) :: Memory.write rest p v

/-- The canonical form: ports strictly rising, no cell equal to an unlisted latch. -/
abbrev Memory.wf (m : Memory) : Prop :=
  m.Pairwise (fun a b => a.1 < b.1) ∧ ∀ c ∈ m, c.2 ≠ Memory.unlisted

/-- `OUT[p]` (R23). -/
def State.latch (s : State) (p : Nat) : Byte := Memory.read s.out p

/-- The latch bit of the logical pin `name`. -/
def State.latchBit (s : State) (name : Pin) : Level :=
  (s.latch (pinOf s.cfg name).port).getLsbD (pinOf s.cfg name).bit

/-- The output pin `name` is asserted: its latch bit is its active level (R45). -/
def State.asserted (s : State) (name : Pin) : Bool := PinCfg.logical (pinOf s.cfg name) (s.latchBit name)

/-! ### Accesses -/

/-- Add an access to the history (R50; log 10). -/
def logAccess (a : Access) (s : State) : State := { s with io.trace := s.io.trace ++ [a] }

/-- The environment's answer to the next read: the next scripted one, else a free one (R58; log 2). -/
def State.answer (s : State) : Answer :=
  match s.io.answers with
  | a :: _ => a
  | [] => Config.freeAnswer s.io.reads

/-- The read has been answered. -/
def takeAnswer (s : State) : State := { s with io.answers := s.io.answers.tail, io.reads := s.io.reads + 1 }

/-- The handle is one of 0..NPORTS-1 (R40, R47). -/
def State.handleOk (s : State) (p : Nat) : Bool := decide (p < s.cfg.nports)

/-- Bit b of `PortRead(p)`: the latch on an output pin (R41), the line's level on an encoder pin (R58), else what the
environment answers. -/
def State.portBit (s : State) (levels : Byte) (p b : Nat) : Level :=
  if isOutputPin s.cfg p b then (s.latch p).getLsbD b
  else if pinIsAt s.cfg (.enc 0) p b then s.io.encLine[0]
  else if pinIsAt s.cfg (.enc 1) p b then s.io.encLine[1]
  else levels.getLsbD b

/-- The pattern of `PortRead(p)` when the environment answers `levels` (R41). -/
def State.portPattern (s : State) (levels : Byte) (p : Nat) : Byte :=
  BitVec.ofBoolListLE [s.portBit levels p 0, s.portBit levels p 1, s.portBit levels p 2, s.portBit levels p 3,
    s.portBit levels p 4, s.portBit levels p 5, s.portBit levels p 6, s.portBit levels p 7]

/-- `PortRead(p)` with a valid handle (R41): the pattern, and the state with the answer taken and the access in the
history. An invalid handle is the caller's to refuse (R47). -/
def portRead (p : Nat) (s : State) : Byte × State :=
  let x := s.portPattern s.answer.levels p
  (x, logAccess (.read p x) (takeAnswer s))

/-- `(OUT & ~m) | (v & m)` (R42, R209). -/
def maskedWrite (old m v : Byte) : Byte := (old &&& ~~~m) ||| (v &&& m)

/-- `PortWrite(p, m, v)` (R42). With an invalid handle no access is made; raising is the caller's (R47, log 8). -/
def portWrite (p : Nat) (m v : Byte) (s : State) : State :=
  if s.handleOk p then
    logAccess (.write p m v) { s with out := Memory.write s.out p (maskedWrite (s.latch p) m v) }
  else s

/-- `PinRead(name)`: one PortRead; the logical value (R45). -/
def pinRead (name : Pin) (s : State) : Bool × State :=
  let r := portRead (pinOf s.cfg name).port s
  (PinCfg.logical (pinOf s.cfg name) (r.1.getLsbD (pinOf s.cfg name).bit), r.2)

/-- `PinWrite(name, a)`: one PortWrite under the one-bit mask of the pin (R45). -/
def pinWrite (name : Pin) (a : Bool) (s : State) : State :=
  portWrite (pinOf s.cfg name).port (PinCfg.maskBit (pinOf s.cfg name))
    (PinCfg.levelBit (pinOf s.cfg name) (PinCfg.levelOf (pinOf s.cfg name) a)) s

/-- `AnalogRead(name)`: `(ok, val)` (R46). -/
def analogRead (name : Pin) (s : State) : (Bool × BitVec 16) × State :=
  let v := analogReading s.cfg s.answer.value
  ((s.answer.ok, v), logAccess (.analog name s.answer.ok v) (takeAnswer s))

/-- `SwRead(i)`: one PinRead, and whether the environment says it succeeded (R187). -/
def swRead (i : Fin 4) (s : State) : (Bool × Bool) × State :=
  let r := pinRead (.sw i) s
  ((s.answer.ok, r.1), r.2)

/-- De-assert every output pin in the order of R85 (also R218). -/
def deassertOutputs (s : State) : State := outputPins.foldl (fun t name => pinWrite name false t) s

/-! ### Exceptions -/

/-- `Record(code)` (R216). -/
def record (c : Cause) (s : State) : State :=
  { s with status.cause := some c, status.esticky := stickyWith s.status.esticky c }

/-- Taking an exception: record it, then the action of its class (R216). The fatal ones stop the core: R217 for
ConfigurationError, R218 for InvalidPortHandle. A recorded cause changes nothing more here (R219, R220, R224), a
refusal sets `REFUSED` (R80, R221 to R223). Nothing is saved and nothing is entered (R228); the return from FATAL is
reset (R229), `applyReset` below. -/
def raise (c : Cause) (s : State) : State :=
  match c with
  | .configurationError =>
    let s := record c s
    { s with status.mode := .fatal, seq.busy := false }
  | .invalidPortHandle =>
    let s := deassertOutputs (record c s)
    { s with duty := Vector.replicate 2 0, seq.adcState := .idle, seq.capState := .idle, seq.reflIdx := 0,
             seq.framePhase := .none, status.mode := .fatal, seq.busy := false }
  | .contractViolation | .wrongMode | .illegalCommand => record c { s with status.refused := true }
  | .conversionTimeout | .channelUnavailable | .aborted => record c s

/-- Reset, the only way out of FATAL: every piece of state at its reset value (R229, R240, R241). The configuration,
the environment and the schedule are not state and stay. -/
def applyReset (s : State) : State := State.resetWith s.cfg { s.io with rst := true }

/-! ### Start and completion -/

/-- `StartADC()` (R100). -/
def startAdc (s : State) : State :=
  { s with res.adc := 0, adc := { polls := 0, err := false, latch := 0 }, seq.adcState := .assertCs }

/-- `StartCAP()` (R120). -/
def startCap (s : State) : State :=
  { s with res.cap := 0, cap := { timer := 0, elapsed := 0, timedOut := false }, seq.capState := .discharge }

/-- `StartREFL()` (R140). -/
def startRefl (s : State) : State :=
  { s with res.refl := Vector.replicate 16 reflSentinel, res.reflSt := false, seq.reflIdx := 0 }

/-- `R_ENC[ch] <- 0` (R80, R196). -/
def clearEnc (ch : Fin 2) (s : State) : State := { s with res.enc := s.res.enc.set ch 0 }

/-- `R_SW <- 0` (R80, R196). -/
def clearSw (s : State) : State := { s with res.sw := 0 }

/-- `NextPhase()` (R196). It is called in phases 1 to 6 only. -/
def nextPhase (s : State) : State :=
  match s.seq.framePhase with
  | .none => s
  | .scan => clearEnc 0 { s with seq.framePhase := .drain0 }
  | .drain0 => clearEnc 1 { s with seq.framePhase := .drain1 }
  | .drain1 => clearSw { s with seq.framePhase := .switches }
  | .switches => startCap { s with seq.framePhase := .capacitive }
  | .capacitive => startAdc { s with seq.framePhase := .adc }
  | .adc => { s with seq.framePhase := .commit }
  | .commit => s

/-- `CMD_LATCH.op` is FRAME. -/
def State.inFrame (s : State) : Bool := opField s.seq.cmdLatch == 0x30#8

/-- `Complete()` (R81). -/
def complete (s : State) : State := if s.inFrame then nextPhase s else { s with seq.busy := false }

/-- What accepting command `i` does beyond the common part: `AcceptActions(d)` (R80). -/
def acceptActions (i : Instr) (s : State) : State :=
  match i with
  | .nop => s
  | .init => s
  | .pwr _ _ _ => s
  | .mset _ _ => s
  | .rset _ _ => s
  | .prd _ => { s with res.port := 0 }
  | .adcs => startAdc s
  | .capm => startCap s
  | .rscan => startRefl s
  | .edrn ch => clearEnc (channelOf ch) s
  | .swp => clearSw s
  | .frame => startRefl { s with seq.framePhase := .scan }
  | .abort =>
    { s with seq.adcState := .idle, seq.capState := .idle, seq.reflIdx := 0, seq.framePhase := .none }

/-- The accepted branch of R80: `w`, decoded as `i`, is taken into the core. -/
def accept (i : Instr) (w : Word) (s : State) : State :=
  acceptActions i
    { s with status.refused := false, status.aborted := (if i = .abort then s.status.aborted else false),
             seq.cmdLatch := w, seq.busy := true }

end Sys2Proof.Machine
end

