-- ==== Sys2Proof/Machine/Actuators.lean ====
section
/-! DEFINITION. MSET and RSET, the motor and relay drivers (45_actuators.md R165 to R172). -/

namespace Sys2Proof.Machine

open Sys2Proof

/-- MSET with `s != 0`: direction, enable, duty, PWM gate, in this order (R166, R168, R169). -/
def driveMotor (ch : Fin 2) (speed : BitVec 16) (s : State) : State :=
  let s := pinWrite (.motorDir ch) (speed.slt 0) s
  let s := pinWrite (.motorEn ch) true s
  let s : State := { s with duty := s.duty.set ch (clampDuty speed) }
  complete (pinWrite (.motorPwm ch) true s)

/-- MSET with `s == 0`: PWM gate off, duty cleared, the enable line by the idle policy (R167). -/
def stopMotor (ch : Fin 2) (s : State) : State :=
  let s := pinWrite (.motorPwm ch) false s
  let s : State := { s with duty := s.duty.set ch 0 }
  complete (pinWrite (.motorEn ch) (s.cfg.motorIdleEn == 1) s)

/-- MSET (R165). -/
def execMset (ch : Byte) (speed : BitVec 16) (s : State) : Host.Outcome State Fault Refusal :=
  .next (if speed = 0 then stopMotor (channelOf ch) s else driveMotor (channelOf ch) speed s)

/-- RSET (R170). -/
def execRset (ch st : Byte) (s : State) : Host.Outcome State Fault Refusal :=
  .next (complete (pinWrite (.relay (channelOf ch)) (relayStateOf st) s))

end Sys2Proof.Machine
end

