-- ==== Sys2Proof/Machine/Adc.lean ====
section
/-! DEFINITION. ADCS, the RD/INT/CS handshake (41_adc_handshake.md R100 to R110): one state visit per step. -/

namespace Sys2Proof.Machine

open Sys2Proof

/-- ASSERT_CS (R101). -/
def adcAssertCs (s : State) : State :=
  let s := pinWrite .adcCs true s
  { s with seq.adcState := .awaitConversion }

/-- AWAIT_CONVERSION: one poll of INT (R102); seen, it goes on (R103); the last poll unseen is the timeout (R104). -/
def adcAwait (s : State) : State :=
  let r := pinRead .adcInt s
  let s : State := { r.2 with adc.polls := r.2.adc.polls + 1 }
  if r.1 then { s with seq.adcState := .assertRd }
  else if s.cfg.adcTimeout ≤ s.adc.polls.toNat then
    raise .conversionTimeout { s with adc.err := true, seq.adcState := .deassertRd }
  else s

/-- ASSERT_RD: RD asserted, then the one data-bus read, in the same step (R105). -/
def adcAssertRd (s : State) : State :=
  let s := pinWrite .adcRd true s
  let r := portRead s.cfg.adcData.port s
  { r.2 with adc.latch := r.1 &&& s.cfg.adcData.mask, seq.adcState := .deassertRd }

/-- DEASSERT_RD (R106). -/
def adcDeassertRd (s : State) : State :=
  let s := pinWrite .adcRd false s
  { s with seq.adcState := .deassertCs }

/-- DEASSERT_CS: release the converter, commit the result, complete (R107). -/
def adcDeassertCs (s : State) : State :=
  let s := pinWrite .adcCs false s
  complete { s with res.adc := (if s.adc.err then 0 else validByte s.adc.latch), seq.adcState := .idle }

/-- The handshake's step at the position `ADC_STATE` (R101 to R107, R210). From IDLE there is none (log 7). -/
def adcStep (s : State) : Host.Outcome State Fault Refusal :=
  match s.seq.adcState with
  | .idle => .fault .noTransition
  | .assertCs => .next (adcAssertCs s)
  | .awaitConversion => .next (adcAwait s)
  | .assertRd => .next (adcAssertRd s)
  | .deassertRd => .next (adcDeassertRd s)
  | .deassertCs => .next (adcDeassertCs s)

/-- ADCS (R100). -/
def execAdcs (s : State) : Host.Outcome State Fault Refusal := adcStep s

end Sys2Proof.Machine
end

