-- ==== Sys2Proof/Machine/Capacitive.lean ====
section
/-! DEFINITION. CAPM, the capacitive charge/discharge timer (42_capacitive.md R120 to R130): one state visit per
step. -/

namespace Sys2Proof.Machine

open Sys2Proof

/-- DISCHARGE: assert the line on the first visit, then count the settle ticks (R121, R122). -/
def capDischargeStep (s : State) : State :=
  let t : State := if s.cap.timer = 0 then pinWrite .capDischarge true s else s
  if t.cap.timer.toNat = t.cfg.capSettle then { t with seq.capState := .charge }
  else { t with cap.timer := t.cap.timer + 1 }

/-- CHARGE: release the discharge line, then assert the charge line, and time from zero (R123). -/
def capChargeStep (s : State) : State :=
  let s := pinWrite .capCharge true (pinWrite .capDischarge false s)
  { s with cap.timer := 0, seq.capState := .sample }

/-- A reading has crossed: it is available and not below `CAP_VTHRESH` (R124). -/
def crossed (c : Config) (ok : Bool) (v : BitVec 16) : Bool := ok && decide (c.capVthresh ≤ v.toNat)

/-- SAMPLE: one poll; a crossing ends the wait, so does the last poll (R124, R125). -/
def capSampleStep (s : State) : State :=
  let r := analogRead .capSample s
  let s := r.2
  if crossed s.cfg r.1.1 r.1.2 then { s with cap.elapsed := s.cap.timer, seq.capState := .compute }
  else
    let s : State := { s with cap.timer := s.cap.timer + 1 }
    if s.cap.timer.toNat = s.cfg.capTimeout then
      { s with cap.timedOut := true, cap.elapsed := BitVec.ofNat 16 s.cfg.capTimeout, seq.capState := .compute }
    else s

/-- COMPUTE: release the charge line, give the verdict, complete (R126, R127). -/
def capComputeStep (s : State) : State :=
  let s := pinWrite .capCharge false s
  complete { s with
    res.cap := capResult s.cap.timedOut (contactVerdict s.cfg s.cap.timedOut s.cap.elapsed) s.cap.elapsed,
    seq.capState := .idle }

/-- The cycle's step at the position `CAP_STATE` (R121 to R126, R210). From IDLE there is none (log 7). -/
def capStep (s : State) : Host.Outcome State Fault Refusal :=
  match s.seq.capState with
  | .idle => .fault .noTransition
  | .discharge => .next (capDischargeStep s)
  | .charge => .next (capChargeStep s)
  | .sample => .next (capSampleStep s)
  | .compute => .next (capComputeStep s)

/-- CAPM (R120). -/
def execCapm (s : State) : Host.Outcome State Fault Refusal := capStep s

end Sys2Proof.Machine
end

