-- ==== Sys2Proof/Machine/Encoder.lean ====
section
/-! DEFINITION. The encoder capture agents and EDRN (44_encoder.md R150 to R157). -/

namespace Sys2Proof.Machine

open Sys2Proof

/-- A change to logical level `n` counts as a tick (R151, R153). -/
def edgeCounts (c : Config) (n : Bool) : Bool :=
  match c.encEdge with
  | .both => true
  | .rising => n
  | .falling => !n

/-- The step of `enc[i]` when its line changes to logical level `n` (R151, R152). -/
def captureEdge (i : Fin 2) (n : Bool) (s : State) : State :=
  { s with enc.acc := (if edgeCounts s.cfg n then s.enc.acc.set i (satInc s.enc.acc[i]) else s.enc.acc),
           enc.prev := s.enc.prev.set i n }

/-- The agents are active: READY, and not held in reset (R150, R240). -/
def State.captureActive (s : State) : Bool := s.status.mode == .ready && !s.io.rst

/-- The environment puts a level on encoder line `i`: a step of `enc[i]` if the agent is active and the logical level
changes, else nothing but the line (R150, R151, R258). -/
def encLineChange (i : Fin 2) (level : Level) (s : State) : State :=
  let s : State := { s with io.encLine := s.io.encLine.set i level }
  let n := PinCfg.logical (pinOf s.cfg (.enc i)) level
  if s.captureActive && n != s.enc.prev[i] then captureEdge i n s else s

/-- The drain: read and clear the accumulator as one action, publish the delta, complete (R155). -/
def drainEncoder (ch : Fin 2) (s : State) : State :=
  let d := s.enc.acc[ch]
  complete { s with enc.acc := s.enc.acc.set ch 0, res.enc := s.res.enc.set ch (encResult d) }

/-- EDRN (R155). -/
def execEdrn (ch : Byte) (s : State) : Host.Outcome State Fault Refusal := .next (drainEncoder (channelOf ch) s)

end Sys2Proof.Machine
end

