-- ==== Sys2Proof/Machine/Reflectance.lean ====
section
/-! DEFINITION. RSCAN, the reflectance channel sequencer (43_reflectance.md R140 to R144): one channel per step. -/

namespace Sys2Proof.Machine

open Sys2Proof

/-- Store the answer of channel `k`: the reading, or the sentinel with a ChannelUnavailable (R141, R142, R220). -/
def storeReflectance (k : Fin 16) (ok : Bool) (v : BitVec 16) (s : State) : State :=
  if ok then { s with res.refl := s.res.refl.set k (reflReading v) }
  else raise .channelUnavailable { s with res.refl := s.res.refl.set k reflSentinel }

/-- The scan step (R142): read channel `REFL_IDX`; channel 15 completes. -/
def reflStep (s : State) : State :=
  let k := s.seq.reflIdx
  let r := analogRead (.refl k) s
  let s := storeReflectance k r.1.1 r.1.2 r.2
  if k = 15 then complete { s with seq.reflIdx := 0, res.reflSt := true }
  else { s with seq.reflIdx := k + 1 }

/-- RSCAN (R140). -/
def execRscan (s : State) : Host.Outcome State Fault Refusal := .next (reflStep s)

end Sys2Proof.Machine
end

