-- ==== Sys2Proof/Machine/Switches.lean ====
section
/-! DEFINITION. SWP, the switch debouncer (46_switches.md R185 to R191). -/

namespace Sys2Proof.Machine

open Sys2Proof

/-- One readable poll of switch `i` with raw level `raw` (R186). -/
def debounce (i : Fin 4) (raw : Bool) (s : State) : State :=
  if raw = s.sw.stable[i] then { s with sw.cnt := s.sw.cnt.set i 0 }
  else if s.cfg.swDebounce ≤ s.sw.cnt[i].toNat + 1 then
    { s with sw.stable := s.sw.stable.set i raw, sw.cnt := s.sw.cnt.set i 0 }
  else { s with sw.cnt := s.sw.cnt.set i (s.sw.cnt[i] + 1) }

/-- Switch `i` in the poll: the read, then the debouncer or the ChannelUnavailable; the second component is `av`
(R186, R187, R220). -/
def pollSwitch (p : State × Vector Bool 4) (i : Fin 4) : State × Vector Bool 4 :=
  let r := swRead i p.1
  if r.1.1 then (debounce i r.1.2 r.2, p.2.set i true)
  else (raise .channelUnavailable { r.2 with sw.cnt := r.2.sw.cnt.set i 0 }, p.2)

/-- The four switches in index order, `av` from 0 (R186). -/
def pollSwitches (s : State) : State × Vector Bool 4 :=
  ([0, 1, 2, 3] : List (Fin 4)).foldl pollSwitch (s, Vector.replicate 4 false)

/-- The SWP step (R186). -/
def swStep (s : State) : State :=
  let p := pollSwitches s
  complete { p.1 with res.sw := swResult p.2 p.1.sw.stable }

/-- SWP (R185). -/
def execSwp (s : State) : Host.Outcome State Fault Refusal := .next (swStep s)

end Sys2Proof.Machine
end

