-- ==== Sys2Proof/Machine/Frame.lean ====
section
/-! DEFINITION. FRAME, the sampling cycle, and ABORT, the cancellation (47_frame_abort.md R195 to R208). -/

namespace Sys2Proof.Machine

open Sys2Proof

/-- The commit step, phase 7: the whole bank in one action (R203). -/
def commitFrame (s : State) : State :=
  { s with bank := { refl := s.res.refl, enc := s.res.enc, sw := s.res.sw, cap := s.res.cap, adc := s.res.adc,
                     seq := nextFrameSeq s.bank.seq },
           seq.framePhase := .none, seq.busy := false }

/-- FRAME (R195, R196): the step of the sub-operation that `FRAME_PHASE` names. A FRAME in flight is never in phase 0
(log 7). -/
def execFrame (s : State) : Host.Outcome State Fault Refusal :=
  match s.seq.framePhase with
  | .none => .fault .noTransition
  | .scan => .next (reflStep s)
  | .drain0 => .next (drainEncoder 0 s)
  | .drain1 => .next (drainEncoder 1 s)
  | .switches => .next (swStep s)
  | .capacitive => capStep s
  | .adc => adcStep s
  | .commit => .next (commitFrame s)

/-- The four lines released by ABORT, in this order (R207). -/
def releaseLines (s : State) : State :=
  pinWrite .capCharge false (pinWrite .capDischarge false (pinWrite .adcCs false (pinWrite .adcRd false s)))

/-- ABORT (R207): release the lines, set `ABORTED`, record cause 8, complete. -/
def execAbort (s : State) : Host.Outcome State Fault Refusal :=
  let s := releaseLines s
  .next (complete (raise .aborted { s with status.aborted := true }))

end Sys2Proof.Machine
end

