-- ==== Sys2Proof/Machine/Ports.lean ====
section
/-! DEFINITION. PRD and PWR, the raw port commands (40_portbus_ops.md R86, R87). -/

namespace Sys2Proof.Machine

open Sys2Proof

/-- The PRD step with a valid handle: `R_PORT <- {1, PortRead(p)}` (R86). -/
def readPortResult (p : Nat) (s : State) : State :=
  let r := portRead p s
  complete { r.2 with res.port := validByte r.1 }

/-- PRD (R86); InvalidPortHandle when `p >= NPORTS` (R47, R218). -/
def execPrd (p : Byte) (s : State) : Host.Outcome State Fault Refusal :=
  .next (if s.handleOk (portOf p) then readPortResult (portOf p) s else raise .invalidPortHandle s)

/-- PWR (R87); InvalidPortHandle when `p >= NPORTS`, even with an empty mask (R42, R218). -/
def execPwr (p m v : Byte) (s : State) : Host.Outcome State Fault Refusal :=
  .next (if s.handleOk (portOf p) then complete (portWrite (portOf p) m v s) else raise .invalidPortHandle s)

end Sys2Proof.Machine
end

