-- ==== Sys2Proof/Machine/System.lean ====
section
/-! DEFINITION. NOP and INIT (40_portbus_ops.md R82 to R85). -/

namespace Sys2Proof.Machine

open Sys2Proof

/-! ### `Valid(CFG)` (R84), check by check -/

/-- Check 1, missing: every logical pin and the data bus are present. -/
def allPresent (c : Config) : Bool := allPins.all (fun n => (pinOf c n).present) && c.adcData.present

/-- Check 2, port range. -/
def portsInRange (c : Config) : Bool :=
  decide (1 ≤ c.nports) && decide (c.nports ≤ 256) &&
    allPins.all (fun n => decide ((pinOf c n).port < c.nports)) && decide (c.adcData.port < c.nports)

/-- Check 3, bit range. -/
def bitsInRange (c : Config) : Bool :=
  allPins.all (fun n => decide ((pinOf c n).bit ≤ 7) && decide ((pinOf c n).active ≤ 1))

/-- The place of a logical pin: (port, bit). -/
def pinPlace (c : Config) (n : Pin) : Nat × Nat := ((pinOf c n).port, (pinOf c n).bit)

/-- Check 4, no overlap: no two of the 36 logical pins have the same (port, bit). -/
def noOverlap (c : Config) : Bool := decide ((allPins.map (pinPlace c)).Nodup)

/-- Check 5, data bus: a whole port that no logical pin is on. -/
def dataBusAlone (c : Config) : Bool :=
  c.adcData.mask == 0xFF#8 && allPins.all (fun n => (pinOf c n).port != c.adcData.port)

/-- Check 6, numbers. `ENC_EDGE` holds by its type. -/
def numbersInRange (c : Config) : Bool :=
  decide (1 ≤ c.adcTimeout) && decide (c.adcTimeout ≤ 65535) && decide (c.capSettle ≤ 65535) &&
    decide (1 ≤ c.capTimeout) && decide (c.capTimeout ≤ 65535) && decide (c.capContactT ≤ c.capTimeout) &&
    decide (1 ≤ c.analogWidth) && decide (c.analogWidth ≤ 15) && decide (c.capVthresh < 2 ^ c.analogWidth) &&
    decide (1 ≤ c.swDebounce) && decide (c.swDebounce ≤ 255) && decide (c.motorIdleEn ≤ 1) &&
    decide (1 ≤ c.pollPeriod) && decide (c.pollPeriod ≤ 65535)

/-- `Valid(CFG)` (R84). -/
def validConfig (c : Config) : Bool :=
  allPresent c && portsInRange c && bitsInRange c && noOverlap c && dataBusAlone c && numbersInRange c

/-! ### The meanings -/

/-- `ENC_PREV[i] <- PinRead(ENCi); ENC_ACC[i] <- 0` (R85). -/
def sampleEncoder (i : Fin 2) (s : State) : State :=
  let r := pinRead (.enc i) s
  { r.2 with enc.prev := r.2.enc.prev.set i r.1, enc.acc := r.2.enc.acc.set i 0 }

/-- The INIT step with a valid configuration (R85). -/
def initValid (s : State) : State :=
  let s := deassertOutputs s
  let s : State := { s with status.driveEn := true, duty := Vector.replicate 2 0 }
  let s := sampleEncoder 1 (sampleEncoder 0 s)
  let s : State := { s with sw := { stable := Vector.replicate 4 false, cnt := Vector.replicate 4 0 } }
  complete { s with status.mode := .ready }

/-- NOP (R82): nothing but completion. -/
def execNop (s : State) : Host.Outcome State Fault Refusal := .next (complete s)

/-- INIT (R83, R85): to READY when `Valid(CFG)`, else ConfigurationError (R217). -/
def execInit (s : State) : Host.Outcome State Fault Refusal :=
  .next (if validConfig s.cfg then initValid s else raise .configurationError s)

end Sys2Proof.Machine
end

