-- ==== Sys2Proof/Machine/Dispatch.lean ====
section
/-! DEFINITION. One arm per command: the sequencer's step of the command at the position the state holds. -/

namespace Sys2Proof.Machine

open Sys2Proof

/-- The sequencer's step of command `i` (R88, R210; log 20). -/
def exec (i : Instr) (s : State) : Host.Outcome State Fault Refusal :=
  match i with
  | .nop => Sys2Proof.Machine.execNop s
  | .init => Sys2Proof.Machine.execInit s
  | .prd p => Sys2Proof.Machine.execPrd p s
  | .pwr p m v => Sys2Proof.Machine.execPwr p m v s
  | .adcs => Sys2Proof.Machine.execAdcs s
  | .capm => Sys2Proof.Machine.execCapm s
  | .rscan => Sys2Proof.Machine.execRscan s
  | .edrn ch => Sys2Proof.Machine.execEdrn ch s
  | .swp => Sys2Proof.Machine.execSwp s
  | .mset ch speed => Sys2Proof.Machine.execMset ch speed s
  | .rset ch st => Sys2Proof.Machine.execRset ch st s
  | .frame => Sys2Proof.Machine.execFrame s
  | .abort => Sys2Proof.Machine.execAbort s

end Sys2Proof.Machine
end

