-- ==== Sys2Proof/Machine/HostPort.lean ====
section
/-! DEFINITION. The host's side: issuing a command (40_portbus_ops.md R80, 30_encoding.md R71), the register map
(10_state.md R30), the reset input (70_reset_and_hazards.md R240), and when the sequencer has a step (R88). -/

namespace Sys2Proof.Machine

open Sys2Proof

/-- The mode does not allow the command: anything but NOP and INIT in UNCONFIGURED, INIT in READY (R80, R222). -/
def modeRefuses (m : Mode) (i : Instr) : Bool :=
  match m with
  | .unconfigured => i != .nop && i != .init
  | .ready => i == .init
  | .fatal => false

/-- A host write of `w` to `CMD` (R80): ignored under reset (R240) and in FATAL; else refused with the first of
IllegalCommand, ContractViolation, WrongMode that applies (R227), or accepted. -/
def issueCommand (w : Word) (s : State) : State :=
  if s.io.rst || s.status.mode == .fatal then s
  else
    match decode w with
    | .illegal _ => raise .illegalCommand s
    | .legal i =>
      if s.seq.busy && i != .abort then raise .contractViolation s
      else if modeRefuses s.status.mode i then raise .wrongMode s
      else accept i w s

/-- A host write: only `CMD`, register 0x00, has an effect (R30). -/
def hostWrite (n : BitVec 6) (v : Word) (s : State) : State := if n = 0 then issueCommand v s else s

/-- A host read has no side effect (R30). What it returns is `hostRegister`. -/
def hostRead (_n : BitVec 6) (s : State) : State := s

/-- The host drives `RST` (R240): asserted, everything is at its reset value; released, the core goes on from
there. -/
def driveRst (asserted : Bool) (s : State) : State :=
  if asserted then applyReset s else { s with io.rst := false }

/-- The content of host register `n` (R30): 32 bits, zero-extended; unlisted numbers read 0. -/
def hostRegister (s : State) (n : BitVec 6) : Word :=
  if h : 0x10 ≤ n.toNat ∧ n.toNat < 0x20 then (s.res.refl[n.toNat - 0x10]).setWidth 32
  else if h : 0x20 ≤ n.toNat ∧ n.toNat < 0x30 then (s.bank.refl[n.toNat - 0x20]).setWidth 32
  else
    match n.toNat with
    | 0x00 => s.seq.cmdLatch
    | 0x01 => (statusWord s).setWidth 32
    | 0x02 => s.status.esticky.setWidth 32
    | 0x03 => s.res.port.setWidth 32
    | 0x04 => s.res.adc.setWidth 32
    | 0x05 => s.res.cap.setWidth 32
    | 0x06 => (s.res.enc[0]).setWidth 32
    | 0x07 => (s.res.enc[1]).setWidth 32
    | 0x08 => s.res.sw.setWidth 32
    | 0x09 => (s.duty[0]).setWidth 32
    | 0x0A => (s.duty[1]).setWidth 32
    | 0x0B => (BitVec.ofBool s.res.reflSt).setWidth 32
    | 0x0C => (seqWord s).setWidth 32
    | 0x30 => (s.bank.enc[0]).setWidth 32
    | 0x31 => (s.bank.enc[1]).setWidth 32
    | 0x32 => s.bank.sw.setWidth 32
    | 0x33 => s.bank.cap.setWidth 32
    | 0x34 => s.bank.adc.setWidth 32
    | 0x35 => s.bank.seq.setWidth 32
    | _ => 0

/-- The sequencer has a step: exactly when `BUSY == 1` (R88), and not under reset (R240). -/
def State.sequencerRuns (s : State) : Bool := s.seq.busy && !s.io.rst

/-- The command the sequencer runs: the one in `CMD_LATCH` (R12, R14). -/
def fetchCommand (s : State) : Decoded := decode s.seq.cmdLatch

/-- The state in which the sequencer's next step is one of the command word `w`: as its acceptance leaves it (R80),
with nothing else pending. A word that is no command is never latched (R65): it is the host's next write instead
(log 4). -/
def loadCommand (w : Word) (s : State) : State :=
  match decode w with
  | .legal i => accept i w { s with io.events := [], io.rst := false }
  | .illegal _ => { s with io.events := [.hostWrite 0 w], io.rst := false }

end Sys2Proof.Machine
end

