-- ==== Sys2Proof/Machine/Step.lean ====
section
/-! DEFINITION. One step of the machine: the next pending step of the schedule, or a tick of the sequencer
(00_scope.md R8; log 1). -/

namespace Sys2Proof.Machine

open Sys2Proof

/-- One tick: when the sequencer has a step it runs the latched command (R88); else nothing happens (log 6). -/
def tick (s : State) : Host.Outcome State Fault Refusal :=
  if s.sequencerRuns then
    match fetchCommand s with
    | .legal i => exec i s
    | .illegal _ => .fault .latchHoldsNoCommand
  else .next s

/-- One pending step of the host, the environment or the sequencer. -/
def stepEvent (e : Event) (s : State) : Host.Outcome State Fault Refusal :=
  match e with
  | .tick => tick s
  | .hostWrite n v => .next (hostWrite n v s)
  | .hostRead n => .next (hostRead n s)
  | .rst asserted => .next (driveRst asserted s)
  | .encLine i level => .next (encLineChange i level s)

/-- One step of the machine: the first pending step, or a tick when nothing is pending. -/
def step (s : State) : Host.Outcome State Fault Refusal :=
  match s.io.events with
  | [] => tick s
  | e :: rest => stepEvent e { s with io.events := rest }

/-- `s` with the command word `w` placed so that the very next step runs it (log 4). -/
def State.withFetchWord (s : State) (nbits w : Nat) : State := loadCommand (BitVec.ofNat 32 (w % 2 ^ nbits)) s

end Sys2Proof.Machine
end

