-- ==== Sys2Proof/Machine/Observe.lean ====
section
/-! DEFINITION. What can be seen from outside without changing anything: the pins (20_memory.md R59) and the active
operation (10_state.md R14). -/

namespace Sys2Proof.Machine

open Sys2Proof

/-- The level of the PWM pin of motor `i` at phase `ph` (R59): asserted for `DUTY[i]` of the 255 phases while the gate
is asserted. -/
def pwmLevel (s : State) (i : Fin 2) (ph : Fin 255) : Level :=
  PinCfg.levelOf (pinOf s.cfg (.motorPwm i)) (s.asserted (.motorPwm i) && decide (ph.val < s.duty[i].toNat))

/-- `PinLevel(p, b, ph)`: the level the core puts on physical pin (p, b); `none` is NOT_DRIVEN (R59). -/
def pinLevel (s : State) (p b : Nat) (ph : Fin 255) : Option Level :=
  if !s.status.driveEn || !isOutputPin s.cfg p b then none
  else if pinIsAt s.cfg (.motorPwm 0) p b then some (pwmLevel s 0 ph)
  else if pinIsAt s.cfg (.motorPwm 1) p b then some (pwmLevel s 1 ph)
  else some ((s.latch p).getLsbD b)

/-- The active operation (R14): a command, or the commit step of a FRAME. -/
inductive Active where
  | command (i : Instr)
  | commit
deriving DecidableEq, Repr

/-- `ACTIVE` inside a FRAME: what `FRAME_PHASE` names (R14, R196). -/
def phaseOperation : FramePhase → Option Active
  | .none => none
  | .scan => some (.command .rscan)
  | .drain0 => some (.command (.edrn 0))
  | .drain1 => some (.command (.edrn 1))
  | .switches => some (.command .swp)
  | .capacitive => some (.command .capm)
  | .adc => some (.command .adcs)
  | .commit => some .commit

/-- `ACTIVE` (R14): none when not busy, in a FRAME the sub-operation, else the latched command. -/
def State.active (s : State) : Option Active :=
  if !s.seq.busy then none
  else
    match decode s.seq.cmdLatch with
    | .legal .frame => phaseOperation s.seq.framePhase
    | .legal i => some (.command i)
    | .illegal _ => none

end Sys2Proof.Machine
end

