-- ==== Sys2Proof/Safety.lean ====
section
/-! DEFINITION. What the claims speak of: the invariant of a run (10_state.md R11, R14, R20 to R22, R32, R36,
42_capacitive.md R125, 47_frame_abort.md R198), the pin invariant (10_state.md R35), and the words in which a
statement says what an access changed. -/

namespace Sys2Proof.Machine

open Sys2Proof

/-! ### The invariant -/

/-- R23: the latches are in canonical form, and only ports 0..NPORTS-1 have one. -/
abbrev LatchesOk (s : State) : Prop := Memory.wf s.out ∧ ∀ c ∈ s.out, c.1 < s.cfg.nports

/-- R14: no unit is under way. -/
abbrev AllIdle (s : State) : Prop :=
  s.seq.framePhase = .none ∧ s.seq.adcState = .idle ∧ s.seq.capState = .idle ∧ s.seq.reflIdx = 0

/-- R198: in a FRAME the unit of the phase is under way and no other. -/
abbrev FramePosition (s : State) : Prop :=
  match s.seq.framePhase with
  | .none => False
  | .scan => s.seq.adcState = .idle ∧ s.seq.capState = .idle
  | .capacitive => s.seq.capState ≠ .idle ∧ s.seq.adcState = .idle ∧ s.seq.reflIdx = 0
  | .adc => s.seq.adcState ≠ .idle ∧ s.seq.capState = .idle ∧ s.seq.reflIdx = 0
  | .drain0 | .drain1 | .switches | .commit =>
    s.seq.adcState = .idle ∧ s.seq.capState = .idle ∧ s.seq.reflIdx = 0

/-- The positions a command in flight can stand at: its own unit is under way, no other is (R14, R198, R210). -/
abbrev PositionOf (i : Instr) (s : State) : Prop :=
  match i with
  | .adcs => s.seq.framePhase = .none ∧ s.seq.adcState ≠ .idle ∧ s.seq.capState = .idle ∧ s.seq.reflIdx = 0
  | .capm => s.seq.framePhase = .none ∧ s.seq.adcState = .idle ∧ s.seq.capState ≠ .idle ∧ s.seq.reflIdx = 0
  | .rscan => s.seq.framePhase = .none ∧ s.seq.adcState = .idle ∧ s.seq.capState = .idle
  | .frame => FramePosition s
  | .nop | .init | .prd _ | .pwr _ _ _ | .edrn _ | .swp | .mset _ _ | .rset _ _ | .abort => AllIdle s

/-- R80, R232: which commands can be in flight in which mode. -/
abbrev ModeRuns (m : Mode) (i : Instr) : Prop :=
  match m with
  | .unconfigured => i = .nop ∨ i = .init
  | .ready => i ≠ .init
  | .fatal => False

/-- R12, R14: an idle sequencer has no unit under way; a busy one holds a command the mode allows, at one of its
positions. -/
abbrev SequencerOk (s : State) : Prop :=
  if s.seq.busy then
    match decode s.seq.cmdLatch with
    | .legal i => PositionOf i s ∧ ModeRuns s.status.mode i
    | .illegal _ => False
  else AllIdle s

/-- R11, R232, R240: what each mode says of `CFG`, `DRIVE_EN`, the reset input and the encoder lines. -/
abbrev ModeOk (s : State) : Prop :=
  match s.status.mode with
  | .unconfigured => s.status.driveEn = false
  | .ready =>
    validConfig s.cfg = true ∧ s.status.driveEn = true ∧ s.io.rst = false ∧
      ∀ i : Fin 2, s.enc.prev[i] = PinCfg.logical (pinOf s.cfg (.enc i)) s.io.encLine[i]
  | .fatal => s.io.rst = false ∧ (s.status.driveEn = true → validConfig s.cfg = true)

/-- R240: under reset nothing is in flight. -/
abbrev ResetHeld (s : State) : Prop := s.io.rst = true → s.status.mode = .unconfigured ∧ s.seq.busy = false

/-- R22, R104: the poll counter, below the timeout while the wait goes on. -/
abbrev AdcBound (s : State) : Prop :=
  s.adc.polls.toNat ≤ s.cfg.adcTimeout ∧
    (s.seq.adcState = .assertCs ∨ s.seq.adcState = .awaitConversion → s.adc.polls.toNat < s.cfg.adcTimeout)

/-- R22, R125: the timer and the elapsed time; a timeout is reported exactly with the ceiling. -/
abbrev CapBound (s : State) : Prop :=
  s.cap.timer.toNat ≤ max s.cfg.capSettle s.cfg.capTimeout ∧ s.cap.elapsed.toNat ≤ s.cfg.capTimeout ∧
    (s.seq.capState = .discharge → s.cap.timer.toNat ≤ s.cfg.capSettle) ∧
    (s.seq.capState = .sample → s.cap.timer.toNat < s.cfg.capTimeout) ∧
    (s.seq.capState = .discharge ∨ s.seq.capState = .charge ∨ s.seq.capState = .sample →
      s.cap.timedOut = false) ∧
    (s.seq.capState = .compute → (s.cap.timedOut = true ↔ s.cap.elapsed.toNat = s.cfg.capTimeout))

/-- R22: the debounce counters between steps. -/
abbrev SwBound (s : State) : Prop := ∀ i : Fin 4, s.sw.cnt[i].toNat ≤ s.cfg.swDebounce - 1

/-- R20, R21, R27: accumulators and deltas are in 0..32767. -/
abbrev EncBound (s : State) : Prop :=
  (∀ i : Fin 2, s.enc.acc[i].toNat ≤ 32767) ∧ (∀ i : Fin 2, s.res.enc[i].getLsbD 15 = false) ∧
    ∀ i : Fin 2, s.bank.enc[i].getLsbD 15 = false

/-- R36: an unavailable element holds the sentinel. -/
abbrev SentinelOk (v : Vector (BitVec 17) 16) : Prop :=
  ∀ k : Fin 16, v[k].getLsbD 16 = false → v[k].extractLsb' 0 16 = 0xFFFF#16

/-- R36: a result that is not valid holds nothing. -/
abbrev ResultsOk (s : State) : Prop :=
  SentinelOk s.res.refl ∧ SentinelOk s.bank.refl ∧
    (s.res.adc.getLsbD 8 = false → s.res.adc = 0) ∧ (s.res.cap.getLsbD 18 = false → s.res.cap = 0) ∧
    (∀ i : Fin 2, s.res.enc[i].getLsbD 16 = false → s.res.enc[i] = 0) ∧
    (s.res.port.getLsbD 8 = false → s.res.port = 0)

/-- R32, R215: bit 0 is never set, the latest cause is also sticky, and nothing is sticky before the first cause. -/
abbrev StickyOk (s : State) : Prop :=
  s.status.esticky.getLsbD 0 = false ∧
    (∀ c, s.status.cause = some c → s.status.esticky.getLsbD (Cause.code c) = true) ∧
    (s.status.cause = none → s.status.esticky = 0)

/-- The invariant that every step keeps. -/
structure Invariant (s : State) : Prop where
  latches   : LatchesOk s
  sequencer : SequencerOk s
  mode      : ModeOk s
  resetHeld : ResetHeld s
  adc       : AdcBound s
  cap       : CapBound s
  sw        : SwBound s
  enc       : EncBound s
  results   : ResultsOk s
  sticky    : StickyOk s

/-! ### The pin invariant (R35) -/

/-- An accepted ABORT waits for its step: the one tick that R35 excepts. -/
abbrev AbortInFlight (s : State) : Prop := s.seq.busy = true ∧ s.seq.cmdLatch = encode .abort

/-- The pins that R35 names. -/
def guardedPins : List Pin := [.adcCs, .adcRd, .capCharge, .capDischarge, .motorPwm 0, .motorPwm 1]

/-- R35: in READY, an idle unit holds its lines de-asserted (but for the tick of an ABORT), the charge and the
discharge line are never asserted together, and a PWM gate is asserted only with a duty above 0. -/
structure PinInv (s : State) : Prop where
  adcIdle : s.status.mode = .ready → s.seq.adcState = .idle → ¬ AbortInFlight s →
    s.asserted .adcCs = false ∧ s.asserted .adcRd = false
  capIdle : s.status.mode = .ready → s.seq.capState = .idle → ¬ AbortInFlight s →
    s.asserted .capCharge = false ∧ s.asserted .capDischarge = false
  notBoth : s.status.mode = .ready → ¬ (s.asserted .capCharge = true ∧ s.asserted .capDischarge = true)
  pwmDuty : s.status.mode = .ready → ∀ i : Fin 2, s.asserted (.motorPwm i) = true → 0 < s.duty[i].toNat

/-- What R35 leaves to the order of the cycle and of the handshake (R106, R121 to R126): RD rests in DEASSERT_CS, the
charge line until CHARGE, the discharge line from SAMPLE on. -/
structure CycleLines (s : State) : Prop where
  readRests : s.status.mode = .ready → s.seq.adcState = .deassertCs → s.asserted .adcRd = false
  chargeRests : s.status.mode = .ready → s.seq.capState = .discharge ∨ s.seq.capState = .charge →
    s.asserted .capCharge = false
  dischargeRests : s.status.mode = .ready → s.seq.capState = .sample ∨ s.seq.capState = .compute →
    s.asserted .capDischarge = false

/-- The coming step is a tick of the sequencer. -/
abbrev TickNext (s : State) : Prop := s.io.events = [] ∨ s.io.events.head? = some .tick

/-- The coming step runs command `i`. -/
abbrev RunsNext (s : State) (i : Instr) : Prop :=
  TickNext s ∧ s.sequencerRuns = true ∧ fetchCommand s = .legal i

/-- The coming step reads and clears the accumulator of line `i`: an EDRN of it, or its drain phase of a FRAME (R155,
R196). -/
abbrev DrainsNext (s : State) (i : Fin 2) : Prop :=
  (∃ ch, channelOf ch = i ∧ RunsNext s (.edrn ch)) ∨
    (RunsNext s .frame ∧ s.seq.framePhase = if i = 0 then .drain0 else .drain1)

/-- The coming step is a PWR that selects a latch bit of a guarded pin (R250). -/
abbrev PwrTouchesGuarded (s : State) : Prop :=
  ∃ p m v, RunsNext s (.pwr p m v) ∧
    ∃ n ∈ guardedPins, (pinOf s.cfg n).port = portOf p ∧ m.getLsbD (pinOf s.cfg n).bit = true

/-! ### Words for what a step did -/

/-- The schedule with its first entry gone. -/
def State.popped (s : State) : State := { s with io.events := s.io.events.tail }

/-- The access `W(p, m, v)` of `PinWrite(name, a)` (R45). -/
def pinAccess (c : Config) (n : Pin) (a : Bool) : Access :=
  .write (pinOf c n).port (PinCfg.maskBit (pinOf c n)) (PinCfg.levelBit (pinOf c n) (PinCfg.levelOf (pinOf c n) a))

/-- The access `R(p)=x` of a port read, answered by `a` (R41). -/
def readAccess (s : State) (a : Answer) (p : Nat) : Access := .read p (s.portPattern a.levels p)

/-- The access `A(name)=(ok, val)` of an analog read, answered by `a` (R46). -/
def analogAccess (c : Config) (n : Pin) (a : Answer) : Access := .analog n a.ok (analogReading c a.value)

/-- Between `s` and `t` the latches differ at most in the bits of the listed pins, and those pins show the listed
logical values. -/
def LatchesDrive (s t : State) (l : List (Pin × Bool)) : Prop :=
  (∀ x ∈ l, t.asserted x.1 = x.2) ∧
    ∀ p b, (∀ x ∈ l, pinIsAt s.cfg x.1 p b = false) → (t.latch p).getLsbD b = (s.latch p).getLsbD b

/-- The environment's answer to the `k`-th read from here (counted from 0). -/
def State.answerAt (s : State) (k : Nat) : Answer :=
  match s.io.answers.drop k with
  | a :: _ => a
  | [] => Config.freeAnswer (s.io.reads + k)

/-- The logical value of the one-bit input `n` in an answer. -/
def seesAsserted (c : Config) (n : Pin) (a : Answer) : Bool :=
  PinCfg.logical (pinOf c n) (a.levels.getLsbD (pinOf c n).bit)

/-- The reflectance element an answer gives (R141). -/
def reflElement (c : Config) (a : Answer) : BitVec 17 :=
  if a.ok then reflReading (analogReading c a.value) else reflSentinel

/-- The sample line has crossed in an answer (R124). -/
def answerCrosses (c : Config) (a : Answer) : Bool := crossed c a.ok (analogReading c a.value)

/-- How many of the successive logical levels `l` of an encoder line are counted ticks, when its level before them is
`p` (R151, R154). -/
def countedEdges (c : Config) : Bool → List Bool → Nat
  | _, [] => 0
  | p, n :: rest => (if n != p && edgeCounts c n then 1 else 0) + countedEdges c n rest

/-- The logical level that an event puts on encoder line `i`, if it is one of that line. -/
def lineLevel (c : Config) (i : Fin 2) : Event → Option Bool
  | .encLine j l => if j = i then some (PinCfg.logical (pinOf c (.enc i)) l) else none
  | .tick | .hostWrite _ _ | .hostRead _ | .rst _ => none

/-- The successive logical levels that a schedule puts on encoder line `i`. -/
def lineLevels (c : Config) (i : Fin 2) (es : List Event) : List Bool := es.filterMap (lineLevel c i)

/-- The state after its environment has answered `k` reads and the accesses `l` were made. -/
def World.after (w : World) (k : Nat) (l : List Access) : World :=
  { w with answers := w.answers.drop k, reads := w.reads + k, trace := w.trace ++ l }

/-- `BUSY` is 1 before each of the first `n` steps from `s`: what completes with the `n`-th step did not before. -/
def BusyBefore (n : Nat) (s : State) : Prop :=
  ∀ k, k < n → ∀ u, core.run k s = .next u → u.seq.busy = true

/-- `f 0`, `f 1` and so on are the states before successive polls (by SWP, or by a FRAME, whose switch phase takes the
same step), and the `k`-th of the first `n` can read switch `i` and sees the raw level `raw k`. Between two polls
anything may happen that leaves the debouncers and `CFG` alone (R186: only a poll writes them; R85, R240: INIT and reset
do too). -/
def PollsSee (f : Nat → State) (i : Fin 4) (n : Nat) (raw : Nat → Bool) : Prop :=
  ∀ k, k < n →
    ((f k).answerAt i.val).ok = true ∧ seesAsserted (f k).cfg (.sw i) ((f k).answerAt i.val) = raw k ∧
      ∃ t, exec .swp (f k) = .next t ∧ (f (k + 1)).sw = t.sw ∧ (f (k + 1)).cfg = t.cfg

/-- Nothing is pending and the command `i` is in flight, freely running. -/
abbrev InFlight (s : State) (i : Instr) : Prop :=
  s.io.events = [] ∧ s.io.rst = false ∧ s.seq.busy = true ∧ s.seq.cmdLatch = encode i

end Sys2Proof.Machine
end

