-- ==== Sys2Proof/Certificates/Slice0/Obligations.lean ====
section
/-! DEFINITION. The statements for the provers. Each docstring names the rules of spec/ it formalises. `exec i s` is
the sequencer's step of command `i` (log 20); a state written `{ s with … }` says that nothing else changes. -/

open Sys2Proof Sys2Proof.Machine

/-! ### Encoding -/

/-- R61 to R67: decoding the word of a legal command gives the command back. -/
def Obligations.DecodeInvertsEncode : Prop :=
  ∀ i : Instr, i.WellFormed → decode (encode i) = .legal i

/-- R64, R65: a word that decodes is the one word of a legal command. -/
def Obligations.EncodeInvertsDecode : Prop :=
  ∀ (w : Word) (i : Instr), decode w = .legal i → i.WellFormed ∧ encode i = w

/-- R63, R64: a word is legal exactly when it matches a row of the match/mask table, and the row is the command's. -/
def Obligations.LegalWordsMatchOneRow : Prop :=
  (∀ w : Word, (∃ i, decode w = .legal i) ↔ ∃ r ∈ opcodeTable, r.matchesWord w = true) ∧
    ∀ (w : Word) (i : Instr) (r : OpcodeRow), decode w = .legal i → r ∈ opcodeTable → r.matchesWord w = true →
      r.mnemonic = i.mnemonic

/-- R70: the encoding examples, legal and illegal. -/
def Obligations.EncodingExamplesDecode : Prop :=
  decode 0x02030000 = .legal (.prd 3) ∧ decode 0x03024040 = .legal (.pwr 2 0x40 0x40) ∧
    decode 0x13010000 = .legal (.edrn 1) ∧ decode 0x2000012C = .legal (.mset 0 300) ∧
    decode 0x2001FF9C = .legal (.mset 1 (-100)) ∧ decode 0x20008000 = .legal (.mset 0 (-32768)) ∧
    decode 0x21000001 = .legal (.rset 0 1) ∧ decode 0x30000000 = .legal .frame ∧
    decode 0x3F000000 = .legal .abort ∧
    (decode 0x02030001).toOption = none ∧ (decode 0x13020000).toOption = none ∧
    (decode 0x21000002).toOption = none ∧ (decode 0x04000000).toOption = none ∧
    (decode 0x10000001).toOption = none

/-! ### A step -/

/-- R12, R88: when the coming step is a tick and the sequencer is busy, the step runs the latched command. -/
def Obligations.StepRunsLatchedCommand : Prop :=
  ∀ (s : State) (i : Instr), TickNext s → s.io.rst = false → s.seq.busy = true → decode s.seq.cmdLatch = .legal i →
    step s = exec i s.popped

/-- R88, R240: a tick of an idle sequencer, or of one held in reset, changes nothing (the model's step is then the tick
itself, log 6). -/
def Obligations.IdleTickChangesNothing : Prop :=
  ∀ s : State, TickNext s → s.seq.busy = false ∨ s.io.rst = true → step s = .next s.popped

/-- R80: the whole effect of a host write to CMD: ignored in FATAL, else refused with the first failing check, else
accepted with the start actions of the command. The sticky bits are 7, 5 and 6, the causes' codes. -/
def Obligations.CommandWriteOutcome : Prop :=
  ∀ (s : State) (w : Word) (rest : List Event), s.io.events = .hostWrite 0 w :: rest → s.io.rst = false →
    let u := s.popped
    let refusedWith (c : Cause) (bit : BitVec 9) : State :=
      { u with status.refused := true, status.cause := some c, status.esticky := s.status.esticky ||| bit }
    step s = .next (
      if s.status.mode = .fatal then u
      else
        match decode w with
        | .illegal _ => refusedWith .illegalCommand 0x080
        | .legal i =>
          if s.seq.busy = true ∧ i ≠ .abort then refusedWith .contractViolation 0x020
          else if s.status.mode = .unconfigured ∧ i ≠ .nop ∧ i ≠ .init then refusedWith .wrongMode 0x040
          else if s.status.mode = .ready ∧ i = .init then refusedWith .wrongMode 0x040
          else
            let v : State := { u with status.refused := false,
                                      status.aborted := (if i = .abort then s.status.aborted else false),
                                      seq.cmdLatch := w, seq.busy := true }
            match i with
            | .nop | .init | .pwr _ _ _ | .mset _ _ | .rset _ _ => v
            | .prd _ => { v with res.port := 0 }
            | .adcs => { v with res.adc := 0, adc := { polls := 0, err := false, latch := 0 },
                                seq.adcState := .assertCs }
            | .capm => { v with res.cap := 0, cap := { timer := 0, elapsed := 0, timedOut := false },
                                seq.capState := .discharge }
            | .rscan => { v with res.refl := Vector.replicate 16 0x0FFFF, res.reflSt := false, seq.reflIdx := 0 }
            | .edrn ch => { v with res.enc := (if ch.getLsbD 0 then s.res.enc.set 1 0 else s.res.enc.set 0 0) }
            | .swp => { v with res.sw := 0 }
            | .frame => { v with seq.framePhase := .scan, res.refl := Vector.replicate 16 0x0FFFF,
                                 res.reflSt := false, seq.reflIdx := 0 }
            | .abort => { v with seq.adcState := .idle, seq.capState := .idle, seq.reflIdx := 0,
                                 seq.framePhase := .none })

/-- R30: a host write to any register but CMD is ignored, a host read has no side effect, and a number that is not
listed reads 0. -/
def Obligations.OtherHostAccessesChangeNothing : Prop :=
  ∀ (s : State) (n : BitVec 6) (v : Word) (rest : List Event),
    (s.io.events = .hostWrite n v :: rest → n ≠ 0 → step s = .next s.popped) ∧
      (s.io.events = .hostRead n :: rest → step s = .next s.popped) ∧
      (n = 0x0D ∨ n = 0x0E ∨ n = 0x0F ∨ 0x36 ≤ n.toNat → hostRegister s n = 0)

/-- R31, R33: the fields of STATUS (register 0x01) and SEQ (register 0x0C), with the numbers of R11, R13 and R215 that
MODE, ADC_STATE, CAP_STATE, FRAME_PHASE and CAUSE show there. -/
def Obligations.StatusAndSeqLayout : Prop :=
  (∀ s : State,
    let st := hostRegister s 0x01
    let sq := hostRegister s 0x0C
    st.extractLsb' 0 2 = Mode.code s.status.mode ∧ st.getLsbD 2 = s.seq.busy ∧ st.getLsbD 3 = s.status.refused ∧
      st.getLsbD 4 = s.status.aborted ∧ st.getLsbD 5 = s.status.driveEn ∧ st.extractLsb' 6 2 = 0#2 ∧
      st.extractLsb' 8 8 = causeByte s.status.cause ∧ st.extractLsb' 16 16 = 0#16 ∧
      sq.extractLsb' 0 3 = AdcState.code s.seq.adcState ∧ sq.getLsbD 3 = false ∧
      sq.extractLsb' 4 3 = CapState.code s.seq.capState ∧ sq.getLsbD 7 = false ∧
      (sq.extractLsb' 8 5).toNat = s.seq.reflIdx.val ∧ sq.extractLsb' 13 3 = 0#3 ∧
      sq.extractLsb' 16 3 = FramePhase.code s.seq.framePhase ∧ sq.extractLsb' 19 13 = 0#13) ∧
    (Mode.code .unconfigured = 0 ∧ Mode.code .ready = 1 ∧ Mode.code .fatal = 2) ∧
    (AdcState.code .idle = 0 ∧ AdcState.code .assertCs = 1 ∧ AdcState.code .awaitConversion = 2 ∧
      AdcState.code .assertRd = 3 ∧ AdcState.code .deassertRd = 4 ∧ AdcState.code .deassertCs = 5) ∧
    (CapState.code .idle = 0 ∧ CapState.code .discharge = 1 ∧ CapState.code .charge = 2 ∧
      CapState.code .sample = 3 ∧ CapState.code .compute = 4) ∧
    (FramePhase.code .none = 0 ∧ FramePhase.code .scan = 1 ∧ FramePhase.code .drain0 = 2 ∧
      FramePhase.code .drain1 = 3 ∧ FramePhase.code .switches = 4 ∧ FramePhase.code .capacitive = 5 ∧
      FramePhase.code .adc = 6 ∧ FramePhase.code .commit = 7) ∧
    (causeByte none = 0 ∧ causeByte (some .configurationError) = 1 ∧ causeByte (some .invalidPortHandle) = 2 ∧
      causeByte (some .conversionTimeout) = 3 ∧ causeByte (some .channelUnavailable) = 4 ∧
      causeByte (some .contractViolation) = 5 ∧ causeByte (some .wrongMode) = 6 ∧
      causeByte (some .illegalCommand) = 7 ∧ causeByte (some .aborted) = 8)

/-- R30: what the host reads at each number of the register map, zero-extended to 32 bits; STATUS and SEQ are given
field by field in `StatusAndSeqLayout`, and the numbers that are not listed read 0. -/
def Obligations.HostRegisterMap : Prop :=
  ∀ s : State,
    hostRegister s 0x00 = s.seq.cmdLatch ∧ hostRegister s 0x02 = s.status.esticky.setWidth 32 ∧
      hostRegister s 0x03 = s.res.port.setWidth 32 ∧ hostRegister s 0x04 = s.res.adc.setWidth 32 ∧
      hostRegister s 0x05 = s.res.cap.setWidth 32 ∧ hostRegister s 0x06 = (s.res.enc[0]).setWidth 32 ∧
      hostRegister s 0x07 = (s.res.enc[1]).setWidth 32 ∧ hostRegister s 0x08 = s.res.sw.setWidth 32 ∧
      hostRegister s 0x09 = (s.duty[0]).setWidth 32 ∧ hostRegister s 0x0A = (s.duty[1]).setWidth 32 ∧
      hostRegister s 0x0B = (if s.res.reflSt then 1 else 0) ∧
      (∀ k : Fin 16, hostRegister s (BitVec.ofNat 6 (0x10 + k.val)) = (s.res.refl[k]).setWidth 32 ∧
        hostRegister s (BitVec.ofNat 6 (0x20 + k.val)) = (s.bank.refl[k]).setWidth 32) ∧
      hostRegister s 0x30 = (s.bank.enc[0]).setWidth 32 ∧ hostRegister s 0x31 = (s.bank.enc[1]).setWidth 32 ∧
      hostRegister s 0x32 = s.bank.sw.setWidth 32 ∧ hostRegister s 0x33 = s.bank.cap.setWidth 32 ∧
      hostRegister s 0x34 = s.bank.adc.setWidth 32 ∧ hostRegister s 0x35 = s.bank.seq.setWidth 32 ∧
      ∀ n : BitVec 6, n = 0x0D ∨ n = 0x0E ∨ n = 0x0F ∨ 0x36 ≤ n.toNat → hostRegister s n = 0

/-! ### Reset -/

/-- R241: asserting RST puts every piece of state at its reset value; CFG is not state and stays. -/
def Obligations.ResetValues : Prop :=
  ∀ (s : State) (rest : List Event), s.io.events = .rst true :: rest →
    ∃ t, step s = .next t ∧
      t.status = { mode := .unconfigured, driveEn := false, refused := false, aborted := false, cause := none,
                   esticky := 0 } ∧
      t.seq = { busy := false, cmdLatch := 0, framePhase := .none, adcState := .idle, capState := .idle,
                reflIdx := 0 } ∧
      t.adc = { polls := 0, err := false, latch := 0 } ∧ t.cap = { timer := 0, elapsed := 0, timedOut := false } ∧
      (∀ i : Fin 4, t.sw.stable[i] = false ∧ t.sw.cnt[i] = 0) ∧
      (∀ i : Fin 2, t.enc.acc[i] = 0 ∧ t.enc.prev[i] = false ∧ t.duty[i] = 0) ∧ (∀ p, t.latch p = 0) ∧
      t.res.port = 0 ∧ t.res.adc = 0 ∧ t.res.cap = 0 ∧ t.res.sw = 0 ∧ t.res.reflSt = false ∧
      (∀ i : Fin 2, t.res.enc[i] = 0 ∧ t.bank.enc[i] = 0) ∧
      (∀ k : Fin 16, t.res.refl[k] = 0x0FFFF ∧ t.bank.refl[k] = 0x0FFFF) ∧
      t.bank.adc = 0 ∧ t.bank.cap = 0 ∧ t.bank.sw = 0 ∧ t.bank.seq = 0 ∧
      t.cfg = s.cfg ∧ t.io.rst = true

/-- R240: while RST is asserted no agent has a step and CMD writes are ignored; releasing it changes RST alone.
Asserting it keeps the outside, and the encoder line's own level follows the environment meanwhile: the model's choice
(log 5, 10, 11). -/
def Obligations.ResetHoldsEverything : Prop :=
  ∀ s : State,
    (∀ rest, s.io.events = .rst true :: rest →
      ∃ t, step s = .next t ∧ t.io = { s.io with events := rest, rst := true }) ∧
    (∀ rest, s.io.events = .rst false :: rest → step s = .next { s.popped with io.rst := false }) ∧
    (s.io.rst = true →
      (TickNext s → step s = .next s.popped) ∧
        (∀ n v rest, s.io.events = .hostWrite n v :: rest → step s = .next s.popped) ∧
        (∀ i l rest, s.io.events = .encLine i l :: rest →
          step s = .next { s.popped with io.encLine := s.io.encLine.set i l }))

/-! ### NOP and INIT -/

/-- R82: the NOP step changes nothing but BUSY. -/
def Obligations.NopChangesOnlyBusy : Prop :=
  ∀ s : State, s.seq.cmdLatch = encode .nop → exec .nop s = .next { s with seq.busy := false }

/-- R85: the INIT step with a valid configuration. -/
def Obligations.InitWithValidConfig : Prop :=
  ∀ s : State, s.seq.cmdLatch = encode .init → validConfig s.cfg = true → Memory.wf s.out →
    ∃ t, exec .init s = .next t ∧ LatchesDrive s t (outputPins.map fun n => (n, false)) ∧
      (∀ i : Fin 2, t.enc.prev[i] = PinCfg.logical (pinOf s.cfg (.enc i)) s.io.encLine[i] ∧ t.enc.acc[i] = 0) ∧
      t = { s with
        status.mode := .ready, status.driveEn := true, seq.busy := false, duty := Vector.replicate 2 0,
        sw := { stable := Vector.replicate 4 false, cnt := Vector.replicate 4 0 }, enc := t.enc, out := t.out,
        io := s.io.after 2 (outputPins.map (fun n => pinAccess s.cfg n false) ++
          [readAccess t (s.answerAt 0) (pinOf s.cfg (.enc 0)).port,
           readAccess t (s.answerAt 1) (pinOf s.cfg (.enc 1)).port]) }

/-- R85, R217: the INIT step with an invalid configuration is fatal, and no pin is touched. -/
def Obligations.InitWithInvalidConfig : Prop :=
  ∀ s : State, validConfig s.cfg = false →
    exec .init s = .next { s with status.mode := .fatal, status.cause := some .configurationError,
                                  status.esticky := s.status.esticky ||| 2#9, seq.busy := false }

/-! ### PRD, PWR and the port primitives -/

/-- R41, R58: what a port read returns, bit by bit. -/
def Obligations.PortReadPattern : Prop :=
  ∀ (s : State) (levels : Byte) (p b : Nat), b < 8 → validConfig s.cfg = true →
    (isOutputPin s.cfg p b = true → (s.portPattern levels p).getLsbD b = (s.latch p).getLsbD b) ∧
      (∀ i : Fin 2, pinIsAt s.cfg (.enc i) p b = true → (s.portPattern levels p).getLsbD b = s.io.encLine[i]) ∧
      (isOutputPin s.cfg p b = false → (∀ i : Fin 2, pinIsAt s.cfg (.enc i) p b = false) →
        (s.portPattern levels p).getLsbD b = levels.getLsbD b)

/-- R86: the PRD step with a valid handle. -/
def Obligations.PrdReturnsPort : Prop :=
  ∀ (s : State) (p : Byte), s.seq.cmdLatch = encode (.prd p) → p.toNat < s.cfg.nports →
    exec (.prd p) s = .next { s with
      res.port := 1#1 ++ s.portPattern (s.answerAt 0).levels p.toNat, seq.busy := false,
      io := s.io.after 1 [readAccess s (s.answerAt 0) p.toNat] }

/-- R42, R43, R87: the PWR step with a valid handle writes the latch under the mask and nothing else. -/
def Obligations.PwrWritesUnderMask : Prop :=
  ∀ (s : State) (p m v : Byte), s.seq.cmdLatch = encode (.pwr p m v) → p.toNat < s.cfg.nports → Memory.wf s.out →
    ∃ t, exec (.pwr p m v) s = .next t ∧
      t.latch p.toNat &&& m = v &&& m ∧ t.latch p.toNat &&& ~~~m = s.latch p.toNat &&& ~~~m ∧
      (∀ q, q ≠ p.toNat → t.latch q = s.latch q) ∧
      t = { s with out := t.out, seq.busy := false, io := s.io.after 0 [.write p.toNat m v] }

/-- R47, R218: PRD or PWR with a handle outside 0..NPORTS-1 is fatal: the access is not made, every output pin is
de-asserted, the duties are cleared, the core is in FATAL. -/
def Obligations.InvalidHandleIsFatal : Prop :=
  ∀ (s : State) (p : Byte) (i : Instr), (i = .prd p ∨ ∃ m v, i = .pwr p m v) → s.cfg.nports ≤ p.toNat →
    validConfig s.cfg = true → Memory.wf s.out →
    ∃ t, exec i s = .next t ∧ LatchesDrive s t (outputPins.map fun n => (n, false)) ∧
      t = { s with
        status.mode := .fatal, status.cause := some .invalidPortHandle, status.esticky := s.status.esticky ||| 4#9,
        duty := Vector.replicate 2 0, seq.adcState := .idle, seq.capState := .idle, seq.reflIdx := 0,
        seq.framePhase := .none, seq.busy := false, out := t.out,
        io := s.io.after 0 (outputPins.map fun n => pinAccess s.cfg n false) }

/-- R59, pin by pin: with DRIVE_EN 0 no pin is driven; a pin that is no output never is; a PWM pin is asserted for
DUTY of the 255 phases while its gate is; every other output pin shows its latch bit. -/
def Obligations.PwmPinShowsDuty : Prop :=
  ∀ (s : State) (ph : Fin 255),
    (s.status.driveEn = false → ∀ p b, pinLevel s p b ph = none) ∧
      (∀ p b, isOutputPin s.cfg p b = false → pinLevel s p b ph = none) ∧
      (s.status.driveEn = true → validConfig s.cfg = true →
        (∀ i : Fin 2, pinLevel s (pinOf s.cfg (.motorPwm i)).port (pinOf s.cfg (.motorPwm i)).bit ph =
          some (PinCfg.levelOf (pinOf s.cfg (.motorPwm i))
            (s.asserted (.motorPwm i) && decide (ph.val < s.duty[i].toNat)))) ∧
        ∀ n ∈ outputPins, (∀ i : Fin 2, n ≠ .motorPwm i) →
          pinLevel s (pinOf s.cfg n).port (pinOf s.cfg n).bit ph = some (s.latchBit n))

/-! ### ADCS -/

/-- R101: the ASSERT_CS step. -/
def Obligations.AdcAssertsChipSelect : Prop :=
  ∀ s : State, s.seq.adcState = .assertCs → validConfig s.cfg = true → Memory.wf s.out →
    ∃ t, exec .adcs s = .next t ∧ LatchesDrive s t [(.adcCs, true)] ∧
      t = { s with seq.adcState := .awaitConversion, out := t.out,
                   io := s.io.after 0 [pinAccess s.cfg .adcCs true] }

/-- R102, R103, R104, R219: the AWAIT_CONVERSION step: one poll of INT, and its three branches. -/
def Obligations.AdcPollsInt : Prop :=
  ∀ s : State, s.seq.adcState = .awaitConversion → validConfig s.cfg = true →
    let u : State := { s with adc.polls := s.adc.polls + 1,
                              io := s.io.after 1 [readAccess s (s.answerAt 0) (pinOf s.cfg .adcInt).port] }
    exec .adcs s = .next (
      if seesAsserted s.cfg .adcInt (s.answerAt 0) = true then { u with seq.adcState := .assertRd }
      else if s.cfg.adcTimeout ≤ (s.adc.polls + 1).toNat then
        { u with adc.err := true, seq.adcState := .deassertRd, status.cause := some .conversionTimeout,
                 status.esticky := s.status.esticky ||| 8#9 }
      else u)

/-- R105: the ASSERT_RD step: RD is written asserted, then the data bus is read once and latched. -/
def Obligations.AdcLatchesDataUnderRd : Prop :=
  ∀ s : State, s.seq.adcState = .assertRd → validConfig s.cfg = true → Memory.wf s.out →
    ∃ t, exec .adcs s = .next t ∧ LatchesDrive s t [(.adcRd, true)] ∧
      t = { s with adc.latch := (s.answerAt 0).levels, seq.adcState := .deassertRd, out := t.out,
                   io := s.io.after 1 [pinAccess s.cfg .adcRd true,
                     .read s.cfg.adcData.port (s.answerAt 0).levels] }

/-- R106: the DEASSERT_RD step. -/
def Obligations.AdcReleasesRead : Prop :=
  ∀ s : State, s.seq.adcState = .deassertRd → validConfig s.cfg = true → Memory.wf s.out →
    ∃ t, exec .adcs s = .next t ∧ LatchesDrive s t [(.adcRd, false)] ∧
      t = { s with seq.adcState := .deassertCs, out := t.out, io := s.io.after 0 [pinAccess s.cfg .adcRd false] }

/-- R107: the DEASSERT_CS step, of an ADCS or inside a FRAME, releases the converter, writes R_ADC and completes;
completion of an ADCS clears BUSY (inside a FRAME: `CompletionInsideFrame`). -/
def Obligations.AdcCommitsSample : Prop :=
  ∀ s : State, s.seq.adcState = .deassertCs → validConfig s.cfg = true → Memory.wf s.out →
    ∃ t, exec .adcs s = .next (complete t) ∧ LatchesDrive s t [(.adcCs, false)] ∧
      t = { s with res.adc := (if s.adc.err then 0 else 1#1 ++ s.adc.latch), seq.adcState := .idle, out := t.out,
                   io := s.io.after 0 [pinAccess s.cfg .adcCs false] } ∧
      (s.seq.cmdLatch = encode .adcs → complete t = { t with seq.busy := false })

/-- R89, R103, R108: a handshake whose INT is first seen at poll n completes in exactly n + 4 steps with the byte the
one data-bus read returned, after the writes CS, RD, RD, CS in this order. -/
def Obligations.AdcHandshakeSucceeds : Prop :=
  ∀ (s : State) (n : Nat), InFlight s .adcs → s.seq.adcState = .assertCs →
    s.adc = { polls := 0, err := false, latch := 0 } → validConfig s.cfg = true → Memory.wf s.out →
    1 ≤ n → n ≤ s.cfg.adcTimeout →
    (∀ j, j + 1 < n → seesAsserted s.cfg .adcInt (s.answerAt j) = false) →
    seesAsserted s.cfg .adcInt (s.answerAt (n - 1)) = true →
    ∃ (t : State) (polls : List Access), core.run (n + 4) s = .next t ∧ BusyBefore (n + 4) s ∧
      polls.length = n ∧ (∀ a ∈ polls, ∃ x, a = .read (pinOf s.cfg .adcInt).port x) ∧
      LatchesDrive s t [(.adcCs, false), (.adcRd, false)] ∧
      t = { s with
        adc := { polls := BitVec.ofNat 16 n, err := false, latch := (s.answerAt n).levels },
        res.adc := 1#1 ++ (s.answerAt n).levels, seq.adcState := .idle, seq.busy := false, out := t.out,
        io := s.io.after (n + 1) (pinAccess s.cfg .adcCs true :: polls ++
          [pinAccess s.cfg .adcRd true, .read s.cfg.adcData.port (s.answerAt n).levels,
           pinAccess s.cfg .adcRd false, pinAccess s.cfg .adcCs false]) }

/-- R89, R104, R108: a handshake whose INT is never seen ends after exactly ADC_TIMEOUT + 3 steps without a sample,
with the timeout recorded; the writes are CS, RD, CS in this order, with ADC_TIMEOUT polls of INT after the first, and
the data bus is never read. -/
def Obligations.AdcHandshakeTimesOut : Prop :=
  ∀ s : State, InFlight s .adcs → s.seq.adcState = .assertCs → s.adc = { polls := 0, err := false, latch := 0 } →
    validConfig s.cfg = true → Memory.wf s.out →
    (∀ j, j < s.cfg.adcTimeout → seesAsserted s.cfg .adcInt (s.answerAt j) = false) →
    ∃ (t : State) (polls : List Access), core.run (s.cfg.adcTimeout + 3) s = .next t ∧
      BusyBefore (s.cfg.adcTimeout + 3) s ∧
      polls.length = s.cfg.adcTimeout ∧ (∀ a ∈ polls, ∃ x, a = .read (pinOf s.cfg .adcInt).port x) ∧
      (∀ x, .read s.cfg.adcData.port x ∉ polls) ∧ LatchesDrive s t [(.adcCs, false), (.adcRd, false)] ∧
      t = { s with
        adc := { polls := BitVec.ofNat 16 s.cfg.adcTimeout, err := true, latch := 0 }, res.adc := 0,
        seq.adcState := .idle, seq.busy := false, status.cause := some .conversionTimeout,
        status.esticky := s.status.esticky ||| 8#9, out := t.out,
        io := s.io.after s.cfg.adcTimeout (pinAccess s.cfg .adcCs true :: polls ++
          [pinAccess s.cfg .adcRd false, pinAccess s.cfg .adcCs false]) }

/-! ### CAPM -/

/-- R121: the DISCHARGE step: the line is asserted on the first visit; then one settle tick, or CHARGE. -/
def Obligations.CapDischargeSettles : Prop :=
  ∀ s : State, s.seq.capState = .discharge → validConfig s.cfg = true → Memory.wf s.out →
    ∃ t, exec .capm s = .next t ∧
      LatchesDrive s t (if s.cap.timer = 0 then [(.capDischarge, true)] else []) ∧
      t = { s with
        cap.timer := (if s.cap.timer.toNat = s.cfg.capSettle then s.cap.timer else s.cap.timer + 1),
        seq.capState := (if s.cap.timer.toNat = s.cfg.capSettle then .charge else .discharge), out := t.out,
        io := s.io.after 0 (if s.cap.timer = 0 then [pinAccess s.cfg .capDischarge true] else []) }

/-- R123: the CHARGE step releases the discharge line, then asserts the charge line, and times from zero. -/
def Obligations.CapChargeStarts : Prop :=
  ∀ s : State, s.seq.capState = .charge → validConfig s.cfg = true → Memory.wf s.out →
    ∃ t, exec .capm s = .next t ∧ LatchesDrive s t [(.capDischarge, false), (.capCharge, true)] ∧
      t = { s with cap.timer := 0, seq.capState := .sample, out := t.out,
                   io := s.io.after 0 [pinAccess s.cfg .capDischarge false, pinAccess s.cfg .capCharge true] }

/-- R124, R125, R128: the SAMPLE step: one poll, the crossing, the timeout (which records nothing), or one more. -/
def Obligations.CapSamplePolls : Prop :=
  ∀ s : State, s.seq.capState = .sample →
    let u : State := { s with io := s.io.after 1 [analogAccess s.cfg .capSample (s.answerAt 0)] }
    exec .capm s = .next (
      if (s.answerAt 0).ok = true ∧ s.cfg.capVthresh ≤ (s.answerAt 0).value.toNat % 2 ^ s.cfg.analogWidth then
        { u with cap.elapsed := s.cap.timer, seq.capState := .compute }
      else if (s.cap.timer + 1).toNat = s.cfg.capTimeout then
        { u with cap := { timer := s.cap.timer + 1, elapsed := BitVec.ofNat 16 s.cfg.capTimeout, timedOut := true },
                 seq.capState := .compute }
      else { u with cap.timer := s.cap.timer + 1 })

/-- R126, R127: the COMPUTE step, of a CAPM or inside a FRAME, releases the charge line, writes the verdict and
completes; completion of a CAPM clears BUSY (inside a FRAME: `CompletionInsideFrame`). -/
def Obligations.CapComputeGivesVerdict : Prop :=
  ∀ s : State, s.seq.capState = .compute → validConfig s.cfg = true → Memory.wf s.out →
    ∃ t, exec .capm s = .next (complete t) ∧ LatchesDrive s t [(.capCharge, false)] ∧
      t.res.cap.extractLsb' 0 16 = s.cap.elapsed ∧
      (t.res.cap.getLsbD 16 = true ↔ s.cap.timedOut = false ∧ s.cap.elapsed.toNat < s.cfg.capContactT) ∧
      t.res.cap.getLsbD 17 = s.cap.timedOut ∧ t.res.cap.getLsbD 18 = true ∧
      t = { s with res.cap := t.res.cap, seq.capState := .idle, out := t.out,
                   io := s.io.after 0 [pinAccess s.cfg .capCharge false] } ∧
      (s.seq.cmdLatch = encode .capm → complete t = { t with seq.busy := false })

/-- R89, R125, R127, R130: a cycle whose line is first seen crossed at the poll with timer k completes in exactly
CAP_SETTLE + k + 4 steps with elapsed k, contact exactly when k is below CAP_CONTACT_T; the accesses are discharge on,
discharge off, charge on, k + 1 polls of the sample line, charge off, in this order (R212). -/
def Obligations.CapCycleCrosses : Prop :=
  ∀ (s : State) (k : Nat), InFlight s .capm → s.seq.capState = .discharge →
    s.cap = { timer := 0, elapsed := 0, timedOut := false } → validConfig s.cfg = true → Memory.wf s.out →
    k < s.cfg.capTimeout → (∀ j, j < k → answerCrosses s.cfg (s.answerAt j) = false) →
    answerCrosses s.cfg (s.answerAt k) = true →
    ∃ t, core.run (s.cfg.capSettle + k + 4) s = .next t ∧ BusyBefore (s.cfg.capSettle + k + 4) s ∧
      LatchesDrive s t [(.capCharge, false), (.capDischarge, false)] ∧
      t = { s with
        cap := { timer := BitVec.ofNat 16 k, elapsed := BitVec.ofNat 16 k, timedOut := false },
        res.cap := 1#1 ++ 0#1 ++ BitVec.ofBool (decide (k < s.cfg.capContactT)) ++ BitVec.ofNat 16 k,
        seq.capState := .idle, seq.busy := false, out := t.out,
        io := s.io.after (k + 1) ([pinAccess s.cfg .capDischarge true, pinAccess s.cfg .capDischarge false,
          pinAccess s.cfg .capCharge true] ++
          (List.range (k + 1)).map (fun j => analogAccess s.cfg .capSample (s.answerAt j)) ++
          [pinAccess s.cfg .capCharge false]) }

/-- R89, R125, R127, R128, R130: a cycle that never crosses ends after exactly CAP_SETTLE + CAP_TIMEOUT + 3 steps with
the ceiling, no contact, and no cause recorded; the accesses are discharge on, discharge off, charge on, CAP_TIMEOUT
polls of the sample line, charge off, in this order (R212). -/
def Obligations.CapCycleTimesOut : Prop :=
  ∀ s : State, InFlight s .capm → s.seq.capState = .discharge →
    s.cap = { timer := 0, elapsed := 0, timedOut := false } → validConfig s.cfg = true → Memory.wf s.out →
    (∀ j, j < s.cfg.capTimeout → answerCrosses s.cfg (s.answerAt j) = false) →
    ∃ t, core.run (s.cfg.capSettle + s.cfg.capTimeout + 3) s = .next t ∧
      BusyBefore (s.cfg.capSettle + s.cfg.capTimeout + 3) s ∧
      LatchesDrive s t [(.capCharge, false), (.capDischarge, false)] ∧
      t = { s with
        cap := { timer := BitVec.ofNat 16 s.cfg.capTimeout, elapsed := BitVec.ofNat 16 s.cfg.capTimeout,
                 timedOut := true },
        res.cap := 1#1 ++ 1#1 ++ 0#1 ++ BitVec.ofNat 16 s.cfg.capTimeout,
        seq.capState := .idle, seq.busy := false, out := t.out,
        io := s.io.after s.cfg.capTimeout ([pinAccess s.cfg .capDischarge true,
          pinAccess s.cfg .capDischarge false, pinAccess s.cfg .capCharge true] ++
          (List.range s.cfg.capTimeout).map (fun j => analogAccess s.cfg .capSample (s.answerAt j)) ++
          [pinAccess s.cfg .capCharge false]) }

/-! ### RSCAN -/

/-- R141, R142, R220: the scan step, of an RSCAN or inside a FRAME, reads the channel REFL_IDX names; channel 15
completes, and completion of an RSCAN clears BUSY (inside a FRAME: `CompletionInsideFrame`). -/
def Obligations.ScanReadsOneChannel : Prop :=
  ∀ s : State,
    let a := s.answerAt 0
    let k := s.seq.reflIdx
    let t : State := { s with
      res.refl := s.res.refl.set k
        (if a.ok then 1#1 ++ BitVec.ofNat 16 (a.value.toNat % 2 ^ s.cfg.analogWidth) else 0x0FFFF),
      res.reflSt := (if k = 15 then true else s.res.reflSt),
      seq.reflIdx := (if k = 15 then 0 else k + 1),
      status.cause := (if a.ok then s.status.cause else some .channelUnavailable),
      status.esticky := (if a.ok then s.status.esticky else s.status.esticky ||| 16#9),
      io := s.io.after 1 [analogAccess s.cfg (.refl k) a] }
    exec .rscan s = .next (if k = 15 then complete t else t) ∧
      (s.seq.cmdLatch = encode .rscan → complete t = { t with seq.busy := false })

/-- R89, R143, R144: a scan takes exactly 16 steps and leaves in element k what the k-th read answered, in order;
an unavailable channel carries the sentinel. -/
def Obligations.ScanReadsSixteenInOrder : Prop :=
  ∀ s : State, InFlight s .rscan → s.seq.reflIdx = 0 →
    ∃ t, core.run 16 s = .next t ∧ BusyBefore 16 s ∧ t.seq = { s.seq with busy := false } ∧ t.res.reflSt = true ∧
      (∀ k : Fin 16, t.res.refl[k] = reflElement s.cfg (s.answerAt k.val)) ∧
      t.io = s.io.after 16 ((List.finRange 16).map fun k => analogAccess s.cfg (.refl k) (s.answerAt k.val)) ∧
      (∀ k < 16, (s.answerAt k).ok = false → t.status.cause = some .channelUnavailable ∧
        t.status.esticky.getLsbD 4 = true) ∧
      ((∀ k < 16, (s.answerAt k).ok = true) → t.status = s.status)

/-! ### The encoders -/

/-- R151, R152, R153: a level change of an encoder line in READY is one step of its agent: the tick if the edge
counts, saturating at 32767, and the new previous level; a level that does not change is none. The schedule and the
line's level are the model's inputs (log 1, 5). -/
def Obligations.EdgeIsCaptured : Prop :=
  ∀ (s : State) (i : Fin 2) (l : Level) (rest : List Event), s.io.events = .encLine i l :: rest →
    s.status.mode = .ready → s.io.rst = false →
    let n := PinCfg.logical (pinOf s.cfg (.enc i)) l
    let counts := n != s.enc.prev[i] && (s.cfg.encEdge == .both || s.cfg.encEdge == (if n then .rising else .falling))
    step s = .next { s.popped with
      io.encLine := s.io.encLine.set i l,
      enc.acc := (if counts && decide (s.enc.acc[i].toNat < 32767) then s.enc.acc.set i (s.enc.acc[i] + 1)
        else if counts then s.enc.acc.set i 32767 else s.enc.acc),
      enc.prev := s.enc.prev.set i n }

/-- R150, R258: outside READY a level change of an encoder line is not counted: only the line changes. -/
def Obligations.EdgeOutsideReadyIsLost : Prop :=
  ∀ (s : State) (i : Fin 2) (l : Level) (rest : List Event), s.io.events = .encLine i l :: rest →
    s.status.mode ≠ .ready → step s = .next { s.popped with io.encLine := s.io.encLine.set i l }

/-- R151, R154: between two drains, without saturation, the accumulator grows by the number of counted level changes of
its line: over any schedule of ticks, host steps and changes of both lines in which MODE stays READY and no step drains
the line; and over a schedule of that line's changes alone, where nothing else changes either. -/
def Obligations.TicksCountEdges : Prop :=
  (∀ (s : State) (i : Fin 2) (es rest : List Event), Invariant s → s.io.events = es ++ rest →
    (∀ k u, k ≤ es.length → core.run k s = .next u → u.status.mode = .ready) →
    (∀ k u, k < es.length → core.run k s = .next u → ¬ DrainsNext u i) →
    s.enc.acc[i].toNat + countedEdges s.cfg s.enc.prev[i] (lineLevels s.cfg i es) ≤ 32767 →
    ∃ t, core.run es.length s = .next t ∧ t.io.events = rest ∧
      t.enc.acc[i].toNat = s.enc.acc[i].toNat + countedEdges s.cfg s.enc.prev[i] (lineLevels s.cfg i es) ∧
      t.enc.prev[i] = (lineLevels s.cfg i es).getLastD s.enc.prev[i]) ∧
  ∀ (s : State) (i : Fin 2) (levels : List Level), s.status.mode = .ready → s.io.rst = false →
    s.io.events = levels.map (.encLine i) →
    s.enc.acc[i].toNat + countedEdges s.cfg s.enc.prev[i]
      (levels.map (PinCfg.logical (pinOf s.cfg (.enc i)))) ≤ 32767 →
    ∃ t, core.run levels.length s = .next t ∧
      t.enc.acc[i].toNat = s.enc.acc[i].toNat + countedEdges s.cfg s.enc.prev[i]
        (levels.map (PinCfg.logical (pinOf s.cfg (.enc i)))) ∧
      (∀ j, j ≠ i → t.enc.acc[j] = s.enc.acc[j] ∧ t.enc.prev[j] = s.enc.prev[j]) ∧
      t = { s with enc := t.enc, io := { s.io with events := [], encLine := t.io.encLine } }

/-- R155: the drain step, of an EDRN or inside a FRAME, reads and clears the accumulator in one step, publishes the
delta and completes; completion of an EDRN clears BUSY (inside a FRAME: `CompletionInsideFrame`). -/
def Obligations.DrainReadsAndClears : Prop :=
  ∀ (s : State) (c : Fin 2),
    let i : Instr := .edrn (BitVec.ofNat 8 c.val)
    let t : State := { s with enc.acc := s.enc.acc.set c 0, res.enc := s.res.enc.set c (1#1 ++ s.enc.acc[c]) }
    exec i s = .next (complete t) ∧ (s.seq.cmdLatch = encode i → complete t = { t with seq.busy := false })

/-! ### SWP -/

/-- R186, R187, R220: the poll step, of an SWP or inside a FRAME, switch by switch; completion of an SWP clears BUSY
(inside a FRAME: `CompletionInsideFrame`). -/
def Obligations.SwitchPollDebounces : Prop :=
  ∀ s : State, validConfig s.cfg = true →
    ∃ t, exec .swp s = .next (complete t) ∧
      (∀ i : Fin 4,
        let a := s.answerAt i.val
        let raw := seesAsserted s.cfg (.sw i) a
        let differs := a.ok && raw != s.sw.stable[i]
        t.sw.stable[i] = (if differs && decide (s.cfg.swDebounce ≤ s.sw.cnt[i].toNat + 1) then raw
          else s.sw.stable[i]) ∧
        t.sw.cnt[i] = (if differs && decide (s.sw.cnt[i].toNat + 1 < s.cfg.swDebounce) then s.sw.cnt[i] + 1
          else 0) ∧
        t.res.sw.getLsbD i.val = t.sw.stable[i] ∧ t.res.sw.getLsbD (4 + i.val) = a.ok) ∧
      t.res.sw.getLsbD 8 = true ∧
      t = { s with
        sw := t.sw, res.sw := t.res.sw,
        status.cause := (if ∀ i : Fin 4, (s.answerAt i.val).ok = true then s.status.cause
          else some .channelUnavailable),
        status.esticky := (if ∀ i : Fin 4, (s.answerAt i.val).ok = true then s.status.esticky
          else s.status.esticky ||| 16#9),
        io := s.io.after 4 ((List.finRange 4).map fun i =>
          readAccess s (s.answerAt i.val) (pinOf s.cfg (.sw i)).port) } ∧
      (s.seq.cmdLatch = encode .swp → complete t = { t with seq.busy := false })

/-- R190 (a), (b), N = SW_DEBOUNCE. One debouncer: fewer than N consecutive polls of disagreement change nothing that is
reported, and an agreeing poll forgets them; the N-th reports the raw level, and further polls of it change nothing.
And over the polls that SWP makes, of a switch readable at each of them, with the debouncers and CFG left alone between
them: fewer than N disagreeing polls with an agreeing one after them leave the reported state as it was throughout;
while the raw level holds, it is reported from the N-th poll on. -/
def Obligations.DebounceNeedsFullRun : Prop :=
  (∀ (s : State) (i : Fin 4), s.sw.cnt[i] = 0 → 1 ≤ s.cfg.swDebounce → s.cfg.swDebounce ≤ 255 →
    let differ := debounce i (!s.sw.stable[i])
    (∀ k, k < s.cfg.swDebounce → ((differ^[k]) s).sw.stable = s.sw.stable ∧
        ((differ^[k]) s).sw.cnt[i].toNat = k ∧ debounce i s.sw.stable[i] ((differ^[k]) s) = s) ∧
      ((differ^[s.cfg.swDebounce]) s).sw.stable = s.sw.stable.set i (!s.sw.stable[i]) ∧
      ((differ^[s.cfg.swDebounce]) s).sw.cnt = s.sw.cnt ∧
      ∀ m, (differ^[s.cfg.swDebounce + m]) s = (differ^[s.cfg.swDebounce]) s) ∧
  (∀ (f : Nat → State) (i : Fin 4) (n : Nat), (f 0).sw.cnt[i] = 0 → validConfig (f 0).cfg = true →
    n < (f 0).cfg.swDebounce →
    PollsSee f i (n + 1) (fun k => if k < n then !(f 0).sw.stable[i] else (f 0).sw.stable[i]) →
    (∀ k, k ≤ n + 1 → (f k).sw.stable[i] = (f 0).sw.stable[i]) ∧ (f (n + 1)).sw.cnt[i] = 0) ∧
  ∀ (f : Nat → State) (i : Fin 4) (m : Nat), (f 0).sw.cnt[i] = 0 → validConfig (f 0).cfg = true →
    PollsSee f i m (fun _ => !(f 0).sw.stable[i]) →
    ∀ k, k ≤ m →
      (f k).sw.stable[i] = if k < (f 0).cfg.swDebounce then (f 0).sw.stable[i] else !(f 0).sw.stable[i]

/-! ### MSET and RSET -/

/-- R166, R168, R169: MSET with a nonzero speed. -/
def Obligations.MotorDrives : Prop :=
  ∀ (s : State) (c : Fin 2) (v : BitVec 16), v ≠ 0 → s.seq.cmdLatch = encode (.mset (BitVec.ofNat 8 c.val) v) →
    validConfig s.cfg = true → Memory.wf s.out →
    ∃ t, exec (.mset (BitVec.ofNat 8 c.val) v) s = .next t ∧
      LatchesDrive s t [(.motorDir c, decide (v.toInt < 0)), (.motorEn c, true), (.motorPwm c, true)] ∧
      t.duty[c].toNat = min v.toInt.natAbs 255 ∧ (∀ d, d ≠ c → t.duty[d] = s.duty[d]) ∧
      t = { s with duty := t.duty, seq.busy := false, out := t.out,
                   io := s.io.after 0 [pinAccess s.cfg (.motorDir c) (decide (v.toInt < 0)),
                     pinAccess s.cfg (.motorEn c) true, pinAccess s.cfg (.motorPwm c) true] }

/-- R167: MSET with speed zero: gate off, duty cleared, the enable line by the idle policy, the direction kept. -/
def Obligations.MotorStops : Prop :=
  ∀ (s : State) (c : Fin 2), s.seq.cmdLatch = encode (.mset (BitVec.ofNat 8 c.val) 0) →
    validConfig s.cfg = true → Memory.wf s.out →
    ∃ t, exec (.mset (BitVec.ofNat 8 c.val) 0) s = .next t ∧
      LatchesDrive s t [(.motorPwm c, false), (.motorEn c, s.cfg.motorIdleEn == 1)] ∧
      t = { s with duty := s.duty.set c 0, seq.busy := false, out := t.out,
                   io := s.io.after 0 [pinAccess s.cfg (.motorPwm c) false,
                     pinAccess s.cfg (.motorEn c) (s.cfg.motorIdleEn == 1)] }

/-- R168: the clamp law, for every speed, with the magnitude of -32768 being 32768. -/
def Obligations.DutyClampsMagnitude : Prop :=
  (∀ v : BitVec 16, (abs17 v).toNat = v.toInt.natAbs ∧ (clampDuty v).toNat = min v.toInt.natAbs 255) ∧
    (abs17 0x8000).toNat = 32768 ∧ clampDuty 0x8000 = 255 ∧ clampDuty 0xFF9C = 100 ∧ clampDuty 256 = 255

/-- R170: RSET drives the relay's line to the commanded state. -/
def Obligations.RelayFollowsCommand : Prop :=
  ∀ (s : State) (c : Fin 2) (on : Bool),
    let i : Instr := .rset (BitVec.ofNat 8 c.val) (if on then 1 else 0)
    s.seq.cmdLatch = encode i → validConfig s.cfg = true → Memory.wf s.out →
    ∃ t, exec i s = .next t ∧ LatchesDrive s t [(.relay c, on)] ∧
      t = { s with seq.busy := false, out := t.out, io := s.io.after 0 [pinAccess s.cfg (.relay c) on] }

/-! ### FRAME and ABORT -/

/-- R196: in each phase but the commit a FRAME takes exactly the step of the single command; the channel of a drain is
the phase's. -/
def Obligations.FramePhaseRunsSubcommand : Prop :=
  ∀ s : State,
    (s.seq.framePhase = .scan → exec .frame s = exec .rscan s) ∧
      (s.seq.framePhase = .drain0 → exec .frame s = exec (.edrn 0) s) ∧
      (s.seq.framePhase = .drain1 → exec .frame s = exec (.edrn 1) s) ∧
      (s.seq.framePhase = .switches → exec .frame s = exec .swp s) ∧
      (s.seq.framePhase = .capacitive → exec .frame s = exec .capm s) ∧
      (s.seq.framePhase = .adc → exec .frame s = exec .adcs s)

/-- R81, R196: a completion inside a FRAME moves to the next phase with that phase's accept actions; elsewhere it
clears BUSY. -/
def Obligations.CompletionInsideFrame : Prop :=
  ∀ (s : State) (i : Instr), s.seq.cmdLatch = encode i →
    (i ≠ .frame → complete s = { s with seq.busy := false }) ∧
      (i = .frame →
        (s.seq.framePhase = .scan →
          complete s = { s with seq.framePhase := .drain0, res.enc := s.res.enc.set 0 0 }) ∧
        (s.seq.framePhase = .drain0 →
          complete s = { s with seq.framePhase := .drain1, res.enc := s.res.enc.set 1 0 }) ∧
        (s.seq.framePhase = .drain1 → complete s = { s with seq.framePhase := .switches, res.sw := 0 }) ∧
        (s.seq.framePhase = .switches →
          complete s = { s with seq.framePhase := .capacitive, seq.capState := .discharge, res.cap := 0,
                                cap := { timer := 0, elapsed := 0, timedOut := false } }) ∧
        (s.seq.framePhase = .capacitive →
          complete s = { s with seq.framePhase := .adc, seq.adcState := .assertCs, res.adc := 0,
                                adc := { polls := 0, err := false, latch := 0 } }) ∧
        (s.seq.framePhase = .adc → complete s = { s with seq.framePhase := .commit }))

/-- R203: the commit step: the whole bank in one step, no bus access. -/
def Obligations.CommitPublishesFrame : Prop :=
  ∀ s : State, s.seq.framePhase = .commit →
    ∃ t, exec .frame s = .next t ∧
      t.bank.refl = s.res.refl ∧ t.bank.enc = s.res.enc ∧ t.bank.sw = s.res.sw ∧ t.bank.cap = s.res.cap ∧
      t.bank.adc = s.res.adc ∧ t.bank.seq.getLsbD 16 = true ∧
      (t.bank.seq.extractLsb' 0 16).toNat = ((s.bank.seq.extractLsb' 0 16).toNat + 1) % 65536 ∧
      t = { s with bank := t.bank, seq.framePhase := .none, seq.busy := false }

/-- R199, R204: a FRAME with nothing else pending reaches its commit, whatever the environment answers, and publishes
what the result registers hold; both accumulators were drained, no motor register changed, and the lines of both
protocols are released. It commits with its n-th step and not before; the bounds of n are the sums of R89's counts of
the single commands, R89's own range for a FRAME being one step narrower at each end (log 22). -/
def Obligations.FrameAlwaysCommits : Prop :=
  ∀ s : State, InFlight s .frame → s.seq.framePhase = .scan → s.seq.reflIdx = 0 → s.seq.adcState = .idle →
    s.seq.capState = .idle → validConfig s.cfg = true → Memory.wf s.out →
    ∃ (n : Nat) (t : State), s.cfg.capSettle + 28 ≤ n ∧
      n ≤ s.cfg.capSettle + s.cfg.capTimeout + s.cfg.adcTimeout + 27 ∧ core.run n s = .next t ∧
      BusyBefore n s ∧ t.seq = { s.seq with busy := false, framePhase := .none } ∧
      t.bank = { refl := t.res.refl, enc := t.res.enc, sw := t.res.sw, cap := t.res.cap, adc := t.res.adc,
                 seq := 1#1 ++ (s.bank.seq.extractLsb' 0 16 + 1) } ∧
      (∀ i : Fin 2, t.res.enc[i] = 1#1 ++ s.enc.acc[i] ∧ t.enc.acc[i] = 0) ∧
      t.res.reflSt = true ∧ t.res.sw.getLsbD 8 = true ∧ t.res.cap.getLsbD 18 = true ∧
      (t.res.adc.getLsbD 8 = true ↔ t.adc.err = false) ∧ t.duty = s.duty ∧ t.status.mode = s.status.mode ∧
      LatchesDrive s t [(.adcCs, false), (.adcRd, false), (.capCharge, false), (.capDischarge, false)]

/-- R207, R224: the ABORT step releases the four lines in order, sets ABORTED and records cause 8; motors, relays,
results and the frame bank stay. -/
def Obligations.AbortReleasesLines : Prop :=
  ∀ s : State, s.seq.cmdLatch = encode .abort → validConfig s.cfg = true → Memory.wf s.out →
    ∃ t, exec .abort s = .next t ∧
      LatchesDrive s t [(.adcRd, false), (.adcCs, false), (.capDischarge, false), (.capCharge, false)] ∧
      t = { s with
        status.aborted := true, status.cause := some .aborted, status.esticky := s.status.esticky ||| 256#9,
        seq.busy := false, out := t.out,
        io := s.io.after 0 [pinAccess s.cfg .adcRd false, pinAccess s.cfg .adcCs false,
          pinAccess s.cfg .capDischarge false, pinAccess s.cfg .capCharge false] }

/-! ### The whole machine -/

/-- The invariant of Safety.lean is kept by every step (R14, R21, R22, R32, R36, R198 among it). -/
def Obligations.StepKeepsInvariant : Prop :=
  ∀ s t : State, Invariant s → step s = .next t → Invariant t

/-- The invariant and the pin invariant hold after reset, for every configuration and every outside. -/
def Obligations.ResetMeetsInvariant : Prop :=
  (Invariant State.reset ∧ PinInv State.reset ∧ CycleLines State.reset) ∧
    ∀ (c : Config) (w : World), Invariant (State.resetWith c w) ∧ PinInv (State.resetWith c w) ∧
      CycleLines (State.resetWith c w)

/-- R210, 93 U11: from a state of the invariant the model's step answers a next state: no reachable position is one from
which no rule gives a transition (log 7). That an idle or FATAL core, to which R88 gives no step, answers the tick
itself is the model's (log 6). -/
def Obligations.StepNeverStops : Prop :=
  ∀ s : State, Invariant s → ∃ t, step s = .next t

/-- R35: the pin invariant is kept by every step that is not a PWR onto one of the named pins. -/
def Obligations.StepKeepsPinInvariant : Prop :=
  ∀ s t : State, Invariant s → PinInv s → CycleLines s → ¬ PwrTouchesGuarded s → step s = .next t →
    PinInv t ∧ CycleLines t

/-- R88, R89: no operation blocks: from every state of the invariant with a command in flight and nothing else pending,
the command has completed after at most CAP_SETTLE + CAP_TIMEOUT + ADC_TIMEOUT + 27 steps (the sum of R89's counts of
the commands a FRAME consists of; log 22). -/
def Obligations.EveryCommandCompletes : Prop :=
  ∀ s : State, Invariant s → s.io.events = [] → s.seq.busy = true →
    ∃ (n : Nat) (t : State), n ≤ s.cfg.capSettle + s.cfg.capTimeout + s.cfg.adcTimeout + 27 ∧
      core.run n s = .next t ∧ t.seq.busy = false

/-- R210, R11: the only changes of MODE and DRIVE_EN: reset, the INIT step, a handle out of range in READY. -/
def Obligations.ModeTransitions : Prop :=
  ∀ s t : State, Invariant s → step s = .next t →
    (t.status.mode = s.status.mode ∧ t.status.driveEn = s.status.driveEn) ∨
      (s.io.events.head? = some (.rst true) ∧ t.status.mode = .unconfigured ∧ t.status.driveEn = false) ∨
      (s.status.mode = .unconfigured ∧ RunsNext s .init ∧ validConfig s.cfg = true ∧ t.status.mode = .ready ∧
        t.status.driveEn = true) ∨
      (s.status.mode = .unconfigured ∧ RunsNext s .init ∧ validConfig s.cfg = false ∧ t.status.mode = .fatal ∧
        t.status.driveEn = false) ∨
      (s.status.mode = .ready ∧ t.status.mode = .fatal ∧ t.status.driveEn = true ∧
        ∃ p : Byte, s.cfg.nports ≤ p.toNat ∧ (RunsNext s (.prd p) ∨ ∃ m v, RunsNext s (.pwr p m v)))

/-- R32: no step but reset clears a sticky bit. -/
def Obligations.StickyBitsStay : Prop :=
  ∀ s t : State, step s = .next t → s.io.events.head? ≠ some (.rst true) →
    ∀ b, s.status.esticky.getLsbD b = true → t.status.esticky.getLsbD b = true

/-- R29: the frame bank is written only by the commit step of FRAME, and by reset. -/
def Obligations.BankChangesOnlyAtCommit : Prop :=
  ∀ s t : State, step s = .next t → t.bank ≠ s.bank →
    s.io.events.head? = some (.rst true) ∨ (RunsNext s .frame ∧ s.seq.framePhase = .commit)

/-- R5, R20, R19, R257: CFG is written by no step; the encoder registers only by the capture agents, a drain, INIT and
reset; the duties only by MSET, INIT, a fatal handle and reset. -/
def Obligations.RegistersHaveNamedWriters : Prop :=
  ∀ s t : State, step s = .next t →
    t.cfg = s.cfg ∧
      (t.enc ≠ s.enc → s.io.events.head? = some (.rst true) ∨
        (∃ i l, s.io.events.head? = some (.encLine i l)) ∨ RunsNext s .init ∨ (∃ ch, RunsNext s (.edrn ch)) ∨
        (RunsNext s .frame ∧ (s.seq.framePhase = .drain0 ∨ s.seq.framePhase = .drain1))) ∧
      (t.duty ≠ s.duty → s.io.events.head? = some (.rst true) ∨ RunsNext s .init ∨
        (∃ ch v, RunsNext s (.mset ch v)) ∨
        ∃ p : Byte, s.cfg.nports ≤ p.toNat ∧ (RunsNext s (.prd p) ∨ ∃ m v, RunsNext s (.pwr p m v)))

/-- The history of accesses is the model's own field and reset keeps it (log 10): every access stays in it, and only a
tick of a running sequencer adds one (R49: the sequencer is the only user of PortBus). -/
def Obligations.HistoryOnlyGrows : Prop :=
  ∀ s t : State, step s = .next t →
    s.io.trace <+: t.io.trace ∧ (t.io.trace ≠ s.io.trace → TickNext s ∧ s.sequencerRuns = true)
end

