-- ==== Sys2Proof/Laws/Memory.lean ====
section
/-! SUPPORT. The laws of the port latches: read after write, and the canonical form. -/

namespace Sys2Proof.Machine

open Sys2Proof

theorem Memory.read_nil (p : Nat) : Memory.read [] p = Memory.unlisted := rfl

theorem Memory.wf_nil : Memory.wf [] := ⟨List.Pairwise.nil, by simp⟩

/-- A latch below every listed port holds the unlisted content. -/
theorem Memory.read_below (m : Memory) (p : Nat) (h : ∀ c ∈ m, p < c.1) : Memory.read m p = Memory.unlisted := by
  induction m with
  | nil => rfl
  | cons c rest ih =>
    obtain ⟨q, x⟩ := c
    have hq : p < q := h (q, x) (by simp)
    have hne : q ≠ p := by omega
    simp only [Memory.read, if_neg hne]
    exact ih fun c hc => h c (by simp [hc])

theorem Memory.wf_tail {c : Host.Cell} {rest : Memory} (h : Memory.wf (c :: rest)) : Memory.wf rest :=
  ⟨(List.pairwise_cons.mp h.1).2, fun d hd => h.2 d (by simp [hd])⟩

theorem Memory.wf_head_lt {c : Host.Cell} {rest : Memory} (h : Memory.wf (c :: rest)) : ∀ d ∈ rest, c.1 < d.1 :=
  (List.pairwise_cons.mp h.1).1

/-- Reading a cell put in front of cells with higher ports. -/
theorem Memory.read_put (p : Nat) (v : Byte) (m : Memory) (h : ∀ c ∈ m, p < c.1) (q : Nat) :
    Memory.read (Memory.put p v m) q = if q = p then v else Memory.read m q := by
  unfold Memory.put
  by_cases hv : v = Memory.unlisted
  · rw [if_pos hv]
    by_cases hq : q = p
    · subst hq; rw [if_pos rfl, hv, Memory.read_below m q h]
    · rw [if_neg hq]
  · rw [if_neg hv]
    by_cases hq : q = p
    · simp [Memory.read, hq]
    · simp [Memory.read, hq, Ne.symm hq]

/-- Read after write: the written latch holds the value, every other latch what it held. -/
theorem Memory.read_write (m : Memory) (h : Memory.wf m) (p : Nat) (v : Byte) (q : Nat) :
    Memory.read (Memory.write m p v) q = if q = p then v else Memory.read m q := by
  induction m with
  | nil => exact Memory.read_put p v [] (by simp) q
  | cons c rest ih =>
    obtain ⟨r, x⟩ := c
    have hlt := Memory.wf_head_lt h
    unfold Memory.write
    by_cases h1 : p < r
    · rw [if_pos h1]
      refine Memory.read_put p v _ (fun c hc => ?_) q
      rcases List.mem_cons.mp hc with rfl | hc
      · exact h1
      · exact lt_trans h1 (hlt c hc)
    · rw [if_neg h1]
      by_cases h2 : p = r
      · subst h2
        rw [if_pos rfl, Memory.read_put p v rest hlt]
        by_cases hq : q = p
        · simp [hq]
        · simp [hq, Memory.read, Ne.symm hq]
      · rw [if_neg h2]
        by_cases hq : r = q
        · subst hq
          simp [Memory.read, Ne.symm h2]
        · simp only [Memory.read, if_neg hq]
          exact ih (Memory.wf_tail h)

/-- Every cell after a write is the written one or was there before. -/
theorem Memory.mem_write (m : Memory) (p : Nat) (v : Byte) (c : Host.Cell) (h : c ∈ Memory.write m p v) :
    (c = (p, v) ∧ v ≠ Memory.unlisted) ∨ c ∈ m := by
  have hput : ∀ l : Memory, c ∈ Memory.put p v l → (c = (p, v) ∧ v ≠ Memory.unlisted) ∨ c ∈ l := by
    intro l hl
    unfold Memory.put at hl
    split at hl
    · exact .inr hl
    · rename_i hv
      rcases List.mem_cons.mp hl with rfl | hl
      · exact .inl ⟨rfl, hv⟩
      · exact .inr hl
  induction m with
  | nil => exact hput [] h
  | cons d rest ih =>
    obtain ⟨r, x⟩ := d
    unfold Memory.write at h
    split at h
    · exact hput _ h
    · split at h
      · rcases hput _ h with hc | hc
        · exact .inl hc
        · exact .inr (by simp [hc])
      · rcases List.mem_cons.mp h with rfl | h
        · exact .inr (by simp)
        · rcases ih h with hc | hc
          · exact .inl hc
          · exact .inr (by simp [hc])

/-- Putting a cell in front of cells with higher ports keeps the canonical form. -/
theorem Memory.wf_put (p : Nat) (v : Byte) (m : Memory) (hm : Memory.wf m) (h : ∀ c ∈ m, p < c.1) :
    Memory.wf (Memory.put p v m) := by
  unfold Memory.put
  split
  · exact hm
  · rename_i hv
    refine ⟨List.pairwise_cons.mpr ⟨h, hm.1⟩, fun c hc => ?_⟩
    rcases List.mem_cons.mp hc with rfl | hc
    · exact hv
    · exact hm.2 c hc

/-- A write keeps the canonical form. -/
theorem Memory.wf_write (m : Memory) (h : Memory.wf m) (p : Nat) (v : Byte) : Memory.wf (Memory.write m p v) := by
  induction m with
  | nil => exact Memory.wf_put p v [] Memory.wf_nil (by simp)
  | cons c rest ih =>
    obtain ⟨r, x⟩ := c
    have hlt := Memory.wf_head_lt h
    unfold Memory.write
    by_cases h1 : p < r
    · rw [if_pos h1]
      refine Memory.wf_put p v _ h fun c hc => ?_
      rcases List.mem_cons.mp hc with rfl | hc
      · exact h1
      · exact lt_trans h1 (hlt c hc)
    · rw [if_neg h1]
      by_cases h2 : p = r
      · rw [if_pos h2]
        exact Memory.wf_put p v rest (Memory.wf_tail h) (fun c hc => h2 ▸ hlt c hc)
      · rw [if_neg h2]
        have hrest := ih (Memory.wf_tail h)
        refine ⟨List.pairwise_cons.mpr ⟨fun c hc => ?_, hrest.1⟩, fun c hc => ?_⟩
        · rcases Memory.mem_write rest p v c hc with ⟨rfl, _⟩ | hc
          · show r < p
            omega
          · exact hlt c hc
        · rcases List.mem_cons.mp hc with rfl | hc
          · exact h.2 _ (by simp)
          · exact hrest.2 c hc

/-- The mask property (R43): bits outside the mask keep their value. -/
theorem maskedWrite_outside (old m v : Byte) : maskedWrite old m v &&& ~~~m = old &&& ~~~m := by
  apply BitVec.eq_of_getLsbD_eq
  intro i hi
  simp only [maskedWrite, BitVec.getLsbD_and, BitVec.getLsbD_or, BitVec.getLsbD_not, hi, decide_true, Bool.true_and]
  cases m.getLsbD i <;> cases v.getLsbD i <;> cases old.getLsbD i <;> rfl

/-- The mask property (R43): bits inside the mask take the value's. -/
theorem maskedWrite_inside (old m v : Byte) : maskedWrite old m v &&& m = v &&& m := by
  apply BitVec.eq_of_getLsbD_eq
  intro i hi
  simp only [maskedWrite, BitVec.getLsbD_and, BitVec.getLsbD_or, BitVec.getLsbD_not, hi, decide_true, Bool.true_and]
  cases m.getLsbD i <;> cases v.getLsbD i <;> cases old.getLsbD i <;> rfl

/-- A masked write, bit by bit. -/
theorem maskedWrite_bit (old m v : Byte) (b : Nat) :
    (maskedWrite old m v).getLsbD b = if m.getLsbD b then v.getLsbD b else old.getLsbD b := by
  by_cases hb : b < 8
  · simp only [maskedWrite, BitVec.getLsbD_and, BitVec.getLsbD_or, BitVec.getLsbD_not, hb, decide_true, Bool.true_and]
    cases m.getLsbD b <;> cases v.getLsbD b <;> cases old.getLsbD b <;> rfl
  · rw [BitVec.getLsbD_of_ge _ _ (by omega), BitVec.getLsbD_of_ge _ _ (by omega), BitVec.getLsbD_of_ge _ _ (by omega),
      BitVec.getLsbD_of_ge _ _ (by omega)]
    rfl

end Sys2Proof.Machine
end

