-- ==== Sys2Proof/Laws/State.lean ====
section
/-! SUPPORT. What each shared operation does to each field of the state, one lemma per field, so that no proof has to
unfold an operation to see that it leaves a field alone. -/

namespace Sys2Proof.Machine

open Sys2Proof

/-! `logAccess` -/

@[simp] theorem logAccess_cfg (a : Access) (s : State) : (logAccess a s).cfg = s.cfg := rfl
@[simp] theorem logAccess_status (a : Access) (s : State) : (logAccess a s).status = s.status := rfl
@[simp] theorem logAccess_seq (a : Access) (s : State) : (logAccess a s).seq = s.seq := rfl
@[simp] theorem logAccess_adc (a : Access) (s : State) : (logAccess a s).adc = s.adc := rfl
@[simp] theorem logAccess_cap (a : Access) (s : State) : (logAccess a s).cap = s.cap := rfl
@[simp] theorem logAccess_sw (a : Access) (s : State) : (logAccess a s).sw = s.sw := rfl
@[simp] theorem logAccess_enc (a : Access) (s : State) : (logAccess a s).enc = s.enc := rfl
@[simp] theorem logAccess_duty (a : Access) (s : State) : (logAccess a s).duty = s.duty := rfl
@[simp] theorem logAccess_out (a : Access) (s : State) : (logAccess a s).out = s.out := rfl
@[simp] theorem logAccess_res (a : Access) (s : State) : (logAccess a s).res = s.res := rfl
@[simp] theorem logAccess_bank (a : Access) (s : State) : (logAccess a s).bank = s.bank := rfl
@[simp] theorem logAccess_io (a : Access) (s : State) : (logAccess a s).io = { s.io with trace := s.io.trace ++ [a] } := rfl

/-! `takeAnswer` -/

@[simp] theorem takeAnswer_cfg (s : State) : (takeAnswer s).cfg = s.cfg := rfl
@[simp] theorem takeAnswer_status (s : State) : (takeAnswer s).status = s.status := rfl
@[simp] theorem takeAnswer_seq (s : State) : (takeAnswer s).seq = s.seq := rfl
@[simp] theorem takeAnswer_adc (s : State) : (takeAnswer s).adc = s.adc := rfl
@[simp] theorem takeAnswer_cap (s : State) : (takeAnswer s).cap = s.cap := rfl
@[simp] theorem takeAnswer_sw (s : State) : (takeAnswer s).sw = s.sw := rfl
@[simp] theorem takeAnswer_enc (s : State) : (takeAnswer s).enc = s.enc := rfl
@[simp] theorem takeAnswer_duty (s : State) : (takeAnswer s).duty = s.duty := rfl
@[simp] theorem takeAnswer_out (s : State) : (takeAnswer s).out = s.out := rfl
@[simp] theorem takeAnswer_res (s : State) : (takeAnswer s).res = s.res := rfl
@[simp] theorem takeAnswer_bank (s : State) : (takeAnswer s).bank = s.bank := rfl
@[simp] theorem takeAnswer_io (s : State) : (takeAnswer s).io = { s.io with answers := s.io.answers.tail, reads := s.io.reads + 1 } := rfl

/-! `record` -/

@[simp] theorem record_cfg (c : Cause) (s : State) : (record c s).cfg = s.cfg := rfl
@[simp] theorem record_status (c : Cause) (s : State) : (record c s).status = { s.status with cause := some c, esticky := stickyWith s.status.esticky c } := rfl
@[simp] theorem record_seq (c : Cause) (s : State) : (record c s).seq = s.seq := rfl
@[simp] theorem record_adc (c : Cause) (s : State) : (record c s).adc = s.adc := rfl
@[simp] theorem record_cap (c : Cause) (s : State) : (record c s).cap = s.cap := rfl
@[simp] theorem record_sw (c : Cause) (s : State) : (record c s).sw = s.sw := rfl
@[simp] theorem record_enc (c : Cause) (s : State) : (record c s).enc = s.enc := rfl
@[simp] theorem record_duty (c : Cause) (s : State) : (record c s).duty = s.duty := rfl
@[simp] theorem record_out (c : Cause) (s : State) : (record c s).out = s.out := rfl
@[simp] theorem record_res (c : Cause) (s : State) : (record c s).res = s.res := rfl
@[simp] theorem record_bank (c : Cause) (s : State) : (record c s).bank = s.bank := rfl
@[simp] theorem record_io (c : Cause) (s : State) : (record c s).io = s.io := rfl

/-! `startAdc` -/

@[simp] theorem startAdc_cfg (s : State) : (startAdc s).cfg = s.cfg := rfl
@[simp] theorem startAdc_status (s : State) : (startAdc s).status = s.status := rfl
@[simp] theorem startAdc_seq (s : State) : (startAdc s).seq = { s.seq with adcState := .assertCs } := rfl
@[simp] theorem startAdc_adc (s : State) : (startAdc s).adc = { polls := 0, err := false, latch := 0 } := rfl
@[simp] theorem startAdc_cap (s : State) : (startAdc s).cap = s.cap := rfl
@[simp] theorem startAdc_sw (s : State) : (startAdc s).sw = s.sw := rfl
@[simp] theorem startAdc_enc (s : State) : (startAdc s).enc = s.enc := rfl
@[simp] theorem startAdc_duty (s : State) : (startAdc s).duty = s.duty := rfl
@[simp] theorem startAdc_out (s : State) : (startAdc s).out = s.out := rfl
@[simp] theorem startAdc_res (s : State) : (startAdc s).res = { s.res with adc := 0 } := rfl
@[simp] theorem startAdc_bank (s : State) : (startAdc s).bank = s.bank := rfl
@[simp] theorem startAdc_io (s : State) : (startAdc s).io = s.io := rfl

/-! `startCap` -/

@[simp] theorem startCap_cfg (s : State) : (startCap s).cfg = s.cfg := rfl
@[simp] theorem startCap_status (s : State) : (startCap s).status = s.status := rfl
@[simp] theorem startCap_seq (s : State) : (startCap s).seq = { s.seq with capState := .discharge } := rfl
@[simp] theorem startCap_adc (s : State) : (startCap s).adc = s.adc := rfl
@[simp] theorem startCap_cap (s : State) : (startCap s).cap = { timer := 0, elapsed := 0, timedOut := false } := rfl
@[simp] theorem startCap_sw (s : State) : (startCap s).sw = s.sw := rfl
@[simp] theorem startCap_enc (s : State) : (startCap s).enc = s.enc := rfl
@[simp] theorem startCap_duty (s : State) : (startCap s).duty = s.duty := rfl
@[simp] theorem startCap_out (s : State) : (startCap s).out = s.out := rfl
@[simp] theorem startCap_res (s : State) : (startCap s).res = { s.res with cap := 0 } := rfl
@[simp] theorem startCap_bank (s : State) : (startCap s).bank = s.bank := rfl
@[simp] theorem startCap_io (s : State) : (startCap s).io = s.io := rfl

/-! `startRefl` -/

@[simp] theorem startRefl_cfg (s : State) : (startRefl s).cfg = s.cfg := rfl
@[simp] theorem startRefl_status (s : State) : (startRefl s).status = s.status := rfl
@[simp] theorem startRefl_seq (s : State) : (startRefl s).seq = { s.seq with reflIdx := 0 } := rfl
@[simp] theorem startRefl_adc (s : State) : (startRefl s).adc = s.adc := rfl
@[simp] theorem startRefl_cap (s : State) : (startRefl s).cap = s.cap := rfl
@[simp] theorem startRefl_sw (s : State) : (startRefl s).sw = s.sw := rfl
@[simp] theorem startRefl_enc (s : State) : (startRefl s).enc = s.enc := rfl
@[simp] theorem startRefl_duty (s : State) : (startRefl s).duty = s.duty := rfl
@[simp] theorem startRefl_out (s : State) : (startRefl s).out = s.out := rfl
@[simp] theorem startRefl_res (s : State) : (startRefl s).res = { s.res with refl := Vector.replicate 16 reflSentinel, reflSt := false } := rfl
@[simp] theorem startRefl_bank (s : State) : (startRefl s).bank = s.bank := rfl
@[simp] theorem startRefl_io (s : State) : (startRefl s).io = s.io := rfl

/-! `clearEnc` -/

@[simp] theorem clearEnc_cfg (ch : Fin 2) (s : State) : (clearEnc ch s).cfg = s.cfg := rfl
@[simp] theorem clearEnc_status (ch : Fin 2) (s : State) : (clearEnc ch s).status = s.status := rfl
@[simp] theorem clearEnc_seq (ch : Fin 2) (s : State) : (clearEnc ch s).seq = s.seq := rfl
@[simp] theorem clearEnc_adc (ch : Fin 2) (s : State) : (clearEnc ch s).adc = s.adc := rfl
@[simp] theorem clearEnc_cap (ch : Fin 2) (s : State) : (clearEnc ch s).cap = s.cap := rfl
@[simp] theorem clearEnc_sw (ch : Fin 2) (s : State) : (clearEnc ch s).sw = s.sw := rfl
@[simp] theorem clearEnc_enc (ch : Fin 2) (s : State) : (clearEnc ch s).enc = s.enc := rfl
@[simp] theorem clearEnc_duty (ch : Fin 2) (s : State) : (clearEnc ch s).duty = s.duty := rfl
@[simp] theorem clearEnc_out (ch : Fin 2) (s : State) : (clearEnc ch s).out = s.out := rfl
@[simp] theorem clearEnc_res (ch : Fin 2) (s : State) : (clearEnc ch s).res = { s.res with enc := s.res.enc.set ch 0 } := rfl
@[simp] theorem clearEnc_bank (ch : Fin 2) (s : State) : (clearEnc ch s).bank = s.bank := rfl
@[simp] theorem clearEnc_io (ch : Fin 2) (s : State) : (clearEnc ch s).io = s.io := rfl

/-! `clearSw` -/

@[simp] theorem clearSw_cfg (s : State) : (clearSw s).cfg = s.cfg := rfl
@[simp] theorem clearSw_status (s : State) : (clearSw s).status = s.status := rfl
@[simp] theorem clearSw_seq (s : State) : (clearSw s).seq = s.seq := rfl
@[simp] theorem clearSw_adc (s : State) : (clearSw s).adc = s.adc := rfl
@[simp] theorem clearSw_cap (s : State) : (clearSw s).cap = s.cap := rfl
@[simp] theorem clearSw_sw (s : State) : (clearSw s).sw = s.sw := rfl
@[simp] theorem clearSw_enc (s : State) : (clearSw s).enc = s.enc := rfl
@[simp] theorem clearSw_duty (s : State) : (clearSw s).duty = s.duty := rfl
@[simp] theorem clearSw_out (s : State) : (clearSw s).out = s.out := rfl
@[simp] theorem clearSw_res (s : State) : (clearSw s).res = { s.res with sw := 0 } := rfl
@[simp] theorem clearSw_bank (s : State) : (clearSw s).bank = s.bank := rfl
@[simp] theorem clearSw_io (s : State) : (clearSw s).io = s.io := rfl

/-! `portWrite` -/

@[simp] theorem portWrite_cfg (p : Nat) (m v : Byte) (s : State) : (portWrite p m v s).cfg = s.cfg := by unfold portWrite; split <;> rfl
@[simp] theorem portWrite_status (p : Nat) (m v : Byte) (s : State) : (portWrite p m v s).status = s.status := by unfold portWrite; split <;> rfl
@[simp] theorem portWrite_seq (p : Nat) (m v : Byte) (s : State) : (portWrite p m v s).seq = s.seq := by unfold portWrite; split <;> rfl
@[simp] theorem portWrite_adc (p : Nat) (m v : Byte) (s : State) : (portWrite p m v s).adc = s.adc := by unfold portWrite; split <;> rfl
@[simp] theorem portWrite_cap (p : Nat) (m v : Byte) (s : State) : (portWrite p m v s).cap = s.cap := by unfold portWrite; split <;> rfl
@[simp] theorem portWrite_sw (p : Nat) (m v : Byte) (s : State) : (portWrite p m v s).sw = s.sw := by unfold portWrite; split <;> rfl
@[simp] theorem portWrite_enc (p : Nat) (m v : Byte) (s : State) : (portWrite p m v s).enc = s.enc := by unfold portWrite; split <;> rfl
@[simp] theorem portWrite_duty (p : Nat) (m v : Byte) (s : State) : (portWrite p m v s).duty = s.duty := by unfold portWrite; split <;> rfl
@[simp] theorem portWrite_out (p : Nat) (m v : Byte) (s : State) : (portWrite p m v s).out = if s.handleOk p then Memory.write s.out p (maskedWrite (s.latch p) m v) else s.out := by unfold portWrite; split <;> rfl
@[simp] theorem portWrite_res (p : Nat) (m v : Byte) (s : State) : (portWrite p m v s).res = s.res := by unfold portWrite; split <;> rfl
@[simp] theorem portWrite_bank (p : Nat) (m v : Byte) (s : State) : (portWrite p m v s).bank = s.bank := by unfold portWrite; split <;> rfl
@[simp] theorem portWrite_io (p : Nat) (m v : Byte) (s : State) : (portWrite p m v s).io = if s.handleOk p then { s.io with trace := s.io.trace ++ [.write p m v] } else s.io := by unfold portWrite; split <;> rfl

/-! `pinWrite` -/

@[simp] theorem pinWrite_cfg (n : Pin) (a : Bool) (s : State) : (pinWrite n a s).cfg = s.cfg := by simp [pinWrite]
@[simp] theorem pinWrite_status (n : Pin) (a : Bool) (s : State) : (pinWrite n a s).status = s.status := by simp [pinWrite]
@[simp] theorem pinWrite_seq (n : Pin) (a : Bool) (s : State) : (pinWrite n a s).seq = s.seq := by simp [pinWrite]
@[simp] theorem pinWrite_adc (n : Pin) (a : Bool) (s : State) : (pinWrite n a s).adc = s.adc := by simp [pinWrite]
@[simp] theorem pinWrite_cap (n : Pin) (a : Bool) (s : State) : (pinWrite n a s).cap = s.cap := by simp [pinWrite]
@[simp] theorem pinWrite_sw (n : Pin) (a : Bool) (s : State) : (pinWrite n a s).sw = s.sw := by simp [pinWrite]
@[simp] theorem pinWrite_enc (n : Pin) (a : Bool) (s : State) : (pinWrite n a s).enc = s.enc := by simp [pinWrite]
@[simp] theorem pinWrite_duty (n : Pin) (a : Bool) (s : State) : (pinWrite n a s).duty = s.duty := by simp [pinWrite]
@[simp] theorem pinWrite_res (n : Pin) (a : Bool) (s : State) : (pinWrite n a s).res = s.res := by simp [pinWrite]
@[simp] theorem pinWrite_bank (n : Pin) (a : Bool) (s : State) : (pinWrite n a s).bank = s.bank := by simp [pinWrite]

/-! `deassertOutputs` -/

@[simp] theorem deassertOutputs_cfg (s : State) : (deassertOutputs s).cfg = s.cfg := by simp [deassertOutputs, outputPins]
@[simp] theorem deassertOutputs_status (s : State) : (deassertOutputs s).status = s.status := by simp [deassertOutputs, outputPins]
@[simp] theorem deassertOutputs_seq (s : State) : (deassertOutputs s).seq = s.seq := by simp [deassertOutputs, outputPins]
@[simp] theorem deassertOutputs_adc (s : State) : (deassertOutputs s).adc = s.adc := by simp [deassertOutputs, outputPins]
@[simp] theorem deassertOutputs_cap (s : State) : (deassertOutputs s).cap = s.cap := by simp [deassertOutputs, outputPins]
@[simp] theorem deassertOutputs_sw (s : State) : (deassertOutputs s).sw = s.sw := by simp [deassertOutputs, outputPins]
@[simp] theorem deassertOutputs_enc (s : State) : (deassertOutputs s).enc = s.enc := by simp [deassertOutputs, outputPins]
@[simp] theorem deassertOutputs_duty (s : State) : (deassertOutputs s).duty = s.duty := by simp [deassertOutputs, outputPins]
@[simp] theorem deassertOutputs_res (s : State) : (deassertOutputs s).res = s.res := by simp [deassertOutputs, outputPins]
@[simp] theorem deassertOutputs_bank (s : State) : (deassertOutputs s).bank = s.bank := by simp [deassertOutputs, outputPins]

/-! `nextPhase` -/

@[simp] theorem nextPhase_cfg (s : State) : (nextPhase s).cfg = s.cfg := by unfold nextPhase; split <;> simp
@[simp] theorem nextPhase_status (s : State) : (nextPhase s).status = s.status := by unfold nextPhase; split <;> simp
@[simp] theorem nextPhase_sw (s : State) : (nextPhase s).sw = s.sw := by unfold nextPhase; split <;> simp
@[simp] theorem nextPhase_enc (s : State) : (nextPhase s).enc = s.enc := by unfold nextPhase; split <;> simp
@[simp] theorem nextPhase_duty (s : State) : (nextPhase s).duty = s.duty := by unfold nextPhase; split <;> simp
@[simp] theorem nextPhase_out (s : State) : (nextPhase s).out = s.out := by unfold nextPhase; split <;> simp
@[simp] theorem nextPhase_bank (s : State) : (nextPhase s).bank = s.bank := by unfold nextPhase; split <;> simp
@[simp] theorem nextPhase_io (s : State) : (nextPhase s).io = s.io := by unfold nextPhase; split <;> simp

/-! `complete` -/

@[simp] theorem complete_cfg (s : State) : (complete s).cfg = s.cfg := by unfold complete; split <;> simp
@[simp] theorem complete_status (s : State) : (complete s).status = s.status := by unfold complete; split <;> simp
@[simp] theorem complete_sw (s : State) : (complete s).sw = s.sw := by unfold complete; split <;> simp
@[simp] theorem complete_enc (s : State) : (complete s).enc = s.enc := by unfold complete; split <;> simp
@[simp] theorem complete_duty (s : State) : (complete s).duty = s.duty := by unfold complete; split <;> simp
@[simp] theorem complete_out (s : State) : (complete s).out = s.out := by unfold complete; split <;> simp
@[simp] theorem complete_bank (s : State) : (complete s).bank = s.bank := by unfold complete; split <;> simp
@[simp] theorem complete_io (s : State) : (complete s).io = s.io := by unfold complete; split <;> simp

/-! `acceptActions` -/

@[simp] theorem acceptActions_cfg (i : Instr) (s : State) : (acceptActions i s).cfg = s.cfg := by cases i <;> simp [acceptActions]
@[simp] theorem acceptActions_status (i : Instr) (s : State) : (acceptActions i s).status = s.status := by cases i <;> simp [acceptActions]
@[simp] theorem acceptActions_sw (i : Instr) (s : State) : (acceptActions i s).sw = s.sw := by cases i <;> simp [acceptActions]
@[simp] theorem acceptActions_enc (i : Instr) (s : State) : (acceptActions i s).enc = s.enc := by cases i <;> simp [acceptActions]
@[simp] theorem acceptActions_duty (i : Instr) (s : State) : (acceptActions i s).duty = s.duty := by cases i <;> simp [acceptActions]
@[simp] theorem acceptActions_out (i : Instr) (s : State) : (acceptActions i s).out = s.out := by cases i <;> simp [acceptActions]
@[simp] theorem acceptActions_bank (i : Instr) (s : State) : (acceptActions i s).bank = s.bank := by cases i <;> simp [acceptActions]
@[simp] theorem acceptActions_io (i : Instr) (s : State) : (acceptActions i s).io = s.io := by cases i <;> simp [acceptActions]

/-! Reads: the pattern, the logical value, and the state after. -/

@[simp] theorem portRead_fst (p : Nat) (s : State) : (portRead p s).1 = s.portPattern s.answer.levels p := rfl
@[simp] theorem portRead_snd (p : Nat) (s : State) :
    (portRead p s).2 = logAccess (.read p (s.portPattern s.answer.levels p)) (takeAnswer s) := rfl
@[simp] theorem pinRead_fst (n : Pin) (s : State) :
    (pinRead n s).1 = PinCfg.logical (pinOf s.cfg n)
      ((s.portPattern s.answer.levels (pinOf s.cfg n).port).getLsbD (pinOf s.cfg n).bit) := rfl
@[simp] theorem pinRead_snd (n : Pin) (s : State) : (pinRead n s).2 = (portRead (pinOf s.cfg n).port s).2 := rfl
@[simp] theorem analogRead_fst (n : Pin) (s : State) :
    (analogRead n s).1 = (s.answer.ok, analogReading s.cfg s.answer.value) := rfl
@[simp] theorem analogRead_snd (n : Pin) (s : State) :
    (analogRead n s).2 = logAccess (.analog n s.answer.ok (analogReading s.cfg s.answer.value)) (takeAnswer s) := rfl
@[simp] theorem swRead_fst (i : Fin 4) (s : State) : (swRead i s).1 = (s.answer.ok, (pinRead (.sw i) s).1) := rfl
@[simp] theorem swRead_snd (i : Fin 4) (s : State) : (swRead i s).2 = (pinRead (.sw i) s).2 := rfl

/-! Reset keeps the configuration and the outside, and nothing else. -/

@[simp] theorem applyReset_cfg (s : State) : (applyReset s).cfg = s.cfg := rfl
@[simp] theorem applyReset_io (s : State) : (applyReset s).io = { s.io with rst := true } := rfl

end Sys2Proof.Machine
end

