-- ==== Sys2Proof/Laws/Pins.lean ====
section
/-! SUPPORT. What a valid configuration says of a pin (40_portbus_ops.md R84), and what one PinWrite and the twelve
de-assertions do to the latches (20_memory.md R42 to R45). -/

namespace Sys2Proof.Machine

open Sys2Proof

/-! ### A valid configuration -/

theorem mem_allPins (n : Pin) : n ∈ allPins := by
  cases n with
  | motorPwm i => revert i; decide
  | motorDir i => revert i; decide
  | motorEn i => revert i; decide
  | relay i => revert i; decide
  | sw i => revert i; decide
  | enc i => revert i; decide
  | refl k => revert k; decide
  | capDischarge => decide
  | capCharge => decide
  | adcRd => decide
  | adcCs => decide
  | adcInt => decide
  | capSample => decide

/-- The six checks of R84 taken apart. -/
theorem validConfig_checks {c : Config} (h : validConfig c = true) :
    allPresent c = true ∧ portsInRange c = true ∧ bitsInRange c = true ∧ noOverlap c = true ∧
      dataBusAlone c = true ∧ numbersInRange c = true := by
  simpa [validConfig, and_assoc] using h

theorem valid_port {c : Config} (h : validConfig c = true) (n : Pin) : (pinOf c n).port < c.nports := by
  have h2 := (validConfig_checks h).2.1
  simp only [portsInRange, Bool.and_eq_true, decide_eq_true_eq, List.all_eq_true] at h2
  exact h2.1.2 n (mem_allPins n)

theorem valid_bit {c : Config} (h : validConfig c = true) (n : Pin) : (pinOf c n).bit < 8 := by
  have h3 := (validConfig_checks h).2.2.1
  simp only [bitsInRange, Bool.and_eq_true, decide_eq_true_eq, List.all_eq_true] at h3
  have := (h3 n (mem_allPins n)).1
  omega

theorem valid_dataPort {c : Config} (h : validConfig c = true) : c.adcData.port < c.nports := by
  have h2 := (validConfig_checks h).2.1
  simp only [portsInRange, Bool.and_eq_true, decide_eq_true_eq] at h2
  exact h2.2

theorem valid_dataMask {c : Config} (h : validConfig c = true) : c.adcData.mask = 0xFF#8 := by
  have h5 := (validConfig_checks h).2.2.2.2.1
  simp only [dataBusAlone, Bool.and_eq_true, beq_iff_eq] at h5
  exact h5.1

theorem valid_offDataBus {c : Config} (h : validConfig c = true) (n : Pin) :
    (pinOf c n).port ≠ c.adcData.port := by
  have h5 := (validConfig_checks h).2.2.2.2.1
  simp only [dataBusAlone, Bool.and_eq_true, List.all_eq_true, bne_iff_ne] at h5
  exact h5.2 n (mem_allPins n)

/-- Two pins at one place are one pin (R84 check 4). -/
theorem valid_place_inj {c : Config} (h : validConfig c = true) {n m : Pin}
    (hp : (pinOf c n).port = (pinOf c m).port) (hb : (pinOf c n).bit = (pinOf c m).bit) : n = m := by
  have h4 := (validConfig_checks h).2.2.2.1
  simp only [noOverlap, decide_eq_true_eq] at h4
  have hinj := List.inj_on_of_nodup_map h4
  exact hinj (mem_allPins n) (mem_allPins m) (by simp [pinPlace, hp, hb])

/-- The numbers of R84 check 6 that bound a counter. -/
theorem valid_numbers {c : Config} (h : validConfig c = true) :
    1 ≤ c.adcTimeout ∧ c.adcTimeout ≤ 65535 ∧ c.capSettle ≤ 65535 ∧ 1 ≤ c.capTimeout ∧ c.capTimeout ≤ 65535 ∧
      c.capContactT ≤ c.capTimeout ∧ 1 ≤ c.analogWidth ∧ c.analogWidth ≤ 15 ∧ 1 ≤ c.swDebounce ∧
      c.swDebounce ≤ 255 ∧ c.motorIdleEn ≤ 1 := by
  have h6 := (validConfig_checks h).2.2.2.2.2
  simp only [numbersInRange, Bool.and_eq_true, decide_eq_true_eq] at h6
  omega

/-! ### Levels -/

@[simp] theorem logical_levelOf (P : PinCfg) (a : Bool) : PinCfg.logical P (PinCfg.levelOf P a) = a := by
  cases a <;> simp [PinCfg.logical, PinCfg.levelOf]

/-- The mask of a pin selects its own bit. -/
theorem maskBit_getLsbD (P : PinCfg) (b : Nat) : (PinCfg.maskBit P).getLsbD b = (decide (b < 8) && decide (b = P.bit)) := by
  by_cases hb : b < 8
  · by_cases hle : b < P.bit
    · have : b ≠ P.bit := by omega
      simp [PinCfg.maskBit, hb, hle, this]
    · have h1 : (b = P.bit) ↔ (b - P.bit = 0) := by omega
      simp [PinCfg.maskBit, hb, hle, h1]
  · simp [PinCfg.maskBit, hb]

/-- The shifted level of a pin, at its own bit. -/
theorem levelBit_getLsbD (P : PinCfg) (l : Level) (h : P.bit < 8) : (PinCfg.levelBit P l).getLsbD P.bit = l := by
  cases l <;> simp [PinCfg.levelBit, h]

/-! ### One PortWrite, one PinWrite -/

/-- A PortWrite with a valid handle, latch by latch (R42). -/
theorem portWrite_latch (p : Nat) (m v : Byte) (s : State) (hw : Memory.wf s.out) (hp : s.handleOk p = true) (q : Nat) :
    (portWrite p m v s).latch q = if q = p then maskedWrite (s.latch p) m v else s.latch q := by
  simp [State.latch, portWrite, hp, Memory.read_write s.out hw]

theorem portWrite_wf (p : Nat) (m v : Byte) (s : State) (hw : Memory.wf s.out) : Memory.wf (portWrite p m v s).out := by
  rw [portWrite_out]
  split
  · exact Memory.wf_write _ hw _ _
  · exact hw

theorem portWrite_ports (p : Nat) (m v : Byte) (s : State) (h : ∀ c ∈ s.out, c.1 < s.cfg.nports) :
    ∀ c ∈ (portWrite p m v s).out, c.1 < s.cfg.nports := by
  intro c hc
  rw [portWrite_out] at hc
  split at hc
  · rename_i hp
    rcases Memory.mem_write _ _ _ _ hc with ⟨rfl, _⟩ | hc
    · simpa [State.handleOk] using hp
    · exact h c hc
  · exact h c hc

theorem pinWrite_wf (n : Pin) (a : Bool) (s : State) (hw : Memory.wf s.out) : Memory.wf (pinWrite n a s).out :=
  portWrite_wf _ _ _ s hw

theorem pinWrite_ports (n : Pin) (a : Bool) (s : State) (h : ∀ c ∈ s.out, c.1 < s.cfg.nports) :
    ∀ c ∈ (pinWrite n a s).out, c.1 < s.cfg.nports := portWrite_ports _ _ _ s h

/-- A PinWrite with a valid place changes the one bit of its pin (R45). -/
theorem pinWrite_bit (n : Pin) (a : Bool) (s : State) (hw : Memory.wf s.out)
    (hp : (pinOf s.cfg n).port < s.cfg.nports) (hb : (pinOf s.cfg n).bit < 8) (p b : Nat) :
    ((pinWrite n a s).latch p).getLsbD b =
      if pinIsAt s.cfg n p b then PinCfg.levelOf (pinOf s.cfg n) a else (s.latch p).getLsbD b := by
  have hok : s.handleOk (pinOf s.cfg n).port = true := by simpa [State.handleOk] using hp
  unfold pinWrite
  rw [portWrite_latch _ _ _ _ hw hok]
  by_cases hpe : p = (pinOf s.cfg n).port
  · subst hpe
    by_cases hbe : b = (pinOf s.cfg n).bit
    · subst hbe
      rw [if_pos rfl, maskedWrite_bit, maskBit_getLsbD, levelBit_getLsbD _ _ hb]
      simp [pinIsAt, hb]
    · simp [pinIsAt, maskedWrite_bit, maskBit_getLsbD, hbe, Ne.symm hbe]
  · simp [pinIsAt, hpe, Ne.symm hpe]

/-- The accesses of a PinWrite with a valid place. -/
theorem pinWrite_io_valid (n : Pin) (a : Bool) (s : State) (hp : (pinOf s.cfg n).port < s.cfg.nports) :
    (pinWrite n a s).io = { s.io with
      trace := s.io.trace ++ [.write (pinOf s.cfg n).port (PinCfg.maskBit (pinOf s.cfg n))
        (PinCfg.levelBit (pinOf s.cfg n) (PinCfg.levelOf (pinOf s.cfg n) a))] } := by
  have hok : s.handleOk (pinOf s.cfg n).port = true := by simpa [State.handleOk] using hp
  simp [pinWrite, hok]

/-- `asserted` depends on the configuration and the latches only. -/
theorem asserted_congr {s t : State} (hc : t.cfg = s.cfg) (ho : t.out = s.out) (n : Pin) :
    t.asserted n = s.asserted n := by
  simp [State.asserted, State.latchBit, State.latch, hc, ho]

/-- After a PinWrite the pin shows what was written. -/
theorem pinWrite_asserted_self {s : State} (hv : validConfig s.cfg = true) (hw : Memory.wf s.out) (n : Pin) (a : Bool) :
    (pinWrite n a s).asserted n = a := by
  have h := pinWrite_bit n a s hw (valid_port hv n) (valid_bit hv n) (pinOf s.cfg n).port (pinOf s.cfg n).bit
  have hat : pinIsAt s.cfg n (pinOf s.cfg n).port (pinOf s.cfg n).bit = true := by simp [pinIsAt]
  rw [if_pos hat] at h
  simp only [State.asserted, State.latchBit, pinWrite_cfg]
  rw [h, logical_levelOf]

/-- A PinWrite leaves every other pin as it is. -/
theorem pinWrite_asserted_other {s : State} (hv : validConfig s.cfg = true) (hw : Memory.wf s.out) (n m : Pin)
    (a : Bool) (hne : m ≠ n) : (pinWrite n a s).asserted m = s.asserted m := by
  have h := pinWrite_bit n a s hw (valid_port hv n) (valid_bit hv n) (pinOf s.cfg m).port (pinOf s.cfg m).bit
  have hat : pinIsAt s.cfg n (pinOf s.cfg m).port (pinOf s.cfg m).bit = false := by
    by_contra hcon
    simp only [Bool.not_eq_false, pinIsAt, Bool.and_eq_true, beq_iff_eq] at hcon
    exact hne (valid_place_inj hv hcon.1 hcon.2).symm
  rw [if_neg (by simp [hat])] at h
  simp only [State.asserted, State.latchBit, pinWrite_cfg]
  rw [h]

/-! ### Several PinWrites -/

/-- A list of PinWrites of one value: the canonical form and the fields it leaves alone. -/
theorem foldl_pinWrite_keeps (l : List Pin) (a : Bool) (s : State) :
    (l.foldl (fun t n => pinWrite n a t) s).cfg = s.cfg ∧
      (Memory.wf s.out → Memory.wf (l.foldl (fun t n => pinWrite n a t) s).out) ∧
      ((∀ c ∈ s.out, c.1 < s.cfg.nports) →
        ∀ c ∈ (l.foldl (fun t n => pinWrite n a t) s).out, c.1 < s.cfg.nports) := by
  induction l generalizing s with
  | nil => exact ⟨rfl, id, id⟩
  | cons n rest ih =>
    obtain ⟨h1, h2, h3⟩ := ih (pinWrite n a s)
    refine ⟨h1.trans (pinWrite_cfg n a s), fun h => h2 (pinWrite_wf n a s h), fun h => ?_⟩
    rw [pinWrite_cfg] at h3
    exact h3 (pinWrite_ports n a s h)

/-- After PinWrites of one value `a`, a pin shows `a` if it was written, else what it showed. -/
theorem foldl_pinWrite_asserted (l : List Pin) (a : Bool) (s : State) (hv : validConfig s.cfg = true)
    (hw : Memory.wf s.out) (m : Pin) :
    (l.foldl (fun t n => pinWrite n a t) s).asserted m = if m ∈ l then a else s.asserted m := by
  induction l generalizing s with
  | nil => simp
  | cons n rest ih =>
    rw [List.foldl_cons, ih (pinWrite n a s) (by simpa using hv) (pinWrite_wf n a s hw)]
    by_cases hm : m ∈ rest
    · simp [hm]
    · by_cases hmn : m = n
      · subst hmn
        simp [hm, pinWrite_asserted_self hv hw]
      · simp [hm, hmn, pinWrite_asserted_other hv hw n m a hmn]

theorem deassertOutputs_wf (s : State) (hw : Memory.wf s.out) : Memory.wf (deassertOutputs s).out :=
  (foldl_pinWrite_keeps outputPins false s).2.1 hw

theorem deassertOutputs_ports (s : State) (h : ∀ c ∈ s.out, c.1 < s.cfg.nports) :
    ∀ c ∈ (deassertOutputs s).out, c.1 < s.cfg.nports := (foldl_pinWrite_keeps outputPins false s).2.2 h

/-- After the twelve writes every output pin is de-asserted. -/
theorem deassertOutputs_asserted (s : State) (hv : validConfig s.cfg = true) (hw : Memory.wf s.out) (m : Pin)
    (hm : m ∈ outputPins) : (deassertOutputs s).asserted m = false := by
  unfold deassertOutputs
  rw [foldl_pinWrite_asserted outputPins false s hv hw m, if_pos hm]

end Sys2Proof.Machine
end

