-- ==== Sys2Proof/Laws/Words.lean ====
section
/-! SUPPORT. The fields of a command word as numbers (30_encoding.md R61): a word is `op`, `a`, `b`, `c` and nothing
else. -/

namespace Sys2Proof

/-- Appending is shifting and adding. -/
theorem append_toNat {n m : Nat} (x : BitVec n) (y : BitVec m) : (x ++ y).toNat = x.toNat * 2 ^ m + y.toNat := by
  rw [BitVec.toNat_append, ← Nat.shiftLeft_add_eq_or_of_lt y.isLt, Nat.shiftLeft_eq]

/-- The number of a word is that of its fields. -/
theorem wordOf_toNat (op a b c : Byte) :
    (wordOf op a b c).toNat = op.toNat * 2 ^ 24 + a.toNat * 2 ^ 16 + b.toNat * 2 ^ 8 + c.toNat := by
  have h : (wordOf op a b c).toNat = (((op ++ a) ++ b) ++ c : BitVec (8 + 8 + 8 + 8)).toNat := rfl
  rw [h, append_toNat, append_toNat, append_toNat]
  ring

/-- A field of a word as a number. -/
theorem extract_toNat (w : Word) (k : Nat) : (w.extractLsb' k 8).toNat = w.toNat / 2 ^ k % 256 := by
  rw [BitVec.extractLsb'_toNat, Nat.shiftRight_eq_div_pow]

@[simp] theorem opField_wordOf (op a b c : Byte) : opField (wordOf op a b c) = op := by
  apply BitVec.eq_of_toNat_eq
  rw [opField, extract_toNat, wordOf_toNat]
  have := op.isLt; have := a.isLt; have := b.isLt; have := c.isLt
  omega

@[simp] theorem aField_wordOf (op a b c : Byte) : aField (wordOf op a b c) = a := by
  apply BitVec.eq_of_toNat_eq
  rw [aField, extract_toNat, wordOf_toNat]
  have := op.isLt; have := a.isLt; have := b.isLt; have := c.isLt
  omega

@[simp] theorem bField_wordOf (op a b c : Byte) : bField (wordOf op a b c) = b := by
  apply BitVec.eq_of_toNat_eq
  rw [bField, extract_toNat, wordOf_toNat]
  have := op.isLt; have := a.isLt; have := b.isLt; have := c.isLt
  omega

@[simp] theorem cField_wordOf (op a b c : Byte) : cField (wordOf op a b c) = c := by
  apply BitVec.eq_of_toNat_eq
  rw [cField, extract_toNat, wordOf_toNat]
  have := op.isLt; have := a.isLt; have := b.isLt; have := c.isLt
  omega

/-- A word is made of its fields. -/
theorem wordOf_fields (w : Word) : wordOf (opField w) (aField w) (bField w) (cField w) = w := by
  apply BitVec.eq_of_toNat_eq
  rw [wordOf_toNat, opField, aField, bField, cField, extract_toNat, extract_toNat, extract_toNat, extract_toNat]
  have := w.isLt
  omega

/-- A 16-bit operand is made of its two bytes (R67). -/
theorem speed_bytes (s : BitVec 16) : speedHigh s ++ speedLow s = s := by
  have h : (speedHigh s ++ speedLow s).toNat = (s.toNat / 2 ^ 8 % 256) * 2 ^ 8 + s.toNat / 2 ^ 0 % 256 := by
    rw [append_toNat, speedHigh, speedLow, BitVec.extractLsb'_toNat, BitVec.extractLsb'_toNat,
      Nat.shiftRight_eq_div_pow, Nat.shiftRight_eq_div_pow]
  apply BitVec.eq_of_toNat_eq
  refine h.trans ?_
  have := s.isLt
  omega

theorem speedHigh_append (b c : Byte) : speedHigh (b ++ c) = b := by
  apply BitVec.eq_of_toNat_eq
  rw [speedHigh, BitVec.extractLsb'_toNat, Nat.shiftRight_eq_div_pow, append_toNat]
  have := b.isLt; have := c.isLt
  omega

theorem speedLow_append (b c : Byte) : speedLow (b ++ c) = c := by
  apply BitVec.eq_of_toNat_eq
  rw [speedLow, BitVec.extractLsb'_toNat, Nat.shiftRight_eq_div_pow, append_toNat]
  have := b.isLt; have := c.isLt
  omega

end Sys2Proof
end

