-- ==== Sys2Proof/Laws/Ops.lean ====
section
/-! SUPPORT. One lemma per shared operation that says everything it can do: completion (40_portbus_ops.md R81), the
next phase (47_frame_abort.md R196), taking an exception (60_exceptions.md R216 to R218), accepting (R80). -/

namespace Sys2Proof.Machine

open Sys2Proof

/-- Completion clears BUSY, or moves a FRAME to its next phase. -/
theorem complete_cases (s : State) :
    (s.inFrame = false ∧ complete s = { s with seq.busy := false }) ∨
      (s.inFrame = true ∧ complete s = nextPhase s) := by
  unfold complete
  cases h : s.inFrame
  · exact .inl ⟨rfl, by simp⟩
  · exact .inr ⟨rfl, by simp⟩

theorem complete_of_not_inFrame {s : State} (h : s.inFrame = false) : complete s = { s with seq.busy := false } := by
  simp [complete, h]

theorem complete_of_inFrame {s : State} (h : s.inFrame = true) : complete s = nextPhase s := by simp [complete, h]

/-- NextPhase, phase by phase. -/
theorem nextPhase_scan {s : State} (h : s.seq.framePhase = .scan) :
    nextPhase s = { s with seq.framePhase := .drain0, res.enc := s.res.enc.set 0 0 } := by simp [nextPhase, h, clearEnc]

theorem nextPhase_drain0 {s : State} (h : s.seq.framePhase = .drain0) :
    nextPhase s = { s with seq.framePhase := .drain1, res.enc := s.res.enc.set 1 0 } := by simp [nextPhase, h, clearEnc]

theorem nextPhase_drain1 {s : State} (h : s.seq.framePhase = .drain1) :
    nextPhase s = { s with seq.framePhase := .switches, res.sw := 0 } := by simp [nextPhase, h, clearSw]

theorem nextPhase_switches {s : State} (h : s.seq.framePhase = .switches) :
    nextPhase s = { s with seq.framePhase := .capacitive, seq.capState := .discharge, res.cap := 0,
                           cap := { timer := 0, elapsed := 0, timedOut := false } } := by simp [nextPhase, h, startCap]

theorem nextPhase_capacitive {s : State} (h : s.seq.framePhase = .capacitive) :
    nextPhase s = { s with seq.framePhase := .adc, seq.adcState := .assertCs, res.adc := 0,
                           adc := { polls := 0, err := false, latch := 0 } } := by simp [nextPhase, h, startAdc]

theorem nextPhase_adc {s : State} (h : s.seq.framePhase = .adc) :
    nextPhase s = { s with seq.framePhase := .commit } := by simp [nextPhase, h]

/-- A recorded cause does nothing but record (R219, R220, R224). -/
@[simp] theorem raise_conversionTimeout (s : State) : raise .conversionTimeout s = record .conversionTimeout s := rfl
@[simp] theorem raise_channelUnavailable (s : State) : raise .channelUnavailable s = record .channelUnavailable s := rfl
@[simp] theorem raise_aborted (s : State) : raise .aborted s = record .aborted s := rfl

/-- A refusal records and sets REFUSED (R80, R221 to R223). -/
theorem raise_refusal (c : Cause) (h : c = .contractViolation ∨ c = .wrongMode ∨ c = .illegalCommand) (s : State) :
    raise c s = { s with status.refused := true, status.cause := some c,
                         status.esticky := stickyWith s.status.esticky c } := by
  rcases h with rfl | rfl | rfl <;> rfl

/-- A start-up fatal (R217). -/
theorem raise_configurationError (s : State) :
    raise .configurationError s =
      { s with status.mode := .fatal, status.cause := some .configurationError,
               status.esticky := stickyWith s.status.esticky .configurationError, seq.busy := false } := rfl

/-- A run-time fatal (R218): only these fields differ from `s`. -/
theorem raise_invalidPortHandle (s : State) :
    raise .invalidPortHandle s =
      { s with status.mode := .fatal, status.cause := some .invalidPortHandle,
               status.esticky := stickyWith s.status.esticky .invalidPortHandle,
               seq.busy := false, seq.adcState := .idle, seq.capState := .idle, seq.reflIdx := 0,
               seq.framePhase := .none, duty := Vector.replicate 2 0,
               out := (deassertOutputs (record .invalidPortHandle s)).out,
               io := (deassertOutputs (record .invalidPortHandle s)).io } := by
  simp [raise]

/-- The operation field of an encoded command. -/
theorem inFrame_encode {s : State} {i : Instr} (h : s.seq.cmdLatch = encode i) :
    s.inFrame = decide (i = .frame) := by
  cases i <;> simp [State.inFrame, h, encode]

/-- The latched word is a FRAME exactly when it decodes as one. -/
theorem inFrame_decode {s : State} {i : Instr} (h : decode s.seq.cmdLatch = .legal i) :
    s.inFrame = decide (i = .frame) := by
  unfold State.inFrame
  unfold decode decodeFields at h
  generalize opField s.seq.cmdLatch = op at *
  split at h
  case h_12 hop =>
    have : op = 0x30#8 := BitVec.eq_of_toNat_eq hop
    simp only [reservedZero] at h
    split at h <;> cases h
    simp [this]
  case h_14 => cases h
  all_goals
    rename_i hop
    have hne : (op == 0x30#8) = false := by
      rw [beq_eq_false_iff_ne]
      rintro rfl
      simp at hop
    rw [hne]
    symm
    rw [decide_eq_false_iff_not]
    rintro rfl
    try simp only [reservedZero, withChannel, withRelayState] at h
    repeat' split at h
    all_goals cases h

/-- What accepting a command leaves alone. -/
theorem accept_keeps (i : Instr) (w : Word) (s : State) :
    (accept i w s).cfg = s.cfg ∧ (accept i w s).sw = s.sw ∧ (accept i w s).enc = s.enc ∧
      (accept i w s).duty = s.duty ∧ (accept i w s).out = s.out ∧ (accept i w s).bank = s.bank ∧
      (accept i w s).io = s.io := by
  cases i <;> exact ⟨rfl, rfl, rfl, rfl, rfl, rfl, rfl⟩

/-- What accepting a command does to the status registers and to `BUSY` and `CMD_LATCH`. -/
theorem accept_status (i : Instr) (w : Word) (s : State) :
    (accept i w s).status =
        { s.status with refused := false, aborted := if i = .abort then s.status.aborted else false } ∧
      (accept i w s).seq.busy = true ∧ (accept i w s).seq.cmdLatch = w := by
  cases i <;> exact ⟨rfl, rfl, rfl⟩

end Sys2Proof.Machine
end

