-- ==== Sys2Proof/Laws/Step.lean ====
section
/-! SUPPORT. What one step of the machine can do, said once: which event it handles, and what a tick is. -/

namespace Sys2Proof.Machine

open Sys2Proof

/-! `popped` touches the schedule only. -/

@[simp] theorem popped_cfg (s : State) : s.popped.cfg = s.cfg := rfl
@[simp] theorem popped_status (s : State) : s.popped.status = s.status := rfl
@[simp] theorem popped_seq (s : State) : s.popped.seq = s.seq := rfl
@[simp] theorem popped_adc (s : State) : s.popped.adc = s.adc := rfl
@[simp] theorem popped_cap (s : State) : s.popped.cap = s.cap := rfl
@[simp] theorem popped_sw (s : State) : s.popped.sw = s.sw := rfl
@[simp] theorem popped_enc (s : State) : s.popped.enc = s.enc := rfl
@[simp] theorem popped_duty (s : State) : s.popped.duty = s.duty := rfl
@[simp] theorem popped_out (s : State) : s.popped.out = s.out := rfl
@[simp] theorem popped_res (s : State) : s.popped.res = s.res := rfl
@[simp] theorem popped_bank (s : State) : s.popped.bank = s.bank := rfl
@[simp] theorem popped_io (s : State) : s.popped.io = { s.io with events := s.io.events.tail } := rfl

theorem popped_of_nil {s : State} (h : s.io.events = []) : s.popped = s := by
  obtain ⟨cfg, status, seq, adc, cap, sw, enc, duty, out, res, bank, ⟨rst, line, events, answers, reads, trace⟩⟩ := s
  simp only at h
  subst h
  rfl

/-- With an event pending, the step handles it. -/
theorem step_of_cons {s : State} {e : Event} {rest : List Event} (h : s.io.events = e :: rest) :
    step s = stepEvent e s.popped := by
  obtain ⟨cfg, status, seq, adc, cap, sw, enc, duty, out, res, bank, ⟨rst, line, events, answers, reads, trace⟩⟩ := s
  simp only at h
  subst h
  rfl

/-! What a schedule puts on an encoder line, event by event. -/

@[simp] theorem lineLevels_nil (c : Config) (i : Fin 2) : lineLevels c i [] = [] := rfl

theorem lineLevels_cons (c : Config) (i : Fin 2) (e : Event) (es : List Event) :
    lineLevels c i (e :: es) = (lineLevel c i e).toList ++ lineLevels c i es := by
  cases h : lineLevel c i e <;> simp [lineLevels, h]

@[simp] theorem lineLevel_encLine_self (c : Config) (i : Fin 2) (l : Level) :
    lineLevel c i (.encLine i l) = some (PinCfg.logical (pinOf c (.enc i)) l) := by simp [lineLevel]

theorem lineLevel_encLine_other (c : Config) {i j : Fin 2} (h : j ≠ i) (l : Level) :
    lineLevel c i (.encLine j l) = none := by simp [lineLevel, h]

/-- When the coming step is a tick, it is the tick of the popped state. -/
theorem step_of_tickNext {s : State} (h : TickNext s) : step s = tick s.popped := by
  rcases h with h | h
  · rw [popped_of_nil h]
    obtain ⟨cfg, status, seq, adc, cap, sw, enc, duty, out, res, bank, ⟨rst, line, events, answers, reads, trace⟩⟩ := s
    simp only at h
    subst h
    rfl
  · cases hev : s.io.events with
    | nil => simp [hev] at h
    | cons e rest =>
      rw [hev] at h
      simp only [List.head?_cons, Option.some.injEq] at h
      subst h
      exact step_of_cons hev

/-- A tick of a running sequencer runs the latched command. -/
theorem tick_runs {s : State} {i : Instr} (hr : s.sequencerRuns = true) (hd : fetchCommand s = .legal i) :
    tick s = exec i s := by simp [tick, hr, hd]

/-- A tick of a sequencer that does not run changes nothing. -/
theorem tick_idle {s : State} (hr : s.sequencerRuns = false) : tick s = .next s := by simp [tick, hr]

/-- Everything a step that answers a next state can have been. -/
theorem step_cases {s t : State} (h : step s = .next t) :
    (TickNext s ∧ s.sequencerRuns = false ∧ t = s.popped) ∨
      (∃ i, RunsNext s i ∧ exec i s.popped = .next t) ∨
      (∃ n v rest, s.io.events = .hostWrite n v :: rest ∧ t = hostWrite n v s.popped) ∨
      (∃ n rest, s.io.events = .hostRead n :: rest ∧ t = s.popped) ∨
      (∃ a rest, s.io.events = .rst a :: rest ∧ t = driveRst a s.popped) ∨
      (∃ i l rest, s.io.events = .encLine i l :: rest ∧ t = encLineChange i l s.popped) := by
  have htick : TickNext s → (TickNext s ∧ s.sequencerRuns = false ∧ t = s.popped) ∨
      (∃ i, RunsNext s i ∧ exec i s.popped = .next t) := by
    intro hn
    rw [step_of_tickNext hn] at h
    unfold tick at h
    split at h
    · rename_i hr
      split at h
      · rename_i i hd
        exact .inr ⟨i, ⟨hn, hr, hd⟩, h⟩
      · cases h
    · rename_i hr
      injection h with h
      exact .inl ⟨hn, Bool.eq_false_iff.mpr hr, h.symm⟩
  cases hev : s.io.events with
  | nil =>
    rcases htick (.inl hev) with h | h
    · exact .inl h
    · exact .inr (.inl h)
  | cons e rest =>
    cases e with
    | tick =>
      rcases htick (.inr (by simp [hev])) with h | h
      · exact .inl h
      · exact .inr (.inl h)
    | hostWrite n v =>
      rw [step_of_cons hev] at h
      injection h with h
      exact .inr (.inr (.inl ⟨n, v, rest, rfl, h.symm⟩))
    | hostRead n =>
      rw [step_of_cons hev] at h
      injection h with h
      exact .inr (.inr (.inr (.inl ⟨n, rest, rfl, h.symm⟩)))
    | rst a =>
      rw [step_of_cons hev] at h
      injection h with h
      exact .inr (.inr (.inr (.inr (.inl ⟨a, rest, rfl, h.symm⟩))))
    | encLine i l =>
      rw [step_of_cons hev] at h
      injection h with h
      exact .inr (.inr (.inr (.inr (.inr ⟨i, l, rest, rfl, h.symm⟩))))

/-- Everything a host write can do (R80). -/
theorem hostWrite_cases (n : BitVec 6) (v : Word) (s : State) :
    hostWrite n v s = s ∨
      (s.io.rst = false ∧ s.status.mode ≠ .fatal ∧
        ∃ c, (c = .contractViolation ∨ c = .wrongMode ∨ c = .illegalCommand) ∧ hostWrite n v s = raise c s) ∨
      (s.io.rst = false ∧ s.status.mode ≠ .fatal ∧
        ∃ i, decode v = .legal i ∧ (s.seq.busy = true → i = .abort) ∧ modeRefuses s.status.mode i = false ∧
          hostWrite n v s = accept i v s) := by
  unfold hostWrite issueCommand
  split
  · split
    · exact .inl rfl
    · rename_i hc
      simp only [Bool.or_eq_true, beq_iff_eq, not_or, Bool.not_eq_true] at hc
      split
      · exact .inr (.inl ⟨hc.1, hc.2, .illegalCommand, by simp, rfl⟩)
      · rename_i i hd
        split
        · exact .inr (.inl ⟨hc.1, hc.2, .contractViolation, by simp, rfl⟩)
        · rename_i hb
          split
          · exact .inr (.inl ⟨hc.1, hc.2, .wrongMode, by simp, rfl⟩)
          · rename_i hm
            refine .inr (.inr ⟨hc.1, hc.2, i, hd, fun h => ?_, by simpa using hm, rfl⟩)
            simpa [h] using hb
  · exact .inl rfl

/-! Runs, one step at a time from the front. -/

/-- A run of one step more is a step and then the run. -/
theorem run_succ {s t : State} (h : step s = .next t) (k : Nat) : core.run (k + 1) s = core.run k t := by
  have hc : core.step s = .next t := h
  simp only [Host.Core.run, hc]

@[simp] theorem busyBefore_zero (s : State) : BusyBefore 0 s := fun _ h => absurd h (Nat.not_lt_zero _)

/-- Busy before each of the steps of a run: busy now, and before each of the rest. -/
theorem busyBefore_succ {s t : State} (h : step s = .next t) (n : Nat) :
    BusyBefore (n + 1) s ↔ s.seq.busy = true ∧ BusyBefore n t := by
  constructor
  · refine fun hb => ⟨hb 0 (Nat.succ_pos n) s rfl, fun k hk u hu => hb (k + 1) (by omega) u ?_⟩
    rw [run_succ h]
    exact hu
  · rintro ⟨h0, hb⟩ k hk u hu
    cases k with
    | zero =>
      injection hu with hu
      exact hu ▸ h0
    | succ k =>
      rw [run_succ h] at hu
      exact hb k (by omega) u hu

/-- Where the steps of the units may stop: from IDLE only. -/
theorem adcStep_next {s : State} (h : s.seq.adcState ≠ .idle) : ∃ t, adcStep s = .next t := by
  unfold adcStep
  split <;> first | contradiction | exact ⟨_, rfl⟩

theorem capStep_next {s : State} (h : s.seq.capState ≠ .idle) : ∃ t, capStep s = .next t := by
  unfold capStep
  split <;> first | contradiction | exact ⟨_, rfl⟩

end Sys2Proof.Machine
end

