-- ==== Sys2Proof/Laws/Drive.lean ====
section
/-! SUPPORT. The words of Safety.lean about a step: which latch bits it drives, which reads the environment answered. -/

namespace Sys2Proof.Machine

open Sys2Proof

/-! ### `World.after` and the answers -/

@[simp] theorem after_zero_nil (w : World) : w.after 0 [] = w := by simp [World.after]

theorem after_after (w : World) (j k : Nat) (l m : List Access) :
    (w.after j l).after k m = w.after (j + k) (l ++ m) := by
  simp [World.after, List.drop_drop, Nat.add_assoc]

@[simp] theorem after_rst (w : World) (k : Nat) (l : List Access) : (w.after k l).rst = w.rst := rfl
@[simp] theorem after_encLine (w : World) (k : Nat) (l : List Access) : (w.after k l).encLine = w.encLine := rfl
@[simp] theorem after_events (w : World) (k : Nat) (l : List Access) : (w.after k l).events = w.events := rfl
@[simp] theorem after_trace (w : World) (k : Nat) (l : List Access) : (w.after k l).trace = w.trace ++ l := rfl

/-- The answer to the next read is answer number 0. -/
theorem answer_eq (s : State) : s.answer = s.answerAt 0 := by
  cases h : s.io.answers <;> simp [State.answer, State.answerAt, h]

/-- Answers are counted from where the reads already made end. -/
theorem answerAt_after {s t : State} {k : Nat} {l : List Access} (h : t.io = s.io.after k l) (j : Nat) :
    t.answerAt j = s.answerAt (k + j) := by
  simp only [State.answerAt, h, World.after, List.drop_drop, Nat.add_assoc]

/-- A write of the history takes no answer. -/
theorem after_zero (w : World) (l : List Access) : w.after 0 l = { w with trace := w.trace ++ l } := rfl

/-- One read with one access. -/
theorem after_one (w : World) (a : Access) :
    w.after 1 [a] = { w with answers := w.answers.tail, reads := w.reads + 1, trace := w.trace ++ [a] } := by
  simp [World.after]

/-! ### Reads -/

/-- A port read, field by field. -/
theorem portRead_eq (p : Nat) (s : State) :
    portRead p s = (s.portPattern (s.answerAt 0).levels p,
      { s with io := s.io.after 1 [readAccess s (s.answerAt 0) p] }) := by
  simp [portRead, logAccess, takeAnswer, answer_eq, after_one, readAccess]

/-- An analog read, field by field. -/
theorem analogRead_eq (n : Pin) (s : State) :
    analogRead n s = (((s.answerAt 0).ok, analogReading s.cfg (s.answerAt 0).value),
      { s with io := s.io.after 1 [analogAccess s.cfg n (s.answerAt 0)] }) := by
  simp [analogRead, logAccess, takeAnswer, answer_eq, after_one, analogAccess]

/-- The bits of the pattern of a port read. -/
theorem portPattern_bit (s : State) (levels : Byte) (p b : Nat) (hb : b < 8) :
    (s.portPattern levels p).getLsbD b = s.portBit levels p b := by
  unfold State.portPattern
  rw [BitVec.getLsbD_ofBoolListLE]
  interval_cases b <;> rfl

/-- What a port read shows depends on the configuration, the latches and the encoder lines only. -/
theorem portPattern_congr {s t : State} (hc : t.cfg = s.cfg) (ho : t.out = s.out) (hl : t.io.encLine = s.io.encLine)
    (levels : Byte) (p : Nat) : t.portPattern levels p = s.portPattern levels p := by
  have hb : ∀ b, t.portBit levels p b = s.portBit levels p b := by
    intro b
    unfold State.portBit State.latch
    rw [hc, ho, hl]
  unfold State.portPattern
  rw [hb, hb, hb, hb, hb, hb, hb, hb]

theorem readAccess_congr {s t : State} (hc : t.cfg = s.cfg) (ho : t.out = s.out) (hl : t.io.encLine = s.io.encLine)
    (a : Answer) (p : Nat) : readAccess t a p = readAccess s a p := by
  simp only [readAccess, portPattern_congr hc ho hl]

/-- Under a valid configuration a place is that of at most one pin. -/
theorem pinIsAt_unique {c : Config} (hv : validConfig c = true) (n m : Pin) :
    pinIsAt c n (pinOf c m).port (pinOf c m).bit = decide (n = m) := by
  by_cases h : n = m
  · subst h; simp [pinIsAt]
  · rw [decide_eq_false h]
    by_contra hcon
    simp only [Bool.not_eq_false, pinIsAt, Bool.and_eq_true, beq_iff_eq] at hcon
    exact h (valid_place_inj hv hcon.1 hcon.2)

/-- The place of a pin is an output pin exactly when the pin is an output. -/
theorem isOutputPin_pin {c : Config} (hv : validConfig c = true) (m : Pin) :
    isOutputPin c (pinOf c m).port (pinOf c m).bit = decide (m ∈ outputPins) := by
  simp only [isOutputPin, pinIsAt_unique hv]
  rw [Bool.eq_iff_iff, List.any_eq_true, decide_eq_true_iff]
  constructor
  · rintro ⟨n, hn, h⟩
    simpa [← of_decide_eq_true h] using hn
  · intro h
    exact ⟨m, h, by simp⟩

/-- Reading an input pin that is no encoder line gives the environment's level. -/
theorem pinRead_input {s : State} (hv : validConfig s.cfg = true) (n : Pin) (ho : n ∉ outputPins)
    (he : ∀ i, n ≠ .enc i) :
    pinRead n s = (seesAsserted s.cfg n (s.answerAt 0),
      { s with io := s.io.after 1 [readAccess s (s.answerAt 0) (pinOf s.cfg n).port] }) := by
  simp only [pinRead, portRead_eq, seesAsserted]
  rw [portPattern_bit _ _ _ _ (valid_bit hv n)]
  simp [State.portBit, isOutputPin_pin hv, pinIsAt_unique hv, ho, Ne.symm (he 0), Ne.symm (he 1)]

/-- Reading an encoder pin gives the line's level. -/
theorem pinRead_enc {s : State} (hv : validConfig s.cfg = true) (i : Fin 2) :
    pinRead (.enc i) s = (PinCfg.logical (pinOf s.cfg (.enc i)) s.io.encLine[i],
      { s with io := s.io.after 1 [readAccess s (s.answerAt 0) (pinOf s.cfg (.enc i)).port] }) := by
  simp only [pinRead, portRead_eq]
  rw [portPattern_bit _ _ _ _ (valid_bit hv _)]
  have ho : Pin.enc i ∉ outputPins := by revert i; decide
  fin_cases i <;> simp_all [State.portBit, isOutputPin_pin hv, pinIsAt_unique hv]

/-- The data bus shows the environment's byte. -/
theorem portPattern_data {s : State} (hv : validConfig s.cfg = true) (levels : Byte) :
    s.portPattern levels s.cfg.adcData.port = levels := by
  have hno : ∀ n b, pinIsAt s.cfg n s.cfg.adcData.port b = false := by
    intro n b
    simp [pinIsAt, valid_offDataBus hv n]
  apply BitVec.eq_of_getLsbD_eq
  intro b hb
  rw [portPattern_bit _ _ _ _ hb]
  simp [State.portBit, isOutputPin, hno]

/-! ### Writes -/

/-- PinWrites in order. -/
def driveAll (l : List (Pin × Bool)) (s : State) : State := l.foldl (fun t x => pinWrite x.1 x.2 t) s

@[simp] theorem driveAll_nil (s : State) : driveAll [] s = s := rfl

theorem driveAll_cons (x : Pin × Bool) (l : List (Pin × Bool)) (s : State) :
    driveAll (x :: l) s = driveAll l (pinWrite x.1 x.2 s) := rfl

/-- PinWrites change the latches and the history only. -/
theorem driveAll_eq {s : State} (hv : validConfig s.cfg = true) (l : List (Pin × Bool)) :
    driveAll l s = { s with
      out := (driveAll l s).out, io := s.io.after 0 (l.map fun x => pinAccess s.cfg x.1 x.2) } := by
  induction l generalizing s with
  | nil => simp
  | cons x l ih =>
    have hok : s.handleOk (pinOf s.cfg x.1).port = true := by simpa [State.handleOk] using valid_port hv x.1
    have hstep : pinWrite x.1 x.2 s = { s with
        out := (pinWrite x.1 x.2 s).out, io := s.io.after 0 [pinAccess s.cfg x.1 x.2] } := by
      simp [pinWrite, portWrite, hok, logAccess, pinAccess, after_zero]
    rw [driveAll_cons, ih (by simpa using hv)]
    generalize (driveAll l (pinWrite x.1 x.2 s)).out = o
    rw [hstep]
    simp [after_after]

theorem driveAll_wf (l : List (Pin × Bool)) (s : State) (hw : Memory.wf s.out) : Memory.wf (driveAll l s).out := by
  induction l generalizing s with
  | nil => exact hw
  | cons x l ih => exact ih _ (pinWrite_wf x.1 x.2 s hw)

/-- PinWrites to different pins: each pin shows what was written to it, every other bit is as it was. -/
theorem driveAll_drives {s : State} (hv : validConfig s.cfg = true) (hw : Memory.wf s.out) (l : List (Pin × Bool))
    (hn : (l.map Prod.fst).Nodup) : LatchesDrive s (driveAll l s) l := by
  induction l generalizing s with
  | nil => exact ⟨by simp, fun p b _ => rfl⟩
  | cons x l ih =>
    have hw1 := pinWrite_wf x.1 x.2 s hw
    simp only [List.map_cons, List.nodup_cons] at hn
    obtain ⟨h1, h2⟩ := ih (s := pinWrite x.1 x.2 s) (by simpa using hv) hw1 hn.2
    rw [driveAll_cons]
    refine ⟨fun y hy => ?_, fun p b hb => ?_⟩
    · rcases List.mem_cons.mp hy with rfl | hy
      · have hc : (driveAll l (pinWrite y.1 y.2 s)).cfg = s.cfg := by
          rw [driveAll_eq (by simpa using hv)]; simp
        have hlat : ∀ p b, pinIsAt s.cfg y.1 p b = true →
            ((driveAll l (pinWrite y.1 y.2 s)).latch p).getLsbD b = ((pinWrite y.1 y.2 s).latch p).getLsbD b := by
          intro p b hpb
          refine h2 p b fun z hz => ?_
          simp only [pinIsAt, Bool.and_eq_true, beq_iff_eq] at hpb
          rw [pinWrite_cfg, ← hpb.1, ← hpb.2, pinIsAt_unique hv]
          simp only [decide_eq_false_iff_not]
          intro he
          exact hn.1 (he ▸ List.mem_map_of_mem hz)
        have := pinWrite_asserted_self hv hw y.1 y.2
        simp only [State.asserted, State.latchBit, pinWrite_cfg, hc] at this ⊢
        rw [hlat _ _ (by simp [pinIsAt])]
        exact this
      · exact h1 y hy
    · rw [h2 p b (fun z hz => by rw [pinWrite_cfg]; exact hb z (List.mem_cons_of_mem _ hz)),
        pinWrite_bit _ _ _ hw (valid_port hv _) (valid_bit hv _), if_neg (by simp [hb x List.mem_cons_self])]

/-- `LatchesDrive` looks at the configuration and the latches only. -/
theorem latchesDrive_congr {s t u : State} {l : List (Pin × Bool)} (h : LatchesDrive s t l) (hc : u.cfg = t.cfg)
    (ho : u.out = t.out) : LatchesDrive s u l := by
  refine ⟨fun x hx => (asserted_congr hc ho x.1).trans (h.1 x hx), fun p b hb => ?_⟩
  rw [← h.2 p b hb]
  simp only [State.latch, ho]

/-- The twelve de-assertions as one list of PinWrites. -/
theorem deassertOutputs_eq (s : State) : deassertOutputs s = driveAll (outputPins.map fun n => (n, false)) s := rfl

/-! ### Shapes: an operation as one record update, whatever the configuration -/

/-- A PinWrite changes the latches and the history only, and keeps `LatchesOk`. -/
theorem pinWrite_shape (n : Pin) (a : Bool) (s : State) :
    ∃ o tr, pinWrite n a s = { s with out := o, io.trace := tr } ∧
      (LatchesOk s → Memory.wf o ∧ ∀ c ∈ o, c.1 < s.cfg.nports) := by
  by_cases h : s.handleOk (pinOf s.cfg n).port = true
  · refine ⟨(pinWrite n a s).out, (pinWrite n a s).io.trace, by simp [pinWrite, portWrite, h, logAccess],
      fun hl => ⟨pinWrite_wf _ _ _ hl.1, ?_⟩⟩
    simpa using pinWrite_ports n a s hl.2
  · exact ⟨s.out, s.io.trace, by simp [pinWrite, portWrite, h], id⟩

/-- The twelve de-assertions likewise. -/
theorem deassertOutputs_shape (s : State) :
    ∃ o tr, deassertOutputs s = { s with out := o, io.trace := tr } ∧
      (LatchesOk s → Memory.wf o ∧ ∀ c ∈ o, c.1 < s.cfg.nports) := by
  unfold deassertOutputs
  generalize outputPins = l
  induction l generalizing s with
  | nil => exact ⟨s.out, s.io.trace, rfl, id⟩
  | cons n l ih =>
    obtain ⟨o, tr, h1, h2⟩ := pinWrite_shape n false s
    rw [List.foldl_cons, h1]
    obtain ⟨o', tr', h1', h2'⟩ := ih { s with out := o, io.trace := tr }
    exact ⟨o', tr', h1', fun h => h2' (h2 h)⟩

/-- A PinRead changes the answers and the history only. -/
theorem pinRead_shape (n : Pin) (s : State) :
    ∃ w, (pinRead n s).2 = { s with io := w } ∧ w.rst = s.io.rst ∧ w.encLine = s.io.encLine := by
  simp only [pinRead, portRead_eq]
  exact ⟨_, rfl, rfl, rfl⟩

/-- Sampling an encoder line sets its previous level and clears its accumulator. -/
theorem sampleEncoder_shape (i : Fin 2) (s : State) (hv : validConfig s.cfg = true) :
    ∃ w e, sampleEncoder i s = { s with io := w, enc := e } ∧ w.rst = s.io.rst ∧ w.encLine = s.io.encLine ∧
      e.prev = s.enc.prev.set i (PinCfg.logical (pinOf s.cfg (.enc i)) s.io.encLine[i]) ∧
      e.acc = s.enc.acc.set i 0 := by
  simp only [sampleEncoder, pinRead_enc hv]
  exact ⟨_, _, rfl, rfl, rfl, rfl, rfl⟩

end Sys2Proof.Machine
end

