-- ==== Sys2Proof/Laws/PerInstr.lean ====
section
/-! SUPPORT. A fact about every command as syntax: its word is in the match/mask table of 30_encoding.md R63, under its
own mnemonic. -/

namespace Sys2Proof.Laws

open Sys2Proof

/-- The word of a legal command matches a row of the table, and the row has the command's mnemonic. -/
def EncodesRow.Statement (i : Instr) : Prop :=
  i.WellFormed → ∃ r ∈ opcodeTable, r.mnemonic = i.mnemonic ∧ r.matchesWord (encode i) = true

/-- A command without operands matches its row, the word itself. -/
theorem EncodesRow.fixed (i : Instr)
    (h : (opcodeTable.any fun r => r.mnemonic == i.mnemonic && r.matchesWord (encode i)) = true) :
    EncodesRow.Statement i := by
  intro _
  obtain ⟨r, hr, hm⟩ := List.any_eq_true.mp h
  simp only [Bool.and_eq_true, beq_iff_eq] at hm
  exact ⟨r, hr, hm⟩

theorem EncodesRow.nop : EncodesRow.Statement .nop := EncodesRow.fixed _ (by decide)

theorem EncodesRow.init : EncodesRow.Statement .init := EncodesRow.fixed _ (by decide)

theorem EncodesRow.adcs : EncodesRow.Statement .adcs := EncodesRow.fixed _ (by decide)

theorem EncodesRow.capm : EncodesRow.Statement .capm := EncodesRow.fixed _ (by decide)

theorem EncodesRow.rscan : EncodesRow.Statement .rscan := EncodesRow.fixed _ (by decide)

theorem EncodesRow.swp : EncodesRow.Statement .swp := EncodesRow.fixed _ (by decide)

theorem EncodesRow.frame : EncodesRow.Statement .frame := EncodesRow.fixed _ (by decide)

theorem EncodesRow.abort : EncodesRow.Statement .abort := EncodesRow.fixed _ (by decide)

/-- The masked word, field by field. -/
theorem wordOf_and (a b c d a' b' c' d' : Byte) :
    wordOf a b c d &&& wordOf a' b' c' d' = wordOf (a &&& a') (b &&& b') (c &&& c') (d &&& d') := by
  show ((a ++ b ++ c ++ d : BitVec (8 + 8 + 8 + 8)) &&& (a' ++ b' ++ c' ++ d' : BitVec (8 + 8 + 8 + 8)) : BitVec _) = _
  rw [BitVec.and_append, BitVec.and_append, BitVec.and_append]
  rfl

/-- A field that is 0 or 1 has no bit but bit 0. -/
theorem small_masked (x : Byte) (h : x.toNat ≤ 1) : x &&& 0xFE#8 = 0 := by
  have hx : x = BitVec.ofNat 8 x.toNat := by simp
  obtain h0 | h1 : x.toNat = 0 ∨ x.toNat = 1 := by omega
  · rw [hx, h0]; decide
  · rw [hx, h1]; decide

theorem EncodesRow.prd (p : Byte) : EncodesRow.Statement (.prd p) := by
  intro _
  refine ⟨⟨"PRD", wordOf 0x02 0 0 0, wordOf 0xFF 0 0xFF 0xFF⟩, by decide, rfl, ?_⟩
  simp [OpcodeRow.matchesWord, encode, wordOf_and]

theorem EncodesRow.pwr (p m v : Byte) : EncodesRow.Statement (.pwr p m v) := by
  intro _
  refine ⟨⟨"PWR", wordOf 0x03 0 0 0, wordOf 0xFF 0 0 0⟩, by decide, rfl, ?_⟩
  simp [OpcodeRow.matchesWord, encode, wordOf_and]

theorem EncodesRow.edrn (ch : Byte) : EncodesRow.Statement (.edrn ch) := by
  intro h
  have hc : ch.toNat ≤ 1 := by simpa [Instr.WellFormed, Instr.wellFormed, channelOk] using h
  refine ⟨⟨"EDRN", wordOf 0x13 0 0 0, wordOf 0xFF 0xFE 0xFF 0xFF⟩, by decide, rfl, ?_⟩
  have hm := small_masked ch hc
  simp_all [OpcodeRow.matchesWord, encode, wordOf_and]

theorem EncodesRow.mset (ch : Byte) (s : BitVec 16) : EncodesRow.Statement (.mset ch s) := by
  intro h
  have hc : ch.toNat ≤ 1 := by simpa [Instr.WellFormed, Instr.wellFormed, channelOk] using h
  refine ⟨⟨"MSET", wordOf 0x20 0 0 0, wordOf 0xFF 0xFE 0 0⟩, by decide, rfl, ?_⟩
  have hm := small_masked ch hc
  simp_all [OpcodeRow.matchesWord, encode, wordOf_and]

theorem EncodesRow.rset (ch st : Byte) : EncodesRow.Statement (.rset ch st) := by
  intro h
  simp only [Instr.WellFormed, Instr.wellFormed, channelOk, relayStateOk, Bool.and_eq_true, decide_eq_true_eq] at h
  refine ⟨⟨"RSET", wordOf 0x21 0 0 0, wordOf 0xFF 0xFE 0xFF 0xFE⟩, by decide, rfl, ?_⟩
  have hm := small_masked ch h.1
  have hs := small_masked st h.2
  simp_all [OpcodeRow.matchesWord, encode, wordOf_and]

end Sys2Proof.Laws
end

