-- ==== Sys2Proof/Machine/Asm.lean ====
section
/-! DEFINITION. The textual form of a command and the pseudo-commands (30_encoding.md R68, R69), in the direction a
reader of a program needs: a command to its line, a pseudo-command to its command. -/

namespace Sys2Proof.Machine

open Sys2Proof

/-- The line of a command (R68): the lower-case mnemonic and the operands in decimal, separated by commas. -/
def asmLine : Instr → String
  | .nop => "nop"
  | .init => "init"
  | .prd p => "prd " ++ toString p.toNat
  | .pwr p m v => "pwr " ++ toString p.toNat ++ ", " ++ toString m.toNat ++ ", " ++ toString v.toNat
  | .adcs => "adcs"
  | .capm => "capm"
  | .rscan => "rscan"
  | .edrn ch => "edrn " ++ toString ch.toNat
  | .swp => "swp"
  | .mset ch s => "mset " ++ toString ch.toNat ++ ", " ++ toString s.toInt
  | .rset ch st => "rset " ++ toString ch.toNat ++ ", " ++ toString st.toNat
  | .frame => "frame"
  | .abort => "abort"

/-- `mstop ch` (R69). -/
def mstop (ch : Byte) : Instr := .mset ch 0

/-- `ron ch` (R69). -/
def ron (ch : Byte) : Instr := .rset ch 1

/-- `roff ch` (R69). -/
def roff (ch : Byte) : Instr := .rset ch 0

/-- `pset p, bits` (R69). -/
def pset (p bits : Byte) : Instr := .pwr p bits bits

/-- `pclr p, bits` (R69). -/
def pclr (p bits : Byte) : Instr := .pwr p bits 0

end Sys2Proof.Machine
end

