-- ==== Sys2Proof/Tests/Slice0.lean ====
section
/-! SUPPORT. The model's own tests: what WellFormed and the decoder refuse, words written out bit by bit from
30_encoding.md R61 to R64, single steps with the results of 95_test_vectors.md, and for every statement with hypotheses
a witness that meets them. -/

namespace Sys2Proof.Tests

open Sys2Proof Sys2Proof.Machine

/- Each kernel evaluation below waits for the declarations before it: one after another, they need no threads. -/
set_option Elab.async false

/-! ### WellFormed refuses each ill-formed field (R64) -/

theorem test_wf_edrn_channel : (Instr.edrn 2).wellFormed = false := by decide
theorem test_wf_mset_channel : (Instr.mset 2 300).wellFormed = false := by decide
theorem test_wf_rset_channel : (Instr.rset 2 1).wellFormed = false := by decide
theorem test_wf_rset_state : (Instr.rset 0 2).wellFormed = false := by decide
theorem test_wf_any_handle : (Instr.prd 255).wellFormed = true := by decide

/-! ### Words written from the encoding, op, a, b, c from the left (R61, R62; 95 section 3.1) -/

theorem test_decode_nop : decode (0b00000000#8 ++ 0b00000000#8 ++ 0b00000000#8 ++ 0b00000000#8) = .legal .nop := by decide
theorem test_decode_init : decode (0b00000001#8 ++ 0b00000000#8 ++ 0b00000000#8 ++ 0b00000000#8) = .legal .init := by decide
theorem test_decode_prd : decode (0b00000010#8 ++ 0b00000011#8 ++ 0b00000000#8 ++ 0b00000000#8) = .legal (.prd 3) := by decide
theorem test_decode_pwr : decode (0b00000011#8 ++ 0b00000010#8 ++ 0b01000000#8 ++ 0b01000001#8) = .legal (.pwr 2 0x40 0x41) := by decide
theorem test_decode_adcs : decode (0b00010000#8 ++ 0b00000000#8 ++ 0b00000000#8 ++ 0b00000000#8) = .legal .adcs := by decide
theorem test_decode_capm : decode (0b00010001#8 ++ 0b00000000#8 ++ 0b00000000#8 ++ 0b00000000#8) = .legal .capm := by decide
theorem test_decode_rscan : decode (0b00010010#8 ++ 0b00000000#8 ++ 0b00000000#8 ++ 0b00000000#8) = .legal .rscan := by decide
theorem test_decode_edrn : decode (0b00010011#8 ++ 0b00000001#8 ++ 0b00000000#8 ++ 0b00000000#8) = .legal (.edrn 1) := by decide
theorem test_decode_swp : decode (0b00010100#8 ++ 0b00000000#8 ++ 0b00000000#8 ++ 0b00000000#8) = .legal .swp := by decide
theorem test_decode_mset : decode (0b00100000#8 ++ 0b00000001#8 ++ 0b11111111#8 ++ 0b10011100#8) = .legal (.mset 1 (-100)) := by decide
theorem test_decode_rset : decode (0b00100001#8 ++ 0b00000001#8 ++ 0b00000000#8 ++ 0b00000000#8) = .legal (.rset 1 0) := by decide
theorem test_decode_frame : decode (0b00110000#8 ++ 0b00000000#8 ++ 0b00000000#8 ++ 0b00000000#8) = .legal .frame := by decide
theorem test_decode_abort : decode (0b00111111#8 ++ 0b00000000#8 ++ 0b00000000#8 ++ 0b00000000#8) = .legal .abort := by decide

/-- The encoder writes the words of 95 section 3.1. -/
theorem test_encode_words :
    encode (.mset 0 300) = 0x2000012C ∧ encode (.mset 0 (-32768)) = 0x20008000 ∧ encode (.rset 0 1) = 0x21000001 ∧
      encode (.pwr 255 0xFF 0xFF) = 0x03FFFFFF := by decide

/-- The illegal words of 95 section 3.1. -/
theorem test_decode_illegal :
    ([0x00000001, 0x01010000, 0x02030001, 0x02030100, 0x10000001, 0x13020000, 0x13000100, 0x20020000, 0x21000002,
      0x21020001, 0x21000101, 0x30000100, 0x3F000001, 0x04000000, 0x0F000000, 0x15000000, 0x22000000, 0x3E000000,
      0x40000000, 0xFF000000] : List Word).all (fun w => (decode w).toOption == none) = true := by decide

/-- The table's numbering: the one word is bits 31..0. -/
theorem test_decodeTableWord : decodeTableWord 32 0x13010000 = some (.edrn 1) := by decide

/-! ### Small states -/

/-- READY and idle, right after INIT under CFG_EX: CS and RD (active low) rest high. -/
def ready : State :=
  { State.reset with status.mode := .ready, status.driveEn := true, out := [(1, 0x03)] }

/-- `ready` with command `i` accepted. -/
def running (i : Instr) : State := accept i (encode i) ready

/-- The environment will answer `l`. -/
def answering (l : List Answer) (s : State) : State := { s with io.answers := l }

/-- The next event is `e`. -/
def pending (e : Event) (s : State) : State := { s with io.events := [e] }

/-- A port read answered by `x`. -/
def portIs (x : Byte) : Answer := { levels := x, ok := true, value := 0 }

/-- An analog read answered by `v`. -/
def analogIs (v : BitVec 16) : Answer := { levels := 0, ok := true, value := v }

/-- A read that fails. -/
def unavailable : Answer := { levels := 0xFF, ok := false, value := 0xFFFF }

/-- Some field of the next state. -/
def after {α : Type} (o : Host.Outcome State Fault Refusal) (f : State → α) : Option α :=
  match o with
  | .next t => some (f t)
  | .fault _ => none
  | .refused _ => none

theorem configExample_valid : validConfig configExample = true := by decide +kernel

/-! ### One step each, with the results of 95_test_vectors.md -/

theorem test_nop_step : after (step (running .nop)) (statusWord ·) = some 0x0021#16 := by decide +kernel

/-- Section 3.3: the latches and the status after INIT, both encoder lines read. -/
theorem test_init_step :
    after (step (answering [portIs 0x24, portIs 0x24] (State.reset.withFetchWord 32 0x01000000)))
        (fun t => (statusWord t, t.out, t.io.trace.length)) = some (0x0021#16, [(1, 0x03#8)], 14) := by
  decide +kernel

/-- Section 3.3: SW2 missing. -/
theorem test_init_refuses_missing_pin :
    after (exec .init (State.resetWith
          { configExample with sw := configExample.sw.set 2 { highPin 3 2 with present := false } } World.start))
        (fun t => (statusWord t, t.status.esticky, t.out)) = some (0x0102#16, 0x002#9, []) := by decide +kernel

/-- Section 3.3: prd 1, the non-output pins all 1 (encoder lines high). -/
theorem test_prd_mixes_latch_and_lines :
    after (step { answering [portIs 0xFF] (running (.prd 1)) with
        io.encLine := Vector.replicate 2 true, io.answers := [portIs 0xFF] }) (fun t => (t.res.port, t.io.trace)) =
      some (0x1E7#9, [.read 1 0xE7]) := by decide +kernel

/-- Section 3.3: prd 8 is fatal. -/
theorem test_prd_invalid_handle :
    after (step (running (.prd 8))) (fun t => (statusWord t, t.status.esticky, t.io.trace.length)) =
      some (0x0222#16, 0x004#9, 12) := by decide +kernel

/-- Section 3.3: pwr 6, 0x0F, 0xFF over 0xA5. -/
theorem test_pwr_mask :
    after (step { running (.pwr 6 0x0F 0xFF) with out := [(1, 0x03), (6, 0xA5)] }) (·.out) =
      some [(1, 0x03#8), (6, 0xAF#8)] := by decide +kernel

/-- Section 2.8, step 5: RD asserted, then the data bus read under it. -/
theorem test_adcs_latches_under_rd :
    after (exec .adcs (answering [portIs 0xB2]
          { running .adcs with seq.adcState := .assertRd, out := [(1, 0x02)] }))
        (fun t => (t.adc.latch, t.out, t.io.trace)) =
      some (0xB2#8, [], [.write 1 0x02 0x00, .read 0 0xB2]) := by decide +kernel

/-- Section 3.4: the last allowed poll without INT is the timeout. -/
theorem test_adcs_timeout :
    after (exec .adcs (answering [portIs 0x26]
          { running .adcs with seq.adcState := .awaitConversion, adc := { polls := 4, err := false, latch := 0 } }))
        (fun t => (t.adc.polls, t.seq.adcState, t.status.cause)) =
      some (5#16, .deassertRd, some .conversionTimeout) := by decide +kernel

/-- Section 2.9, step 9: T = 3 is below 6. -/
theorem test_capm_contact :
    after (exec .capm { running .capm with seq.capState := .compute, out := [(1, 0x13)],
                                           cap := { timer := 3, elapsed := 3, timedOut := false } })
        (fun t => (t.res.cap, t.out)) = some (0x50003#19, [(1, 0x03#8)]) := by decide +kernel

/-- Section 3.5: no crossing at the last poll is the timeout, and no cause is recorded. -/
theorem test_capm_timeout :
    after (exec .capm (answering [analogIs 511]
          { running .capm with seq.capState := .sample, cap := { timer := 9, elapsed := 0, timedOut := false } }))
        (fun t => (t.cap, t.seq.capState, t.status.cause)) =
      some ({ timer := 10, elapsed := 10, timedOut := true }, .compute, none) := by decide +kernel

/-- Section 3.6: an unavailable channel carries the sentinel. -/
theorem test_rscan_unavailable :
    after (step (answering [unavailable] { running .rscan with seq.reflIdx := 3 }))
        (fun t => (t.res.refl[3], t.seq.reflIdx, statusWord t)) =
      some (0x0FFFF#17, 4, 0x0425#16) := by decide +kernel

/-- Section 2.7: channel 7 reads 1000. -/
theorem test_rscan_reading :
    after (step (answering [analogIs 1000] { running .rscan with seq.reflIdx := 7 })) (·.res.refl[7]) =
      some 0x103E8#17 := by decide +kernel

/-- Section 2.5: three ticks drained. -/
theorem test_edrn_drains :
    after (step { running (.edrn 0) with enc.acc := #v[3, 5] }) (fun t => (t.res.enc[0], t.enc.acc)) =
      some (0x10003#17, #v[0#16, 5#16]) := by decide +kernel

/-- Section 2.10: the accumulator saturates. -/
theorem test_encoder_saturates :
    after (step (pending (.encLine 0 true) { ready with enc.acc := #v[32767, 0] })) (fun t => (t.enc.acc, t.enc.prev)) =
      some (#v[32767#16, 0#16], #v[true, false]) := by decide +kernel

/-- Section 2.6: the third poll of the hold is reported. -/
theorem test_swp_third_poll :
    after (step (answering [portIs 0xFE, portIs 0xFE, portIs 0xFE, portIs 0xFE]
          { running .swp with sw.cnt := #v[2, 0, 0, 0] })) (fun t => (t.res.sw, t.sw.cnt)) =
      some (0x1F1#9, #v[0#8, 0#8, 0#8, 0#8]) := by decide +kernel

/-- Section 3.8: an unreadable switch loses its count and its avail bit. -/
theorem test_swp_unreadable :
    after (step (answering [portIs 0xFF, unavailable, portIs 0xFF, portIs 0xFF]
          { running .swp with sw.cnt := #v[0, 2, 0, 0] })) (fun t => (t.res.sw, t.sw.cnt, statusWord t)) =
      some (0x1D0#9, #v[0#8, 0#8, 0#8, 0#8], 0x0421#16) := by decide +kernel

/-- Section 2.10: mset 0, -32768 clamps to 255, direction asserted. -/
theorem test_mset_clamps :
    after (step (running (.mset 0 (-32768)))) (fun t => (t.duty, t.out)) =
      some (#v[255#8, 0#8], [(1, 0x03#8), (2, 0x07#8)]) := by decide +kernel

/-- Speed zero: gate and enable off, direction kept (MOTOR_IDLE_EN = 0). -/
theorem test_mset_stops :
    after (step { running (.mset 0 0) with out := [(1, 0x03), (2, 0x07)], duty := #v[255, 9] })
        (fun t => (t.duty, t.out)) = some (#v[0#8, 9#8], [(1, 0x03#8), (2, 0x02#8)]) := by decide +kernel

theorem test_rset_on :
    after (step (running (.rset 1 1))) (·.out) = some [(1, 0x03#8), (2, 0x80#8)] := by decide +kernel

/-- Section 3.10, step 36: the commit. -/
theorem test_frame_commit :
    after (step { running .frame with seq.framePhase := .commit, res.adc := 0x1B2, bank.seq := 0x1FFFF })
        (fun t => (t.bank.adc, t.bank.seq, statusWord t)) = some (0x1B2#9, 0x10000#17, 0x0021#16) := by decide +kernel

/-- Section 3.11: abort in SAMPLE. -/
theorem test_abort_releases :
    after (step { running .abort with out := [(1, 0x13)] }) (fun t => (t.out, statusWord t, t.io.trace)) =
      some ([(1, 0x03#8)], 0x0831#16,
        [.write 1 0x02 0x02, .write 1 0x01 0x01, .write 1 0x08 0x00, .write 1 0x10 0x00]) := by decide +kernel

/-- Section 3.2: three refused writes and one ignored. -/
theorem test_refusals :
    after (step (pending (.hostWrite 0 0x30000000) State.reset)) (statusWord ·) = some 0x0608#16 ∧
      after (step (pending (.hostWrite 0 0x01000000) (running .capm))) (statusWord ·) = some 0x052D#16 ∧
      after (step (pending (.hostWrite 0 0x13020000) (running .capm))) (statusWord ·) = some 0x072D#16 ∧
      after (step (pending (.hostWrite 0 0x04000000) { ready with status.mode := .fatal })) (statusWord ·) =
        some 0x0022#16 := by decide +kernel

/-! ### Witnesses: every statement with hypotheses has a state and operands that meet them all -/

/-- Each of the listed states is inhabited by a next step. -/
theorem isNext {o : Host.Outcome State Fault Refusal} (h : (after o fun _ => ()).isSome = true) : ∃ t, o = .next t := by
  cases o with
  | next t => exact ⟨t, rfl⟩
  | fault r => simp [after] at h
  | refused r => simp [after] at h

theorem wit_DecodeInvertsEncode :
    (Instr.rset 1 1).WellFormed ∧ (Instr.mset 0 (-32768)).WellFormed ∧ (Instr.pwr 255 255 255).WellFormed := by decide

theorem wit_EncodeInvertsDecode : decode 0x2001FF9C = .legal (.mset 1 (-100)) := by decide

theorem wit_LegalWordsMatchOneRow :
    decode 0x13010000 = .legal (.edrn 1) ∧ ∃ r ∈ opcodeTable, r.matchesWord 0x13010000 = true :=
  ⟨by decide, ⟨"EDRN", 0x13000000, 0xFFFEFFFF⟩, by decide, by decide⟩

/-- With nothing pending, and with a tick pending. -/
theorem wit_StepRunsLatchedCommand :
    (TickNext (running .swp) ∧ (running .swp).io.rst = false ∧ (running .swp).seq.busy = true ∧
        decode (running .swp).seq.cmdLatch = .legal .swp) ∧
      TickNext (pending .tick (running .swp)) := by decide

/-- Idle, and held in reset. -/
theorem wit_IdleTickChangesNothing :
    (TickNext ready ∧ ready.seq.busy = false) ∧
      ∃ s : State, TickNext s ∧ s.io.rst = true := ⟨by decide, { ready with io.rst := true }, by decide⟩

/-- The five outcomes: FATAL, illegal word, busy, wrong mode twice, accepted (an ABORT over a busy core, too). -/
theorem wit_CommandWriteOutcome :
    ([(pending (.hostWrite 0 0x30000000) { ready with status.mode := .fatal }), pending (.hostWrite 0 0x04000000) ready,
      pending (.hostWrite 0 0x10000000) (running .capm), pending (.hostWrite 0 0x30000000) State.reset,
      pending (.hostWrite 0 0x01000000) ready, pending (.hostWrite 0 0x13010000) ready,
      pending (.hostWrite 0 0x3F000000) (running .capm)] : List State).all
        (fun s => !s.io.rst && (s.io.events.head? matches some (.hostWrite 0 _))) = true := by decide

theorem wit_OtherHostAccessesChangeNothing :
    ((pending (.hostWrite 0x3F 7) ready).io.events = .hostWrite 0x3F 7 :: [] ∧ (0x3F : BitVec 6) ≠ 0) ∧
      (pending (.hostRead 0x3F) ready).io.events = .hostRead 0x3F :: [] ∧
      0x36 ≤ (0x36 : BitVec 6).toNat ∧ 0x36 ≤ (0x3F : BitVec 6).toNat := by decide

/-- The numbers that are not listed, at both ends of each range. -/
theorem wit_HostRegisterMap :
    ([0x0D, 0x0E, 0x0F, 0x36, 0x3F] : List (BitVec 6)).all (fun n =>
      decide (n = 0x0D ∨ n = 0x0E ∨ n = 0x0F ∨ 0x36 ≤ n.toNat)) = true := by decide

theorem wit_ResetValues : (pending (.rst true) ready).io.events = .rst true :: [] := by decide

/-- A state held in reset. -/
def held : State := { ready with io.rst := true }

/-- Reset to come; its release to come; and held in reset, with a tick, a host write and a line change to come. -/
theorem wit_ResetHoldsEverything :
    (pending (.rst true) ready).io.events = .rst true :: [] ∧
      (pending (.rst false) held).io.events = .rst false :: [] ∧
      (held.io.rst = true ∧ TickNext held) ∧
      ((pending (.hostWrite 0 0) held).io.rst = true ∧
        (pending (.hostWrite 0 0) held).io.events = .hostWrite 0 0 :: []) ∧
      ((pending (.encLine 1 true) held).io.rst = true ∧
        (pending (.encLine 1 true) held).io.events = .encLine 1 true :: []) := by decide

theorem wit_NopChangesOnlyBusy : (running .nop).seq.cmdLatch = encode .nop := by decide

theorem wit_InitWithValidConfig :
    (State.reset.withFetchWord 32 0x01000000).seq.cmdLatch = encode .init ∧
      validConfig (State.reset.withFetchWord 32 0x01000000).cfg = true ∧
      Memory.wf (State.reset.withFetchWord 32 0x01000000).out := by decide +kernel

theorem wit_InitWithInvalidConfig :
    validConfig { configExample with swDebounce := 0 } = false := by decide +kernel

/-- An output pin, both encoder pins, and an input bit, bit 7 among them. -/
theorem wit_PortReadPattern :
    validConfig ready.cfg = true ∧ isOutputPin ready.cfg 2 7 = true ∧ pinIsAt ready.cfg (.enc 0) 1 6 = true ∧
      pinIsAt ready.cfg (.enc 1) 1 7 = true ∧ isOutputPin ready.cfg 3 0 = false ∧
      ∀ i : Fin 2, pinIsAt ready.cfg (.enc i) 3 0 = false := by decide +kernel

/-- The highest handle. -/
theorem wit_PrdReturnsPort :
    (running (.prd 7)).seq.cmdLatch = encode (.prd 7) ∧ (7 : Byte).toNat < (running (.prd 7)).cfg.nports := by decide

theorem wit_PwrWritesUnderMask :
    (running (.pwr 7 0x0F 0xFF)).seq.cmdLatch = encode (.pwr 7 0x0F 0xFF) ∧
      (7 : Byte).toNat < (running (.pwr 7 0x0F 0xFF)).cfg.nports ∧ Memory.wf (running (.pwr 7 0x0F 0xFF)).out := by
  decide

/-- The lowest handle out of range, in both commands. -/
theorem wit_InvalidHandleIsFatal :
    (∀ i : Instr, i = .prd 8 ∨ i = .pwr 8 0 0 → (i = .prd 8 ∨ ∃ m v, i = .pwr 8 m v)) ∧
      ready.cfg.nports ≤ (8 : Byte).toNat ∧ validConfig ready.cfg = true ∧ Memory.wf ready.out := by
  refine ⟨fun i h => ?_, by decide, configExample_valid, by decide⟩
  rcases h with h | h
  · exact .inl h
  · exact .inr ⟨0, 0, h⟩

theorem wit_PwmPinShowsDuty :
    State.reset.status.driveEn = false ∧ ready.status.driveEn = true ∧ validConfig ready.cfg = true := by decide +kernel

/-- The five visits of the handshake. -/
theorem wit_AdcSteps :
    ([.assertCs, .awaitConversion, .assertRd, .deassertRd, .deassertCs] : List AdcState).all (fun a =>
      decide (({ running .adcs with seq.adcState := a } : State).seq.cmdLatch = encode .adcs ∧
        Memory.wf ({ running .adcs with seq.adcState := a } : State).out)) = true ∧
      validConfig (running .adcs).cfg = true := by decide +kernel

/-- A poll: seen, the last one unseen, and one more to come. -/
theorem wit_AdcPollsInt_branches :
    seesAsserted configExample .adcInt (portIs 0x20) = true ∧ seesAsserted configExample .adcInt (portIs 0x24) = false ∧
      configExample.adcTimeout ≤ ((4 : BitVec 16) + 1).toNat ∧ ¬ configExample.adcTimeout ≤ ((3 : BitVec 16) + 1).toNat := by
  decide

/-- A handshake in flight at its start. -/
abbrev AdcAtStart (s : State) : Prop :=
  InFlight s .adcs ∧ s.seq.adcState = .assertCs ∧ s.adc = { polls := 0, err := false, latch := 0 } ∧
    validConfig s.cfg = true ∧ Memory.wf s.out

/-- INT seen at the first and at the last allowed poll. -/
theorem wit_AdcHandshakeSucceeds :
    (let s := answering [portIs 0x20, portIs 0xB2] (running .adcs)
     AdcAtStart s ∧ 1 ≤ s.cfg.adcTimeout ∧ seesAsserted s.cfg .adcInt (s.answerAt 0) = true) ∧
      (let s := answering [portIs 0x24, portIs 0x24, portIs 0x24, portIs 0x24, portIs 0x20, portIs 0xB2] (running .adcs)
       AdcAtStart s ∧ 5 ≤ s.cfg.adcTimeout ∧ (∀ j < 4, seesAsserted s.cfg .adcInt (s.answerAt j) = false) ∧
         seesAsserted s.cfg .adcInt (s.answerAt 4) = true) := by decide +kernel

theorem wit_AdcHandshakeTimesOut :
    let s := answering (List.replicate 5 (portIs 0x24)) (running .adcs)
    AdcAtStart s ∧ ∀ j < s.cfg.adcTimeout, seesAsserted s.cfg .adcInt (s.answerAt j) = false := by decide +kernel

/-- The four visits of the cycle; DISCHARGE on its first, a middle and its last tick. -/
theorem wit_CapSteps :
    ([.discharge, .charge, .sample, .compute] : List CapState).all (fun a =>
      decide (({ running .capm with seq.capState := a } : State).seq.cmdLatch = encode .capm ∧
        Memory.wf ({ running .capm with seq.capState := a } : State).out)) = true ∧
      validConfig (running .capm).cfg = true ∧ (0 : BitVec 16).toNat ≠ configExample.capSettle ∧
      (1 : BitVec 16).toNat ≠ configExample.capSettle ∧ (2 : BitVec 16).toNat = configExample.capSettle := by
  decide +kernel

/-- A poll: crossed at the threshold, the last one below it, and one more to come. -/
theorem wit_CapSamplePolls_branches :
    configExample.capVthresh ≤ (analogIs 512).value.toNat % 2 ^ configExample.analogWidth ∧
      ¬ configExample.capVthresh ≤ (analogIs 511).value.toNat % 2 ^ configExample.analogWidth ∧
      ((9 : BitVec 16) + 1).toNat = configExample.capTimeout ∧ ((8 : BitVec 16) + 1).toNat ≠ configExample.capTimeout := by
  decide

/-- A cycle in flight at its start. -/
abbrev CapAtStart (s : State) : Prop :=
  InFlight s .capm ∧ s.seq.capState = .discharge ∧ s.cap = { timer := 0, elapsed := 0, timedOut := false } ∧
    validConfig s.cfg = true ∧ Memory.wf s.out

/-- The crossing at poll 0, and at the last one. -/
theorem wit_CapCycleCrosses :
    (let s := answering [analogIs 512] (running .capm)
     CapAtStart s ∧ 0 < s.cfg.capTimeout ∧ answerCrosses s.cfg (s.answerAt 0) = true) ∧
      (let s := answering (List.replicate 9 (analogIs 511) ++ [analogIs 512]) (running .capm)
       CapAtStart s ∧ 9 < s.cfg.capTimeout ∧ (∀ j < 9, answerCrosses s.cfg (s.answerAt j) = false) ∧
         answerCrosses s.cfg (s.answerAt 9) = true) := by decide +kernel

theorem wit_CapCycleTimesOut :
    let s := answering (List.replicate 10 unavailable) (running .capm)
    CapAtStart s ∧ ∀ j < s.cfg.capTimeout, answerCrosses s.cfg (s.answerAt j) = false := by decide +kernel

/-- The first and the last channel. -/
theorem wit_ScanReadsOneChannel :
    (running .rscan).seq.cmdLatch = encode .rscan ∧
      ({ running .rscan with seq.reflIdx := 15 } : State).seq.cmdLatch = encode .rscan := by decide

/-- With every channel available, and with channel 15 unavailable. -/
theorem wit_ScanReadsSixteenInOrder :
    (let s := answering (List.replicate 16 (analogIs 1000)) (running .rscan)
     InFlight s .rscan ∧ s.seq.reflIdx = 0 ∧ ∀ k < 16, (s.answerAt k).ok = true) ∧
      (let s := answering (List.replicate 15 (analogIs 1000) ++ [unavailable]) (running .rscan)
       InFlight s .rscan ∧ s.seq.reflIdx = 0 ∧ (s.answerAt 15).ok = false) := by decide +kernel

/-- A change that counts, and one to the level already there, at the top of the accumulator. -/
theorem wit_EdgeIsCaptured :
    let s : State := { ready with enc.acc := Vector.replicate 2 32767 }
    (pending (.encLine 1 true) s).io.events = .encLine 1 true :: [] ∧
      (pending (.encLine 1 false) s).io.events = .encLine 1 false :: [] ∧ s.status.mode = .ready ∧ s.io.rst = false := by
  decide

theorem wit_EdgeOutsideReadyIsLost :
    (pending (.encLine 0 true) State.reset).io.events = .encLine 0 true :: [] ∧ State.reset.status.mode ≠ .ready := by
  decide

/-- The last visits inside a FRAME, where the statements of the single steps hold too. -/
theorem wit_StepsInsideFrame :
    ([{ running .frame with seq.framePhase := .adc, seq.adcState := .deassertCs },
      { running .frame with seq.framePhase := .capacitive, seq.capState := .compute },
      { running .frame with seq.framePhase := .scan, seq.reflIdx := 15 }] : List State).all (fun s =>
        decide (s.seq.cmdLatch = encode .frame ∧ Memory.wf s.out) && validConfig s.cfg) = true := by decide +kernel

theorem wit_DrainReadsAndClears : (running (.edrn 1)).seq.cmdLatch = encode (.edrn (BitVec.ofNat 8 (1 : Fin 2).val)) := by
  decide

theorem wit_SwitchPollDebounces :
    (running .swp).seq.cmdLatch = encode .swp ∧ validConfig (running .swp).cfg = true := by decide +kernel

/-- With the shortest and the longest debounce. -/
theorem wit_DebounceNeedsFullRun :
    ready.sw.cnt[3] = 0 ∧ 1 ≤ ready.cfg.swDebounce ∧
      ({ configExample with swDebounce := 1 } : Config).swDebounce = 1 ∧
      ({ configExample with swDebounce := 255 } : Config).swDebounce ≤ 255 := by decide

/-- The states before successive polls, the port of the switches reading `x k` at the `k`-th. -/
def polling (x : Nat → Byte) : Nat → State
  | 0 => answering (List.replicate 4 (portIs (x 0))) (running .swp)
  | k + 1 => answering (List.replicate 4 (portIs (x (k + 1)))) (swStep (polling x k))

/-- Two polls of SW3 that differ, of the three that count, and one that agrees. -/
theorem wit_DebounceNeedsFullRun_short :
    let f := polling fun k => if k < 2 then 0x00 else 0xFF
    (f 0).sw.cnt[3] = 0 ∧ validConfig (f 0).cfg = true ∧ 2 < (f 0).cfg.swDebounce ∧
      PollsSee f 3 (2 + 1) (fun k => if k < 2 then !(f 0).sw.stable[3] else (f 0).sw.stable[3]) := by
  refine ⟨by decide +kernel, by decide +kernel, by decide +kernel, fun k hk => ⟨?_, ?_, _, rfl, rfl, rfl⟩⟩ <;>
    interval_cases k <;> decide +kernel

/-- Five polls of SW3 that differ from the level reported at first: the third one is reported. -/
theorem wit_DebounceNeedsFullRun_long :
    let f := polling fun _ => 0x00
    (f 0).sw.cnt[3] = 0 ∧ validConfig (f 0).cfg = true ∧ (f 0).cfg.swDebounce = 3 ∧
      PollsSee f 3 5 (fun _ => !(f 0).sw.stable[3]) := by
  refine ⟨by decide +kernel, by decide +kernel, by decide +kernel, fun k hk => ⟨?_, ?_, _, rfl, rfl, rfl⟩⟩ <;>
    interval_cases k <;> decide +kernel

theorem wit_MotorDrives :
    (1 : BitVec 16) ≠ 0 ∧ (0x8000 : BitVec 16) ≠ 0 ∧
      (running (.mset 1 0x8000)).seq.cmdLatch = encode (.mset (BitVec.ofNat 8 (1 : Fin 2).val) 0x8000) ∧
      validConfig (running (.mset 1 0x8000)).cfg = true ∧ Memory.wf (running (.mset 1 0x8000)).out := by decide +kernel

theorem wit_MotorStops :
    (running (.mset 1 0)).seq.cmdLatch = encode (.mset (BitVec.ofNat 8 (1 : Fin 2).val) 0) ∧
      validConfig (running (.mset 1 0)).cfg = true ∧ Memory.wf (running (.mset 1 0)).out := by decide +kernel

theorem wit_RelayFollowsCommand :
    (running (.rset 0 1)).seq.cmdLatch = encode (.rset (BitVec.ofNat 8 (0 : Fin 2).val) (if true then 1 else 0)) ∧
      (running (.rset 1 0)).seq.cmdLatch = encode (.rset (BitVec.ofNat 8 (1 : Fin 2).val) (if false then 1 else 0)) ∧
      validConfig (running (.rset 0 1)).cfg = true ∧ Memory.wf (running (.rset 0 1)).out := by decide +kernel

/-- Every phase, and the latch of a FRAME and of another command. -/
theorem wit_FramePhases :
    ([.scan, .drain0, .drain1, .switches, .capacitive, .adc, .commit] : List FramePhase).all (fun p =>
      decide (({ running .frame with seq.framePhase := p } : State).seq.framePhase = p ∧
        ({ running .frame with seq.framePhase := p } : State).seq.cmdLatch = encode .frame)) = true ∧
      (running .swp).seq.cmdLatch = encode .swp := by decide

theorem wit_FrameAlwaysCommits :
    InFlight (running .frame) .frame ∧ (running .frame).seq.framePhase = .scan ∧ (running .frame).seq.reflIdx = 0 ∧
      (running .frame).seq.adcState = .idle ∧ (running .frame).seq.capState = .idle ∧
      validConfig (running .frame).cfg = true ∧ Memory.wf (running .frame).out := by decide +kernel

theorem wit_AbortReleasesLines :
    (running .abort).seq.cmdLatch = encode .abort ∧ validConfig (running .abort).cfg = true ∧
      Memory.wf (running .abort).out := by decide +kernel

/-- A state whose working registers and results are those of reset meets the invariant as soon as its latches, its
position and its mode do. -/
theorem invariant_like_reset {s : State} (hl : LatchesOk s) (hq : SequencerOk s) (hm : ModeOk s)
    (hrst : s.io.rst = false) (ha : s.adc = State.reset.adc) (hc : s.cap = State.reset.cap)
    (hsw : s.sw = State.reset.sw) (he : s.enc = State.reset.enc) (hr : s.res = State.reset.res)
    (hb : s.bank = State.reset.bank) (hst : s.status.cause = none ∧ s.status.esticky = 0)
    (hai : s.seq.adcState = .idle) (hci : s.seq.capState = .idle ∨ s.seq.capState = .discharge) : Invariant s where
  latches := hl
  sequencer := hq
  mode := hm
  resetHeld := by simp [ResetHeld, hrst]
  adc := by simp [AdcBound, ha, hai, State.reset, State.resetWith]
  cap := by rcases hci with h | h <;> simp [CapBound, hc, h, State.reset, State.resetWith]
  sw := by
    intro i
    rw [hsw]
    fin_cases i <;> simp [State.reset, State.resetWith]
  enc := by
    refine ⟨fun i => ?_, fun i => ?_, fun i => ?_⟩
    · rw [he]; fin_cases i <;> decide
    · rw [hr]; fin_cases i <;> decide
    · rw [hb]; fin_cases i <;> decide
  results := by
    refine ⟨fun k => ?_, fun k => ?_, ?_, ?_, fun i => ?_, ?_⟩
    · rw [hr]; fin_cases k <;> decide
    · rw [hb]; fin_cases k <;> decide
    · rw [hr]; decide
    · rw [hr]; decide
    · rw [hr]; fin_cases i <;> decide
    · rw [hr]; decide
  sticky := by simp [StickyOk, hst]

theorem ready_modeOk (s : State) (hc : s.cfg = configExample) (hs : s.status.mode = .ready ∧ s.status.driveEn = true)
    (hio : s.io.rst = false ∧ s.io.encLine = Vector.replicate 2 false) (he : s.enc = State.reset.enc) : ModeOk s := by
  simp only [ModeOk, hs.1]
  refine ⟨hc ▸ configExample_valid, hs.2, hio.1, fun i => ?_⟩
  rw [hc, hio.2, he]
  fin_cases i <;> decide

/-- A state of `ready` with its sequencer at `q`. -/
theorem ready_invariant (q : SeqRegs) (e : List Event) (h : SequencerOk { ready with seq := q, io.events := e })
    (ha : q.adcState = .idle) (hc : q.capState = .idle ∨ q.capState = .discharge) :
    Invariant { ready with seq := q, io.events := e } :=
  invariant_like_reset (show LatchesOk ready by decide) h (ready_modeOk _ rfl ⟨rfl, rfl⟩ ⟨rfl, rfl⟩ rfl) rfl rfl rfl rfl rfl rfl rfl
    ⟨rfl, rfl⟩ ha hc

theorem running_capm_invariant : Invariant (running .capm) :=
  ready_invariant (running .capm).seq [] (by
    show PositionOf .capm (running .capm) ∧ ModeRuns .ready .capm
    decide) rfl (.inr rfl)

theorem running_prd_invariant : Invariant (running (.prd 8)) :=
  ready_invariant (running (.prd 8)).seq [] (by
    show AllIdle (running (.prd 8)) ∧ ModeRuns .ready (.prd 8)
    decide) rfl (.inl rfl)

/-- Four changes, two of them rising, up to the top of the accumulator. -/
theorem wit_TicksCountEdges_alone :
    let s : State := { ready with enc.acc := Vector.replicate 2 32765,
                                  io.events := [true, false, true, false].map (.encLine 0) }
    s.status.mode = .ready ∧ s.io.rst = false ∧ s.io.events = [true, false, true, false].map (.encLine 0) ∧
      s.enc.acc[0].toNat + countedEdges s.cfg s.enc.prev[0]
        ([true, false, true, false].map (PinCfg.logical (pinOf s.cfg (.enc 0)))) = 32767 := by decide

/-- Both lines' changes with host steps and an MSET between them, line 0 one rising change below the top. -/
def interleaved : List Event :=
  [.encLine 0 true, .hostWrite 0 0x20000005, .encLine 1 true, .tick, .encLine 0 false, .hostRead 1, .encLine 0 true]

def interleaving : State :=
  { ready with enc := { ready.enc with acc := Vector.replicate 2 32765 }, io.events := interleaved }

/-- A state in READY whose latch holds neither an EDRN nor a FRAME. -/
def drainsNothing (u : State) : Bool :=
  u.status.mode == .ready &&
    match fetchCommand u with
    | .legal (.edrn _) | .legal .frame => false
    | _ => true

theorem not_drainsNext {u : State} {i : Fin 2} (h : drainsNothing u = true) : ¬ DrainsNext u i := by
  rintro (⟨ch, _, _, _, hf⟩ | ⟨⟨_, _, hf⟩, _⟩) <;> simp [drainsNothing, hf] at h

theorem interleaving_run :
    ([0, 1, 2, 3, 4, 5, 6, 7] : List Nat).all (fun k =>
      after (core.run k interleaving) drainsNothing == some true) = true := by decide +kernel

theorem interleaving_drainsNothing {k : Nat} {u : State} (hk : k ≤ interleaved.length)
    (h : core.run k interleaving = .next u) : drainsNothing u = true := by
  have hr := List.all_eq_true.mp interleaving_run k (by
    simp only [interleaved, List.length_cons, List.length_nil] at hk
    interval_cases k <;> simp)
  rw [h] at hr
  simpa [after] using hr

theorem wit_TicksCountEdges :
    Invariant interleaving ∧ interleaving.io.events = interleaved ++ [] ∧
      (∀ k u, k ≤ interleaved.length → core.run k interleaving = .next u → u.status.mode = .ready) ∧
      (∀ k u, k < interleaved.length → core.run k interleaving = .next u → ¬ DrainsNext u 0) ∧
      interleaving.enc.acc[0].toNat + countedEdges interleaving.cfg interleaving.enc.prev[0]
        (lineLevels interleaving.cfg 0 interleaved) = 32767 := by
  have h := ready_invariant ready.seq interleaved (by show AllIdle ready; decide) rfl (.inl rfl)
  refine ⟨⟨h.latches, h.sequencer, h.mode, h.resetHeld, h.adc, h.cap, h.sw, ⟨?_, h.enc.2.1, h.enc.2.2⟩, h.results,
    h.sticky⟩, rfl, fun k u hk hu => ?_, fun k u hk hu => not_drainsNext (interleaving_drainsNothing hk.le hu), by decide⟩
  · intro i; fin_cases i <;> decide
  · have := interleaving_drainsNothing hk hu
    simp only [drainsNothing, Bool.and_eq_true, beq_iff_eq] at this
    exact this.1

/-- INIT in flight from reset, under configuration `c`. -/
def starting (c : Config) : State := accept .init (encode .init) (State.resetWith c World.start)

theorem starting_invariant (c : Config) : Invariant (starting c) :=
  invariant_like_reset ⟨⟨List.Pairwise.nil, fun _ h => nomatch h⟩, fun _ h => nomatch h⟩
    (by
      have hd : decode (starting c).seq.cmdLatch = .legal .init := (by decide : decode (encode .init) = .legal .init)
      unfold SequencerOk
      rw [if_pos (show (starting c).seq.busy = true from rfl), hd]
      exact ⟨⟨rfl, rfl, rfl, rfl⟩, .inr rfl⟩)
    rfl rfl rfl rfl rfl rfl rfl rfl ⟨rfl, rfl⟩ rfl (.inl rfl)

theorem wit_StepKeepsInvariant : Invariant (running .capm) ∧ ∃ t, step (running .capm) = .next t :=
  ⟨running_capm_invariant, isNext (by decide +kernel)⟩

theorem wit_StepNeverStops : Invariant (running .capm) := running_capm_invariant

/-- A CAPM in flight: DISCHARGE, its lines at rest. -/
theorem wit_StepKeepsPinInvariant :
    Invariant (running .capm) ∧ PinInv (running .capm) ∧ CycleLines (running .capm) ∧
      ¬ PwrTouchesGuarded (running .capm) ∧ ∃ t, step (running .capm) = .next t := by
  refine ⟨running_capm_invariant, ⟨?_, ?_, ?_, ?_⟩, ⟨?_, ?_, ?_⟩, ?_, isNext (by decide +kernel)⟩
  · intro _ _ _; decide +kernel
  · intro _ h; exact absurd h (by decide)
  · intro _; decide +kernel
  · intro _ i; fin_cases i <;> decide +kernel
  · intro _ h; exact absurd h (by decide)
  · intro _ _; decide +kernel
  · intro _ h; exact absurd h (by decide)
  · rintro ⟨p, m, v, ⟨_, _, h⟩, _⟩
    have hd : fetchCommand (running .capm) = .legal .capm := by decide
    rw [hd] at h
    cases h

theorem wit_EveryCommandCompletes :
    Invariant (running .capm) ∧ (running .capm).io.events = [] ∧ (running .capm).seq.busy = true :=
  ⟨running_capm_invariant, rfl, rfl⟩

/-- The five ways: no change, reset, INIT with a valid and with an invalid configuration, a handle out of range. -/
theorem wit_ModeTransitions :
    (Invariant (running .capm) ∧ ∃ t, step (running .capm) = .next t) ∧
      (Invariant (pending (.rst true) ready) ∧ ∃ t, step (pending (.rst true) ready) = .next t) ∧
      (Invariant (starting configExample) ∧ RunsNext (starting configExample) .init ∧
        validConfig (starting configExample).cfg = true ∧ ∃ t, step (starting configExample) = .next t) ∧
      (Invariant (starting { configExample with swDebounce := 0 }) ∧
        RunsNext (starting { configExample with swDebounce := 0 }) .init ∧
        validConfig (starting { configExample with swDebounce := 0 }).cfg = false ∧
        ∃ t, step (starting { configExample with swDebounce := 0 }) = .next t) ∧
      (Invariant (running (.prd 8)) ∧ RunsNext (running (.prd 8)) (.prd 8) ∧ ∃ t, step (running (.prd 8)) = .next t) :=
  ⟨⟨running_capm_invariant, isNext (by decide +kernel)⟩,
    ⟨ready_invariant ready.seq [.rst true] (by show AllIdle ready; decide) rfl (.inl rfl), isNext (by decide +kernel)⟩,
    ⟨starting_invariant _, by decide +kernel, by decide +kernel, isNext (by decide +kernel)⟩,
    ⟨starting_invariant _, by decide +kernel, by decide +kernel, isNext (by decide +kernel)⟩,
    ⟨running_prd_invariant, by decide +kernel, isNext (by decide +kernel)⟩⟩

/-- A bit already sticky, and a step that is no reset. -/
theorem wit_StickyBitsStay :
    let s : State := { running .capm with status.esticky := 0x1FE }
    (∃ t, step s = .next t) ∧ s.io.events.head? ≠ some (.rst true) ∧ s.status.esticky.getLsbD 8 = true :=
  ⟨isNext (by decide +kernel), by decide, by decide⟩

/-- A commit changes the bank. -/
theorem wit_BankChangesOnlyAtCommit :
    ∃ t, step { running .frame with seq.framePhase := .commit } = .next t ∧
      t.bank ≠ ({ running .frame with seq.framePhase := .commit } : State).bank :=
  ⟨_, rfl, by decide⟩

/-- An edge, an INIT, a drain, a FRAME's drains and a reset change the encoder registers. -/
theorem wit_RegistersHaveNamedWriters :
    ([pending (.encLine 0 true) ready,
      { answering [portIs 0x24, portIs 0x24] (starting configExample) with enc.acc := #v[3, 0] },
      { running (.edrn 0) with enc.acc := #v[3, 0] },
      { running .frame with seq.framePhase := .drain0, enc.acc := #v[3, 0] },
      { running .frame with seq.framePhase := .drain1, enc.acc := #v[0, 3] },
      pending (.rst true) { ready with enc.acc := #v[3, 0] }] : List State).all (fun s =>
        after (step s) (fun t => decide (t.enc ≠ s.enc)) == some true) = true := by decide +kernel

/-- An MSET, an INIT, the lowest handle out of range in PRD and in PWR, and a reset change the duty. -/
theorem wit_RegistersHaveNamedWriters_duty :
    ([running (.mset 0 300),
      { answering [portIs 0x24, portIs 0x24] (starting configExample) with duty := #v[1, 0] },
      { running (.prd 8) with duty := #v[1, 0] }, { running (.pwr 8 0 0) with duty := #v[1, 0] },
      pending (.rst true) { ready with duty := #v[1, 0] }] : List State).all (fun s =>
        after (step s) (fun t => decide (t.duty ≠ s.duty)) == some true) = true := by decide +kernel

/-- A tick with an access in it. -/
theorem wit_HistoryOnlyGrows :
    ∃ t, step (running (.rset 0 1)) = .next t ∧ t.io.trace ≠ (running (.rset 0 1)).io.trace :=
  ⟨_, rfl, by decide +kernel⟩

end Sys2Proof.Tests
end

