-- ==== Sys2Proof/Proofs/RegisterWriters.lean ====
section
/-! SUPPORT and PROOF. Which steps write `CFG`, the encoder registers and the duties (00_scope.md R5, 10_state.md R19,
R20, 70_reset_and_hazards.md R257): first what each unit's step leaves alone, then the commands, then the step. -/

namespace Sys2Proof.Machine

open Sys2Proof

/-- Nothing of `CFG`, the encoder registers and the duties differs between `s` and `t`. -/
structure RegistersKept (s t : State) : Prop where
  cfg  : t.cfg = s.cfg
  enc  : t.enc = s.enc
  duty : t.duty = s.duty

theorem RegistersKept.trans {s t u : State} (h : RegistersKept s t) (k : RegistersKept t u) : RegistersKept s u :=
  ⟨k.cfg.trans h.cfg, k.enc.trans h.enc, k.duty.trans h.duty⟩

/-! ### The shared operations -/

theorem complete_registersKept (s : State) : RegistersKept s (complete s) := by constructor <;> simp

theorem pinWrite_registersKept (n : Pin) (a : Bool) (s : State) : RegistersKept s (pinWrite n a s) := by
  constructor <;> simp

/-- Only a run-time fatal clears the duties (R218); no other exception touches the three. -/
theorem raise_registersKept {c : Cause} (h : c ≠ .invalidPortHandle) (s : State) : RegistersKept s (raise c s) := by
  cases c with
  | invalidPortHandle => exact absurd rfl h
  | configurationError | conversionTimeout | channelUnavailable | contractViolation | wrongMode | illegalCommand
  | aborted => exact ⟨rfl, rfl, rfl⟩

/-- No exception writes `CFG` or the encoder registers, the run-time fatal included (R216 to R218). -/
theorem raise_cfg (c : Cause) (s : State) : (raise c s).cfg = s.cfg := by
  by_cases h : c = .invalidPortHandle
  · rw [h, raise_invalidPortHandle]
  · exact (raise_registersKept h s).cfg

theorem raise_enc (c : Cause) (s : State) : (raise c s).enc = s.enc := by
  by_cases h : c = .invalidPortHandle
  · rw [h, raise_invalidPortHandle]
  · exact (raise_registersKept h s).enc

/-! ### The units -/

/-- The poll of INT goes on, sees the conversion, or times out (R102 to R104). -/
theorem adcAwait_registersKept (s : State) : RegistersKept s (adcAwait s) := by
  unfold adcAwait
  dsimp only
  split
  · exact ⟨rfl, rfl, rfl⟩
  · split
    · exact ⟨rfl, rfl, rfl⟩
    · exact ⟨rfl, rfl, rfl⟩

/-- The handshake writes none of the three (R101 to R107). -/
theorem adcStep_registersKept {s t : State} (h : adcStep s = .next t) : RegistersKept s t := by
  unfold adcStep at h
  split at h <;> cases h
  case h_2 => constructor <;> simp [adcAssertCs]
  case h_3 => exact adcAwait_registersKept s
  case h_4 => constructor <;> simp [adcAssertRd]
  case h_5 => constructor <;> simp [adcDeassertRd]
  case h_6 => constructor <;> simp [adcDeassertCs]

/-- The settle count, with or without the first visit's write (R121). -/
theorem capDischargeStep_registersKept (s : State) : RegistersKept s (capDischargeStep s) := by
  have hfirst : RegistersKept s (if s.cap.timer = 0 then pinWrite .capDischarge true s else s) := by
    split
    · exact pinWrite_registersKept _ _ s
    · exact ⟨rfl, rfl, rfl⟩
  unfold capDischargeStep
  dsimp only
  generalize (if s.cap.timer = 0 then pinWrite .capDischarge true s else s) = u at hfirst ⊢
  split <;> exact ⟨hfirst.cfg, hfirst.enc, hfirst.duty⟩

/-- A sample crosses, is the last one, or is neither (R124). -/
theorem capSampleStep_registersKept (s : State) : RegistersKept s (capSampleStep s) := by
  unfold capSampleStep
  dsimp only
  split
  · exact ⟨rfl, rfl, rfl⟩
  · split
    · exact ⟨rfl, rfl, rfl⟩
    · exact ⟨rfl, rfl, rfl⟩

/-- The cycle writes none of the three (R121 to R126). -/
theorem capStep_registersKept {s t : State} (h : capStep s = .next t) : RegistersKept s t := by
  unfold capStep at h
  split at h <;> cases h
  case h_2 => exact capDischargeStep_registersKept s
  case h_3 => constructor <;> simp [capChargeStep]
  case h_4 => exact capSampleStep_registersKept s
  case h_5 => constructor <;> simp [capComputeStep]

theorem storeReflectance_registersKept (k : Fin 16) (ok : Bool) (v : BitVec 16) (s : State) :
    RegistersKept s (storeReflectance k ok v s) := by
  cases ok <;> exact ⟨rfl, rfl, rfl⟩

/-- A scan step writes none of the three (R141, R142). -/
theorem reflStep_registersKept (s : State) : RegistersKept s (reflStep s) := by
  have hstore (ok v) (a : Access) :
      RegistersKept s (storeReflectance s.seq.reflIdx ok v (logAccess a (takeAnswer s))) :=
    have h := storeReflectance_registersKept s.seq.reflIdx ok v (logAccess a (takeAnswer s))
    ⟨h.cfg, h.enc, h.duty⟩
  unfold reflStep
  dsimp only
  split
  · refine RegistersKept.trans ?_ (complete_registersKept _)
    exact (hstore ..).trans ⟨rfl, rfl, rfl⟩
  · exact (hstore ..).trans ⟨rfl, rfl, rfl⟩

theorem debounce_registersKept (i : Fin 4) (raw : Bool) (s : State) : RegistersKept s (debounce i raw s) := by
  unfold debounce
  split
  · exact ⟨rfl, rfl, rfl⟩
  · split <;> exact ⟨rfl, rfl, rfl⟩

theorem pollSwitch_registersKept (p : State × Vector Bool 4) (i : Fin 4) :
    RegistersKept p.1 (pollSwitch p i).1 := by
  unfold pollSwitch
  dsimp only
  split
  · have h := debounce_registersKept i (swRead i p.1).1.2 (swRead i p.1).2
    exact ⟨h.cfg, h.enc, h.duty⟩
  · exact ⟨rfl, rfl, rfl⟩

theorem foldl_pollSwitch_registersKept (l : List (Fin 4)) (p : State × Vector Bool 4) :
    RegistersKept p.1 (l.foldl pollSwitch p).1 := by
  induction l generalizing p with
  | nil => exact ⟨rfl, rfl, rfl⟩
  | cons i l ih => exact (pollSwitch_registersKept p i).trans (ih _)

/-- A poll of the switches writes none of the three (R186). -/
theorem swStep_registersKept (s : State) : RegistersKept s (swStep s) := by
  have hpoll : RegistersKept s (pollSwitches s).1 :=
    foldl_pollSwitch_registersKept [0, 1, 2, 3] (s, Vector.replicate 4 false)
  refine RegistersKept.trans ?_ (complete_registersKept _)
  exact hpoll.trans ⟨rfl, rfl, rfl⟩

/-! ### The commands -/

/-- Command `i` samples or drains the encoder counters in its step from `s`: INIT (R85), EDRN (R155), a FRAME in one of
its two drain phases (R196). -/
def WritesEnc (i : Instr) (s : State) : Prop :=
  i = .init ∨ (∃ ch, i = .edrn ch) ∨ (i = .frame ∧ (s.seq.framePhase = .drain0 ∨ s.seq.framePhase = .drain1))

/-- Command `i` sets or clears a duty in its step from `s`: INIT (R85), MSET (R165), a PRD or PWR whose handle is out of
range (R218). -/
def WritesDuty (i : Instr) (s : State) : Prop :=
  i = .init ∨ (∃ ch v, i = .mset ch v) ∨
    ∃ p : Byte, s.cfg.nports ≤ p.toNat ∧ (i = .prd p ∨ ∃ m v, i = .pwr p m v)

/-- What command `i` may have done to the three registers between `s` and `t`. -/
structure CommandWrites (i : Instr) (s t : State) : Prop where
  cfg  : t.cfg = s.cfg
  enc  : t.enc ≠ s.enc → WritesEnc i s
  duty : t.duty ≠ s.duty → WritesDuty i s

theorem RegistersKept.commandWrites {s t : State} (h : RegistersKept s t) (i : Instr) : CommandWrites i s t :=
  ⟨h.cfg, (absurd h.enc ·), (absurd h.duty ·)⟩

/-- INIT writes both register files when `CFG` is valid, neither when it is not (R85, R217). -/
theorem execInit_writes {s t : State} (h : execInit s = .next t) : CommandWrites .init s t := by
  refine ⟨?_, fun _ => .inl rfl, fun _ => .inl rfl⟩
  obtain rfl := Host.Outcome.next.inj h
  split
  · simp [initValid, sampleEncoder]
  · exact raise_cfg _ s

/-- A port command with its handle in range keeps all three; out of range it clears the duties (R218). -/
theorem handleChecked_writes {i : Instr} {p : Byte} {s u : State} (hi : i = .prd p ∨ ∃ m v, i = .pwr p m v)
    (hu : RegistersKept s u) :
    CommandWrites i s (if s.handleOk (portOf p) then u else raise .invalidPortHandle s) := by
  split
  case isTrue => exact hu.commandWrites i
  case isFalse hbad =>
    have hrange : s.cfg.nports ≤ portOf p := by simpa [State.handleOk] using hbad
    exact ⟨raise_cfg _ s, fun hne => absurd (raise_enc _ s) hne, fun _ => .inr (.inr ⟨p, hrange, hi⟩)⟩

/-- A drain leaves `CFG` and the duties alone (R155). -/
theorem drainEncoder_writes {i : Instr} {s : State} (ch : Fin 2) (hi : WritesEnc i s) :
    CommandWrites i s (drainEncoder ch s) :=
  ⟨by simp [drainEncoder], fun _ => hi, fun hne => absurd (by simp [drainEncoder]) hne⟩

/-- MSET leaves `CFG` and the encoder registers alone (R166, R167). -/
theorem execMset_writes {ch : Byte} {v : BitVec 16} {s t : State} (h : execMset ch v s = .next t) :
    CommandWrites (.mset ch v) s t := by
  have hkeep : t.cfg = s.cfg ∧ t.enc = s.enc := by
    obtain rfl := Host.Outcome.next.inj h
    split
    · simp [stopMotor]
    · simp [driveMotor]
  exact ⟨hkeep.1, fun hne => absurd hkeep.2 hne, fun _ => .inr (.inl ⟨ch, v, rfl⟩)⟩

/-- A FRAME writes what the sub-operation of its phase writes (R196). -/
theorem execFrame_writes {s t : State} (h : execFrame s = .next t) : CommandWrites .frame s t := by
  unfold execFrame at h
  split at h
  case h_1 => cases h
  case h_2 => cases h; exact (reflStep_registersKept s).commandWrites _
  case h_3 hp => cases h; exact drainEncoder_writes 0 (.inr (.inr ⟨rfl, .inl hp⟩))
  case h_4 hp => cases h; exact drainEncoder_writes 1 (.inr (.inr ⟨rfl, .inr hp⟩))
  case h_5 => cases h; exact (swStep_registersKept s).commandWrites _
  case h_6 => exact (capStep_registersKept h).commandWrites _
  case h_7 => exact (adcStep_registersKept h).commandWrites _
  case h_8 =>
    have hcommit : RegistersKept s (commitFrame s) := ⟨rfl, rfl, rfl⟩
    cases h
    exact hcommit.commandWrites _

theorem execAbort_registersKept {s t : State} (h : execAbort s = .next t) : RegistersKept s t := by
  obtain rfl := Host.Outcome.next.inj h
  constructor <;> simp [releaseLines]

/-- What each command's step may write. -/
theorem exec_writes {i : Instr} {s t : State} (h : exec i s = .next t) : CommandWrites i s t := by
  cases i with
  | nop =>
    obtain rfl := Host.Outcome.next.inj h
    exact (complete_registersKept s).commandWrites _
  | init => exact execInit_writes h
  | prd p =>
    obtain rfl := Host.Outcome.next.inj h
    exact handleChecked_writes (.inl rfl) (by constructor <;> simp [readPortResult])
  | pwr p m v =>
    obtain rfl := Host.Outcome.next.inj h
    exact handleChecked_writes (.inr ⟨m, v, rfl⟩) (by constructor <;> simp)
  | adcs => exact (adcStep_registersKept h).commandWrites _
  | capm => exact (capStep_registersKept h).commandWrites _
  | rscan =>
    obtain rfl := Host.Outcome.next.inj h
    exact (reflStep_registersKept s).commandWrites _
  | edrn ch =>
    obtain rfl := Host.Outcome.next.inj h
    exact drainEncoder_writes _ (.inr (.inl ⟨ch, rfl⟩))
  | swp =>
    obtain rfl := Host.Outcome.next.inj h
    exact (swStep_registersKept s).commandWrites _
  | mset ch v => exact execMset_writes h
  | rset ch st =>
    obtain rfl := Host.Outcome.next.inj h
    exact ((pinWrite_registersKept _ _ s).trans (complete_registersKept _)).commandWrites _
  | frame => exact execFrame_writes h
  | abort => exact (execAbort_registersKept h).commandWrites _

/-! ### The host and the environment -/

/-- A host write is refused, accepted or ignored, and none of it touches the three (R80). -/
theorem hostWrite_registersKept (n : BitVec 6) (v : Word) (s : State) : RegistersKept s (hostWrite n v s) := by
  obtain h | ⟨-, -, c, hc, h⟩ | ⟨-, -, i, -, -, -, h⟩ := hostWrite_cases n v s
  · rw [h]
    exact ⟨rfl, rfl, rfl⟩
  · rw [h]
    refine raise_registersKept ?_ s
    rintro rfl
    simp at hc
  · rw [h]
    obtain ⟨hcfg, -, henc, hduty, -⟩ := accept_keeps i v s
    exact ⟨hcfg, henc, hduty⟩

/-- A capture agent leaves `CFG` and the duties alone (R151). -/
theorem encLineChange_keeps (i : Fin 2) (l : Level) (s : State) :
    (encLineChange i l s).cfg = s.cfg ∧ (encLineChange i l s).duty = s.duty := by
  unfold encLineChange
  dsimp only
  split <;> exact ⟨rfl, rfl⟩

/-! ### The obligation -/

/-- Settles O58: of the steps listed by `step_cases`, a tick writes what its command writes (`exec_writes`), an asserted
reset and an encoder line what the statement names, and the others nothing. -/
theorem registersHaveNamedWriters : Obligations.RegistersHaveNamedWriters := by
  unfold Obligations.RegistersHaveNamedWriters
  intro s t h
  obtain ⟨-, -, rfl⟩ | ⟨i, hrun, hexec⟩ | ⟨n, v, rest, -, rfl⟩ | ⟨n, rest, -, rfl⟩ | ⟨a, rest, hev, rfl⟩ |
    ⟨i, l, rest, hev, rfl⟩ := step_cases h
  case inl => exact ⟨rfl, (absurd rfl ·), (absurd rfl ·)⟩
  case inr.inl =>
    obtain ⟨hcfg, henc, hduty⟩ := exec_writes hexec
    refine ⟨hcfg, fun hne => ?_, fun hne => ?_⟩
    · obtain rfl | ⟨ch, rfl⟩ | ⟨rfl, hphase⟩ := henc hne
      · exact .inr (.inr (.inl hrun))
      · exact .inr (.inr (.inr (.inl ⟨ch, hrun⟩)))
      · exact .inr (.inr (.inr (.inr ⟨hrun, hphase⟩)))
    · obtain rfl | ⟨ch, v, rfl⟩ | ⟨p, hp, rfl | ⟨m, v, rfl⟩⟩ := hduty hne
      · exact .inr (.inl hrun)
      · exact .inr (.inr (.inl ⟨ch, v, hrun⟩))
      · exact .inr (.inr (.inr ⟨p, hp, .inl hrun⟩))
      · exact .inr (.inr (.inr ⟨p, hp, .inr ⟨m, v, hrun⟩⟩))
  case inr.inr.inl => 
    obtain ⟨hcfg, henc, hduty⟩ := hostWrite_registersKept n v s.popped
    exact ⟨hcfg, (absurd henc ·), (absurd hduty ·)⟩
  case inr.inr.inr.inl => exact ⟨rfl, (absurd rfl ·), (absurd rfl ·)⟩
  case inr.inr.inr.inr.inl =>
    cases a with
    | false => exact ⟨rfl, (absurd rfl ·), (absurd rfl ·)⟩
    | true => exact ⟨rfl, fun _ => .inl (by simp [hev]), fun _ => .inl (by simp [hev])⟩
  case inr.inr.inr.inr.inr =>
    obtain ⟨hcfg, hduty⟩ := encLineChange_keeps i l s.popped
    exact ⟨hcfg, fun _ => .inr (.inl ⟨i, l, by simp [hev]⟩), (absurd hduty ·)⟩

end Sys2Proof.Machine
end

/-! SUPPORT and PROOF. Every step keeps the invariant of a run (10_state.md R14, R20 to R23, R32, R36): first each shared
operation keeps all of it but the position of the sequencer (`Sound`), then the units and the commands keep that
position too, then the host, the reset input and the encoder lines. -/

namespace Sys2Proof.Machine

open Sys2Proof

/-- All parts of the invariant but the two that speak of `BUSY`: what holds of a unit's state whether or not its command
has completed. -/
structure Sound (s : State) : Prop where
  latches : LatchesOk s
  mode    : ModeOk s
  adc     : AdcBound s
  cap     : CapBound s
  sw      : SwBound s
  enc     : EncBound s
  results : ResultsOk s
  sticky  : StickyOk s

theorem Invariant.sound {s : State} (h : Invariant s) : Sound s :=
  ⟨h.latches, h.mode, h.adc, h.cap, h.sw, h.enc, h.results, h.sticky⟩

/-- Outside reset, what is left of the invariant is the position of the sequencer. -/
theorem Sound.invariant {s : State} (h : Sound s) (hseq : SequencerOk s) (hrst : s.io.rst = false) : Invariant s where
  latches := h.latches
  sequencer := hseq
  mode := h.mode
  resetHeld := by simp [ResetHeld, hrst]
  adc := h.adc
  cap := h.cap
  sw := h.sw
  enc := h.enc
  results := h.results
  sticky := h.sticky

theorem sentinelOk_replicate : SentinelOk (Vector.replicate 16 reflSentinel) := by
  intro k _
  simp [reflSentinel]

/-! ### Reset -/

/-- Reset values meet every part of the invariant (R241). -/
theorem resetWith_invariant (c : Config) (w : World) : Invariant (State.resetWith c w) where
  latches := ⟨Memory.wf_nil, by simp [State.resetWith]⟩
  sequencer := ⟨rfl, rfl, rfl, rfl⟩
  mode := rfl
  resetHeld _ := ⟨rfl, rfl⟩
  adc := by simp [AdcBound, State.resetWith]
  cap := by simp [CapBound, State.resetWith]
  sw := by simp [SwBound, State.resetWith]
  enc := by simp [EncBound, State.resetWith]
  results := by
    have hsentinel : SentinelOk (Vector.replicate 16 reflSentinel) := sentinelOk_replicate
    exact ⟨hsentinel, hsentinel, by simp [State.resetWith]⟩
  sticky := by simp [StickyOk, State.resetWith]

/-! ### The world outside, the latches and the causes -/

theorem Sound.withWorld {s : State} (h : Sound s) {w : World} (hrst : w.rst = s.io.rst)
    (hline : w.encLine = s.io.encLine) : Sound { s with io := w } :=
  { h with
    mode := by
      have := h.mode
      unfold ModeOk at this ⊢
      dsimp only
      rw [hrst, hline]
      exact this }

theorem portWrite_sound (p : Nat) (m v : Byte) {s : State} (h : Sound s) : Sound (portWrite p m v s) := by
  have hl : LatchesOk (portWrite p m v s) :=
    ⟨portWrite_wf p m v s h.latches.1, by simpa using portWrite_ports p m v s h.latches.2⟩
  by_cases hok : s.handleOk p = true
  · simp only [portWrite, hok, if_true] at hl ⊢
    exact { h with latches := hl }
  · simpa [portWrite, hok] using h

@[simp] theorem pinWrite_rst (n : Pin) (a : Bool) (s : State) : (pinWrite n a s).io.rst = s.io.rst := by
  obtain ⟨o, tr, heq, -⟩ := pinWrite_shape n a s
  rw [heq]

theorem pinWrite_sound (n : Pin) (a : Bool) {s : State} (h : Sound s) : Sound (pinWrite n a s) :=
  portWrite_sound _ _ _ h

theorem portRead_sound (p : Nat) {s : State} (h : Sound s) : Sound (portRead p s).2 := h.withWorld rfl rfl

theorem pinRead_sound (n : Pin) {s : State} (h : Sound s) : Sound (pinRead n s).2 := portRead_sound _ h

theorem analogRead_sound (n : Pin) {s : State} (h : Sound s) : Sound (analogRead n s).2 := h.withWorld rfl rfl

/-- Recording sets the one bit of the cause (R216). -/
theorem stickyWith_getLsbD (e : BitVec 9) (c : Cause) (b : Nat) :
    (stickyWith e c).getLsbD b = (e.getLsbD b || decide (b = Cause.code c)) := by
  have hcode : Cause.code c < 9 := by cases c <;> decide
  have hbit : (1#9 <<< Cause.code c).getLsbD b = decide (b = Cause.code c) := by
    rw [BitVec.getLsbD_shiftLeft, BitVec.getLsbD_one, Bool.eq_iff_iff]
    simp only [Bool.and_eq_true, Bool.not_eq_true', decide_eq_true_eq, decide_eq_false_iff_not]
    omega
  rw [stickyWith, BitVec.getLsbD_or, hbit]

theorem record_stickyOk (c : Cause) {s : State} (h : StickyOk s) : StickyOk (record c s) := by
  refine ⟨?_, fun c' hc => ?_, fun hnone => nomatch hnone⟩
  · have hcode : 0 ≠ Cause.code c := by cases c <;> decide
    rw [record_status, stickyWith_getLsbD, h.1, decide_eq_false hcode, Bool.or_false]
  · obtain rfl : c = c' := Option.some.inj hc
    simp [stickyWith_getLsbD]

theorem record_sound (c : Cause) {s : State} (h : Sound s) : Sound (record c s) :=
  { h with sticky := record_stickyOk c h.sticky }

/-! ### Vectors of results -/

/-- A property of every element survives a write of an element that has it. -/
theorem forall_getElem_set {α : Type} {n : Nat} {P : α → Prop} {v : Vector α n} {x : α} (k : Fin n)
    (h : ∀ i : Fin n, P v[i]) (hx : P x) : ∀ i : Fin n, P (v.set k x)[i] := by
  intro i
  simp only [Fin.getElem_fin, Vector.getElem_set]
  split
  · exact hx
  · exact h i

/-- A delta with its sign bit clear that is valid, or 0 (R27, R36). -/
theorem withEncResult_sound (k : Fin 2) {s : State} (h : Sound s) {d : BitVec 17} (hsign : d.getLsbD 15 = false)
    (hvalid : d.getLsbD 16 = false → d = 0) : Sound { s with res.enc := s.res.enc.set k d } := by
  obtain ⟨hacc, hres, hbank⟩ := h.enc
  obtain ⟨hrefl, hbrefl, hadc, hcap, henc, hport⟩ := h.results
  exact { h with
    enc := ⟨hacc, forall_getElem_set (P := fun d : BitVec 17 => d.getLsbD 15 = false) k hres hsign, hbank⟩
    results := ⟨hrefl, hbrefl, hadc, hcap,
      forall_getElem_set (P := fun d : BitVec 17 => d.getLsbD 16 = false → d = 0) k henc hvalid, hport⟩ }

theorem clearEnc_sound (k : Fin 2) {s : State} (h : Sound s) : Sound (clearEnc k s) :=
  withEncResult_sound k h (by decide) fun _ => rfl

/-! ### Start of the units -/

theorem clearSw_sound {s : State} (h : Sound s) : Sound (clearSw s) := { h with }

theorem startRefl_sound {s : State} (h : Sound s) : Sound (startRefl s) :=
  { h with results := ⟨sentinelOk_replicate, h.results.2⟩ }

theorem startCap_sound {s : State} (h : Sound s) : Sound (startCap s) := by
  obtain ⟨hrefl, hbrefl, hadc, -, henc, hport⟩ := h.results
  exact { h with
    cap := by simp [CapBound]
    results := ⟨hrefl, hbrefl, hadc, fun _ => rfl, henc, hport⟩ }

/-- The poll counter starts below the timeout, which is at least 1 in a valid configuration (R84, R100). -/
theorem startAdc_sound {s : State} (h : Sound s) (hready : s.status.mode = .ready) : Sound (startAdc s) := by
  obtain ⟨hrefl, hbrefl, -, hcap, henc, hport⟩ := h.results
  have hmode := h.mode
  simp only [ModeOk, hready] at hmode
  have hpos : 1 ≤ s.cfg.adcTimeout := (valid_numbers hmode.1).1
  exact { h with
    adc := by
      simp only [AdcBound, startAdc_adc, startAdc_cfg]
      exact ⟨Nat.zero_le _, fun _ => hpos⟩
    results := ⟨hrefl, hbrefl, fun _ => rfl, hcap, henc, hport⟩ }

theorem nextPhase_sound {s : State} (h : Sound s) (hready : s.status.mode = .ready) : Sound (nextPhase s) := by
  unfold nextPhase
  split
  case h_1 | h_8 => exact h
  case h_2 => exact clearEnc_sound 0 (s := { s with seq.framePhase := .drain0 }) { h with }
  case h_3 => exact clearEnc_sound 1 (s := { s with seq.framePhase := .drain1 }) { h with }
  case h_4 => exact clearSw_sound (s := { s with seq.framePhase := .switches }) { h with }
  case h_5 => exact startCap_sound (s := { s with seq.framePhase := .capacitive }) { h with }
  case h_6 => exact startAdc_sound (s := { s with seq.framePhase := .adc }) { h with } hready
  case h_7 => exact { h with }

/-! ### Completion -/

/-- The unit runs for its own command, or as phase `p` of a FRAME in READY. -/
def RunsAs (p : FramePhase) (s : State) : Prop :=
  (s.inFrame = false ∧ s.seq.framePhase = .none) ∨
    (decode s.seq.cmdLatch = .legal .frame ∧ s.seq.framePhase = p ∧ s.status.mode = .ready)

theorem RunsAs.congr {p : FramePhase} {s t : State} (h : RunsAs p s) (hlatch : t.seq.cmdLatch = s.seq.cmdLatch)
    (hphase : t.seq.framePhase = s.seq.framePhase) (hmode : s.status.mode = .ready → t.status.mode = .ready) :
    RunsAs p t := by
  unfold RunsAs State.inFrame at *
  rw [hlatch, hphase]
  exact h.imp_right fun ⟨hdec, hp, hready⟩ => ⟨hdec, hp, hmode hready⟩

/-- All units rest and the command, or the phase `p` of a FRAME, is about to complete. -/
structure Completing (p : FramePhase) (s : State) : Prop where
  sound  : Sound s
  runsAs : RunsAs p s
  busy   : s.seq.busy = true
  rst    : s.io.rst = false
  adc    : s.seq.adcState = .idle
  cap    : s.seq.capState = .idle
  refl   : s.seq.reflIdx = 0

/-- In phases 1 to 6 the next phase has its own unit under way and no other (R196, R198). -/
theorem nextPhase_sequencerOk {p : FramePhase} {s : State} (h : Completing p s)
    (hframe : decode s.seq.cmdLatch = .legal .frame) (hphase : s.seq.framePhase = p) (hready : s.status.mode = .ready)
    (hp : p ≠ .none ∧ p ≠ .commit) : SequencerOk (nextPhase s) := by
  have hpos : (nextPhase s).seq.busy = true ∧ (nextPhase s).seq.cmdLatch = s.seq.cmdLatch ∧
      FramePosition (nextPhase s) := by
    have hadc := h.adc; have hcap := h.cap; have hrefl := h.refl; have hbusy := h.busy
    cases p with
    | none => exact absurd rfl hp.1
    | commit => exact absurd rfl hp.2
    | scan => simp [nextPhase_scan hphase, FramePosition, *]
    | drain0 => simp [nextPhase_drain0 hphase, FramePosition, *]
    | drain1 => simp [nextPhase_drain1 hphase, FramePosition, *]
    | switches => simp [nextPhase_switches hphase, FramePosition, *]
    | capacitive => simp [nextPhase_capacitive hphase, FramePosition, *]
    | adc => simp [nextPhase_adc hphase, FramePosition, *]
  obtain ⟨hbusy, hlatch, hpos⟩ := hpos
  unfold SequencerOk
  rw [if_pos hbusy, hlatch, hframe, nextPhase_status, hready]
  exact ⟨hpos, by simp [ModeRuns]⟩

/-- A completed command leaves the sequencer idle, a completed phase goes on to the next (R81). -/
theorem Completing.invariant {p : FramePhase} {s : State} (h : Completing p s) (hp : p ≠ .none ∧ p ≠ .commit) :
    Invariant (complete s) := by
  obtain ⟨hout, hnone⟩ | ⟨hframe, hphase, hready⟩ := h.runsAs
  · rw [complete_of_not_inFrame hout]
    exact Sound.invariant { h.sound with } ⟨hnone, h.adc, h.cap, h.refl⟩ h.rst
  · rw [complete_of_inFrame (by simp [inFrame_decode hframe])]
    exact Sound.invariant (nextPhase_sound h.sound hready) (nextPhase_sequencerOk h hframe hphase hready hp)
      (by simpa using h.rst)

/-! ### A unit under way -/

/-- The handshake goes on: the command that runs it still stands at one of its positions. -/
theorem PositionOf.moveAdc {i : Instr} {s t : State} {a : AdcState} (h : PositionOf i s)
    (hs : s.seq.adcState ≠ .idle) (ha : a ≠ .idle) (hseq : t.seq = { s.seq with adcState := a }) : PositionOf i t := by
  cases i with
  | adcs =>
    obtain ⟨hphase, -, hrest⟩ := h
    simp only [PositionOf, hseq]
    exact ⟨hphase, ha, hrest⟩
  | frame =>
    simp only [PositionOf, FramePosition, hseq] at h ⊢
    split at h
    case h_4 => exact ⟨ha, h.2⟩
    all_goals exact absurd (by tauto) hs
  | capm | rscan => exact absurd h.2.1 hs
  | nop | init | prd p | pwr p m v | edrn ch | swp | mset ch v | rset ch st | abort => exact absurd h.2.1 hs

/-- The cycle goes on, likewise. -/
theorem PositionOf.moveCap {i : Instr} {s t : State} {c : CapState} (h : PositionOf i s)
    (hs : s.seq.capState ≠ .idle) (hc : c ≠ .idle) (hseq : t.seq = { s.seq with capState := c }) : PositionOf i t := by
  cases i with
  | capm =>
    obtain ⟨hphase, hadc, -, hrefl⟩ := h
    simp only [PositionOf, hseq]
    exact ⟨hphase, hadc, hc, hrefl⟩
  | frame =>
    simp only [PositionOf, FramePosition, hseq] at h ⊢
    split at h
    case h_3 => exact ⟨hc, h.2⟩
    all_goals exact absurd (by tauto) hs
  | adcs => exact absurd h.2.2.1 hs
  | rscan => exact absurd h.2.2 hs
  | nop | init | prd p | pwr p m v | edrn ch | swp | mset ch v | rset ch st | abort => exact absurd h.2.2.1 hs

/-- Command `i` is in flight in a state of the invariant, and the sequencer has a step. -/
structure Running (i : Instr) (s : State) : Prop where
  invariant : Invariant s
  busy      : s.seq.busy = true
  rst       : s.io.rst = false
  decoded   : decode s.seq.cmdLatch = .legal i

theorem Running.position {i : Instr} {s : State} (h : Running i s) : PositionOf i s ∧ ModeRuns s.status.mode i := by
  have hseq := h.invariant.sequencer
  unfold SequencerOk at hseq
  rwa [if_pos h.busy, h.decoded] at hseq

theorem Running.sound {i : Instr} {s : State} (h : Running i s) : Sound s := h.invariant.sound

/-- Everything but NOP and INIT runs in READY (R80). -/
theorem Running.ready {i : Instr} {s : State} (h : Running i s) (hnop : i ≠ .nop) (hinit : i ≠ .init) :
    s.status.mode = .ready := by
  have hmode := h.position.2
  cases hm : s.status.mode with
  | ready => rfl
  | unconfigured => rw [hm] at hmode; exact absurd hmode (by simp [ModeRuns, hnop, hinit])
  | fatal => rw [hm] at hmode; exact hmode.elim

/-- In READY the configuration is valid and the outputs are driven (R11). -/
theorem Sound.ready {s : State} (h : Sound s) (hready : s.status.mode = .ready) :
    validConfig s.cfg = true ∧ s.status.driveEn = true ∧ s.io.rst = false ∧
      ∀ i : Fin 2, s.enc.prev[i] = PinCfg.logical (pinOf s.cfg (.enc i)) s.io.encLine[i] := by
  have hmode := h.mode
  simpa only [ModeOk, hready] using hmode

/-- A command that is no FRAME runs as itself. -/
theorem Running.runsAs {i : Instr} {s : State} (h : Running i s) (hi : i ≠ .frame) (p : FramePhase) : RunsAs p s := by
  refine .inl ⟨by simp [inFrame_decode h.decoded, hi], ?_⟩
  have hpos := h.position.1
  cases i with
  | frame => exact absurd rfl hi
  | adcs | capm | rscan => exact hpos.1
  | nop | init | prd p | pwr p m v | edrn ch | swp | mset ch v | rset ch st | abort => exact hpos.1

/-- A FRAME runs as its phase. -/
theorem Running.runsAs_frame {s : State} (h : Running .frame s) : RunsAs s.seq.framePhase s :=
  .inr ⟨h.decoded, rfl, h.ready (by simp) (by simp)⟩

/-- A step that keeps the command in flight, at one of its positions, keeps the invariant. -/
theorem Running.move {i : Instr} {s t : State} (h : Running i s) (ht : Sound t) (hbusy : t.seq.busy = s.seq.busy)
    (hlatch : t.seq.cmdLatch = s.seq.cmdLatch) (hmode : t.status.mode = s.status.mode) (hrst : t.io.rst = s.io.rst)
    (hpos : PositionOf i s → PositionOf i t) : Invariant t := by
  refine ht.invariant ?_ (hrst.trans h.rst)
  unfold SequencerOk
  rw [if_pos (hbusy.trans h.busy), hlatch, h.decoded, hmode]
  exact ⟨hpos h.position.1, h.position.2⟩

theorem Running.moveAdc {i : Instr} {s t : State} (a : AdcState) (h : Running i s) (hs : s.seq.adcState ≠ .idle)
    (ha : a ≠ .idle) (hseq : t.seq = { s.seq with adcState := a }) (hmode : t.status.mode = s.status.mode)
    (hrst : t.io.rst = s.io.rst) (ht : Sound t) : Invariant t :=
  h.move ht (by rw [hseq]) (by rw [hseq]) hmode hrst fun hp => hp.moveAdc hs ha hseq

theorem Running.moveCap {i : Instr} {s t : State} (c : CapState) (h : Running i s) (hs : s.seq.capState ≠ .idle)
    (hc : c ≠ .idle) (hseq : t.seq = { s.seq with capState := c }) (hmode : t.status.mode = s.status.mode)
    (hrst : t.io.rst = s.io.rst) (ht : Sound t) : Invariant t :=
  h.move ht (by rw [hseq]) (by rw [hseq]) hmode hrst fun hp => hp.moveCap hs hc hseq

/-! ### The handshake -/

theorem Sound.withAdcState {s : State} (h : Sound s) {a : AdcState}
    (hbound : a = .assertCs ∨ a = .awaitConversion → s.adc.polls.toNat < s.cfg.adcTimeout) :
    Sound { s with seq.adcState := a } := { h with adc := ⟨h.adc.1, hbound⟩ }

/-- A poll counts one more, still within the timeout (R102). -/
theorem Sound.withPolls {s : State} (h : Sound s) (hs : s.seq.adcState = .awaitConversion) {a : AdcState}
    (hbound : a = .awaitConversion → (s.adc.polls + 1).toNat < s.cfg.adcTimeout) (ha : a ≠ .assertCs) :
    Sound { s with adc.polls := s.adc.polls + 1, seq.adcState := a } := by
  have hlt := h.adc.2 (.inr hs)
  have hle : (s.adc.polls + 1).toNat ≤ s.adc.polls.toNat + 1 := by
    rw [BitVec.toNat_add]
    exact Nat.mod_le _ _
  exact { h with adc := ⟨hle.trans hlt, fun hor => hbound (hor.resolve_left ha)⟩ }

/-- The valid bit of an 8-bit result (R24, R25). -/
theorem validByte_valid (x : Byte) : (validByte x).getLsbD 8 = true := by
  have happ : (validByte x).getLsbD 8 = (1#1 ++ x : BitVec (1 + 8)).getLsbD 8 := rfl
  rw [happ, BitVec.getLsbD_append]
  simp

/-- A handshake under way is that of ADCS or of phase 6, and nothing else is under way (R14, R198). -/
theorem Running.adcUnderWay {i : Instr} {s : State} (h : Running i s) (hs : s.seq.adcState ≠ .idle) :
    RunsAs .adc s ∧ s.seq.capState = .idle ∧ s.seq.reflIdx = 0 := by
  have hpos := h.position.1
  cases i with
  | adcs => exact ⟨h.runsAs (by simp) _, hpos.2.2⟩
  | frame =>
    have hruns := h.runsAs_frame
    simp only [PositionOf, FramePosition] at hpos
    split at hpos
    case h_4 hphase => exact ⟨hphase ▸ hruns, hpos.2⟩
    all_goals exact absurd (by tauto) hs
  | capm | rscan => exact absurd hpos.2.1 hs
  | nop | init | prd p | pwr p m v | edrn ch | swp | mset ch v | rset ch st | abort => exact absurd hpos.2.1 hs

/-- One poll of INT: the conversion seen, the timeout, or neither (R102 to R104). -/
theorem adcAwait_invariant {i : Instr} {s : State} (h : Running i s) (hs : s.seq.adcState = .awaitConversion) :
    Invariant (adcAwait s) := by
  have hne : s.seq.adcState ≠ .idle := by simp [hs]
  have hread : Sound (pinRead .adcInt s).2 := pinRead_sound _ h.sound
  unfold adcAwait
  dsimp only
  split
  · exact h.moveAdc .assertRd hne (by simp) rfl rfl rfl (hread.withPolls hs (by simp) (by simp))
  · split
    · have htimeout : Sound { (pinRead .adcInt s).2 with
          adc.polls := (pinRead .adcInt s).2.adc.polls + 1, adc.err := true, seq.adcState := .deassertRd } :=
        { hread.withPolls (a := .deassertRd) hs (by simp) (by simp) with }
      exact h.moveAdc .deassertRd hne (by simp) rfl rfl rfl (record_sound .conversionTimeout htimeout)
    · rename_i hlt
      have hpoll := hread.withPolls (a := .awaitConversion) hs (fun _ => not_le.mp hlt) (by simp)
      refine h.moveAdc .awaitConversion hne (by simp) (by simp [← hs]) rfl rfl ?_
      exact { hpoll with adc := ⟨hpoll.adc.1, fun _ => not_le.mp hlt⟩ }

/-- The last step of the handshake, up to its completion: the lines released, the result committed (R107). -/
theorem adcDeassertCs_invariant {i : Instr} {s : State} (h : Running i s) (hs : s.seq.adcState = .deassertCs) :
    Invariant (adcDeassertCs s) := by
  obtain ⟨hruns, hcap, hrefl⟩ := h.adcUnderWay (by simp [hs])
  have hw : Sound (pinWrite .adcCs false s) := pinWrite_sound _ _ h.sound
  obtain ⟨hr1, hr2, -, hr3⟩ := hw.results
  refine Completing.invariant (p := .adc) ?_ (by simp)
  exact {
    sound := { hw with
      adc := ⟨hw.adc.1, by simp⟩
      results := ⟨hr1, hr2, by dsimp only; split <;> simp [validByte_valid], hr3⟩ }
    runsAs := hruns.congr (by simp) (by simp) (by simp)
    busy := by simpa using h.busy
    rst := by simpa using h.rst
    adc := rfl
    cap := by simpa using hcap
    refl := by simpa using hrefl }

/-- The handshake keeps the invariant, position by position (R101 to R107). -/
theorem adcStep_invariant {i : Instr} {s t : State} (h : Running i s) (hstep : adcStep s = .next t) :
    Invariant t := by
  unfold adcStep at hstep
  split at hstep <;> cases hstep
  case h_2 hs =>
    have hlt := h.sound.adc.2 (.inl hs)
    exact h.moveAdc .awaitConversion (by simp [hs]) (by simp) (by simp [adcAssertCs]) (by simp [adcAssertCs])
      (by simp [adcAssertCs]) ((pinWrite_sound _ _ h.sound).withAdcState fun _ => by simpa using hlt)
  case h_3 hs => exact adcAwait_invariant h hs
  case h_4 hs =>
    have hread : Sound (portRead (pinWrite .adcRd true s).cfg.adcData.port (pinWrite .adcRd true s)).2 :=
      portRead_sound _ (pinWrite_sound _ _ h.sound)
    exact h.moveAdc .deassertRd (by simp [hs]) (by simp) (by simp [adcAssertRd]) (by simp [adcAssertRd])
      (by simp [adcAssertRd]) { hread.withAdcState (a := .deassertRd) (by simp) with }
  case h_5 hs =>
    exact h.moveAdc .deassertCs (by simp [hs]) (by simp) (by simp [adcDeassertRd]) (by simp [adcDeassertRd])
      (by simp [adcDeassertRd]) ((pinWrite_sound _ _ h.sound).withAdcState (by simp))
  case h_6 hs => exact adcDeassertCs_invariant h hs

/-! ### The capacitive cycle -/

/-- A cycle under way is that of CAPM or of phase 5, and nothing else is under way (R14, R198). -/
theorem Running.capUnderWay {i : Instr} {s : State} (h : Running i s) (hs : s.seq.capState ≠ .idle) :
    RunsAs .capacitive s ∧ s.status.mode = .ready ∧ s.seq.adcState = .idle ∧ s.seq.reflIdx = 0 := by
  have hpos := h.position.1
  cases i with
  | capm => exact ⟨h.runsAs (by simp) _, h.ready (by simp) (by simp), hpos.2.1, hpos.2.2.2⟩
  | frame =>
    have hruns := h.runsAs_frame
    simp only [PositionOf, FramePosition] at hpos
    split at hpos
    case h_3 hphase => exact ⟨hphase ▸ hruns, h.ready (by simp) (by simp), hpos.2⟩
    all_goals exact absurd (by tauto) hs
  | adcs => exact absurd hpos.2.2.1 hs
  | rscan => exact absurd hpos.2.2 hs
  | nop | init | prd p | pwr p m v | edrn ch | swp | mset ch v | rset ch st | abort => exact absurd hpos.2.2.1 hs

/-- One more in a 16-bit counter, which may wrap. -/
theorem toNat_add_one_le (x : BitVec 16) : (x + 1).toNat ≤ x.toNat + 1 := by
  rw [BitVec.toNat_add]
  exact Nat.mod_le _ _

/-- A settle tick, or the end of the settle time (R121, R122). -/
theorem capDischargeStep_invariant {i : Instr} {s : State} (h : Running i s) (hs : s.seq.capState = .discharge) :
    Invariant (capDischargeStep s) := by
  have hne : s.seq.capState ≠ .idle := by simp [hs]
  obtain ⟨u, hu, hsound, hseq, hmode, hrst⟩ : ∃ u, (if s.cap.timer = 0 then pinWrite .capDischarge true s else s) = u ∧
      Sound u ∧ u.seq = s.seq ∧ u.status.mode = s.status.mode ∧ u.io.rst = s.io.rst := by
    refine ⟨_, rfl, ?_⟩
    split
    · exact ⟨pinWrite_sound _ _ h.sound, by simp⟩
    · exact ⟨h.sound, rfl, rfl, rfl⟩
  unfold capDischargeStep
  dsimp only
  rw [hu]
  obtain ⟨htimer, helapsed, hsettle, -, hto, -⟩ := hsound.cap
  have hle := hsettle (hseq ▸ hs)
  have hfalse := hto (.inl (hseq ▸ hs))
  split
  · exact h.moveCap .charge hne (by simp) (by simp [hseq]) hmode hrst
      { hsound with cap := ⟨htimer, helapsed, by simp, by simp, fun _ => hfalse, by simp⟩ }
  · rename_i hlt
    have hone := toNat_add_one_le u.cap.timer
    have hle' : (u.cap.timer + 1).toNat ≤ u.cfg.capSettle := by omega
    refine h.moveCap .discharge hne (by simp) (by simp [hseq, ← hs]) hmode hrst { hsound with cap := ?_ }
    exact ⟨le_max_of_le_left hle', helapsed, fun _ => hle', by simp [hseq, hs], fun _ => hfalse, by simp [hseq, hs]⟩

/-- The charge starts, timed from 0, below the timeout (R84, R123). -/
theorem capChargeStep_invariant {i : Instr} {s : State} (h : Running i s) (hs : s.seq.capState = .charge) :
    Invariant (capChargeStep s) := by
  have hne : s.seq.capState ≠ .idle := by simp [hs]
  have hw : Sound (pinWrite .capCharge true (pinWrite .capDischarge false s)) :=
    pinWrite_sound _ _ (pinWrite_sound _ _ h.sound)
  have ⟨_, _, _, hpos, _⟩ := valid_numbers (hw.ready (by simpa using (h.capUnderWay hne).2.1)).1
  obtain ⟨-, helapsed, -, -, hto, -⟩ := hw.cap
  have hfalse := hto (.inr (.inl (by simpa using hs)))
  unfold capChargeStep
  refine h.moveCap .sample hne (by simp) (by simp) (by simp) (by simp) { hw with cap := ?_ }
  exact ⟨Nat.zero_le _, helapsed, by simp, fun _ => hpos, fun _ => hfalse, by simp⟩

/-- One poll of the sample line: a crossing below the ceiling, the timeout at the ceiling, or neither (R124, R125). -/
theorem capSampleStep_invariant {i : Instr} {s : State} (h : Running i s) (hs : s.seq.capState = .sample) :
    Invariant (capSampleStep s) := by
  have hne : s.seq.capState ≠ .idle := by simp [hs]
  have hread : Sound (analogRead .capSample s).2 := analogRead_sound _ h.sound
  obtain ⟨htimer, helapsed, -, hlt, hto, -⟩ := h.sound.cap
  have hlt := hlt hs
  have hfalse := hto (.inr (.inr hs))
  have hone := toNat_add_one_le s.cap.timer
  unfold capSampleStep
  dsimp only
  split
  · refine h.moveCap .compute hne (by simp) rfl rfl rfl { hread with cap := ?_ }
    exact ⟨htimer, hlt.le, by simp, by simp, by simp, fun _ => by simp [hfalse, hlt.ne]⟩
  · split
    · rename_i hceil
      have hfull : (BitVec.ofNat 16 s.cfg.capTimeout).toNat = s.cfg.capTimeout := by
        rw [BitVec.toNat_ofNat, Nat.mod_eq_of_lt]
        exact hceil ▸ (s.cap.timer + 1).isLt
      refine h.moveCap .compute hne (by simp) rfl rfl rfl { hread with cap := ?_ }
      exact ⟨le_max_of_le_right hceil.le, hfull.le, by simp, by simp, by simp, fun _ => by simp [hfull]⟩
    · rename_i hceil
      have hlt' : (s.cap.timer + 1).toNat < s.cfg.capTimeout := lt_of_le_of_ne (hone.trans hlt) hceil
      refine h.moveCap .sample hne (by simp) (by simp [← hs]) rfl rfl { hread with cap := ?_ }
      exact ⟨le_max_of_le_right hlt'.le, helapsed, by simp [hs], fun _ => hlt', fun _ => hfalse, by simp [hs]⟩

/-- The valid bit of `R_CAP` (R26). -/
theorem capResult_valid (timedOut contact : Bool) (elapsed : BitVec 16) :
    (capResult timedOut contact elapsed).getLsbD 18 = true := by
  have happ : (capResult timedOut contact elapsed).getLsbD 18 =
      (1#1 ++ BitVec.ofBool timedOut ++ BitVec.ofBool contact ++ elapsed : BitVec (1 + 1 + 1 + 16)).getLsbD 18 := rfl
  rw [happ, BitVec.getLsbD_append, BitVec.getLsbD_append, BitVec.getLsbD_append]
  simp

/-- The last step of the cycle: the charge line released, the verdict given (R126). -/
theorem capComputeStep_invariant {i : Instr} {s : State} (h : Running i s) (hs : s.seq.capState = .compute) :
    Invariant (capComputeStep s) := by
  obtain ⟨hruns, -, hadc, hrefl⟩ := h.capUnderWay (by simp [hs])
  have hw : Sound (pinWrite .capCharge false s) := pinWrite_sound _ _ h.sound
  obtain ⟨hr1, hr2, hr3, -, hr4⟩ := hw.results
  refine Completing.invariant (p := .capacitive) ?_ (by simp)
  exact {
    sound := { hw with
      cap := ⟨hw.cap.1, hw.cap.2.1, by simp⟩
      results := ⟨hr1, hr2, hr3, by simp [capResult_valid], hr4⟩ }
    runsAs := hruns.congr (by simp) (by simp) (by simp)
    busy := by simpa using h.busy
    rst := by simpa using h.rst
    adc := by simpa using hadc
    cap := rfl
    refl := by simpa using hrefl }

/-- The cycle keeps the invariant, position by position (R121 to R126). -/
theorem capStep_invariant {i : Instr} {s t : State} (h : Running i s) (hstep : capStep s = .next t) :
    Invariant t := by
  unfold capStep at hstep
  split at hstep <;> cases hstep
  case h_2 hs => exact capDischargeStep_invariant h hs
  case h_3 hs => exact capChargeStep_invariant h hs
  case h_4 hs => exact capSampleStep_invariant h hs
  case h_5 hs => exact capComputeStep_invariant h hs

/-! ### The scan -/

/-- What an available element holds (R28). -/
theorem reflReading_available (v : BitVec 16) : (reflReading v).getLsbD 16 = true := by
  have happ : (reflReading v).getLsbD 16 = (1#1 ++ v : BitVec (1 + 16)).getLsbD 16 := rfl
  rw [happ, BitVec.getLsbD_append]
  simp

/-- A reading, or the sentinel with its recorded cause (R141, R220). -/
theorem storeReflectance_sound (k : Fin 16) (ok : Bool) (v : BitVec 16) {s : State} (h : Sound s) :
    Sound (storeReflectance k ok v s) := by
  have hset (x : BitVec 17) (hx : x.getLsbD 16 = false → x.extractLsb' 0 16 = 0xFFFF#16) :
      Sound { s with res.refl := s.res.refl.set k x } :=
    { h with results := ⟨forall_getElem_set
        (P := fun x : BitVec 17 => x.getLsbD 16 = false → x.extractLsb' 0 16 = 0xFFFF#16) k h.results.1 hx,
      h.results.2⟩ }
  cases ok with
  | true => exact hset _ fun hx => absurd hx (by simp [reflReading_available])
  | false => exact record_sound .channelUnavailable (hset _ fun _ => by decide)

/-- Storing an element moves no unit. -/
theorem storeReflectance_keeps (k : Fin 16) (ok : Bool) (v : BitVec 16) (s : State) :
    (storeReflectance k ok v s).seq = s.seq ∧ (storeReflectance k ok v s).status.mode = s.status.mode ∧
      (storeReflectance k ok v s).io = s.io := by
  cases ok <;> exact ⟨rfl, rfl, rfl⟩

/-- The next channel of a scan under way. -/
theorem PositionOf.moveRefl {i : Instr} {s t : State} {k : Fin 16} (h : PositionOf i s)
    (hi : i = .rscan ∨ i = .frame ∧ s.seq.framePhase = .scan) (hseq : t.seq = { s.seq with reflIdx := k }) :
    PositionOf i t := by
  obtain rfl | ⟨rfl, hphase⟩ := hi
  · simpa only [PositionOf, hseq] using h
  · simp only [PositionOf, FramePosition, hseq, hphase] at h ⊢
    exact h

/-- One channel read; the last one completes (R142). -/
theorem reflStep_invariant {i : Instr} {s : State} (h : Running i s)
    (hi : i = .rscan ∨ i = .frame ∧ s.seq.framePhase = .scan) : Invariant (reflStep s) := by
  have hruns : RunsAs .scan s ∧ s.seq.adcState = .idle ∧ s.seq.capState = .idle := by
    have hpos := h.position.1
    obtain rfl | ⟨rfl, hphase⟩ := hi
    · exact ⟨h.runsAs (by simp) _, hpos.2⟩
    · simp only [PositionOf, FramePosition, hphase] at hpos
      exact ⟨hphase ▸ h.runsAs_frame, hpos⟩
  obtain ⟨hruns, hadc, hcap⟩ := hruns
  have hread : Sound (analogRead (.refl s.seq.reflIdx) s).2 := analogRead_sound _ h.sound
  unfold reflStep
  dsimp only
  generalize (analogRead (.refl s.seq.reflIdx) s).1 = x
  have hstore := storeReflectance_sound s.seq.reflIdx x.1 x.2 hread
  obtain ⟨hseq, hmode, hio⟩ := storeReflectance_keeps s.seq.reflIdx x.1 x.2 (analogRead (.refl s.seq.reflIdx) s).2
  generalize storeReflectance s.seq.reflIdx x.1 x.2 (analogRead (.refl s.seq.reflIdx) s).2 = u at *
  have hrst : u.io.rst = s.io.rst := by rw [hio]; rfl
  split
  · refine Completing.invariant (p := .scan) ?_ (by simp)
    exact {
      sound := { hstore with }
      runsAs := hruns.congr (by simp [hseq]) (by simp [hseq]) (by simp [hmode])
      busy := by simpa [hseq] using h.busy
      rst := hrst.trans h.rst
      adc := by simpa [hseq] using hadc
      cap := by simpa [hseq] using hcap
      refl := rfl }
  · exact h.move (t := { u with seq.reflIdx := s.seq.reflIdx + 1 }) { hstore with } (by simp [hseq]) (by simp [hseq])
      hmode hrst fun hp => hp.moveRefl hi (k := s.seq.reflIdx + 1) (by simp [hseq])

/-! ### Commands of one step -/

/-- What leaves the sequencer, the mode and the reset input alone is still about to complete. -/
theorem Completing.keep {p : FramePhase} {s t : State} (h : Completing p s) (ht : Sound t) (hseq : t.seq = s.seq)
    (hmode : t.status.mode = s.status.mode) (hrst : t.io.rst = s.io.rst) : Completing p t where
  sound := ht
  runsAs := h.runsAs.congr (by rw [hseq]) (by rw [hseq]) (by rw [hmode]; exact id)
  busy := by rw [hseq]; exact h.busy
  rst := hrst.trans h.rst
  adc := by rw [hseq]; exact h.adc
  cap := by rw [hseq]; exact h.cap
  refl := by rw [hseq]; exact h.refl

/-- A command that starts no unit is always about to complete. -/
theorem Running.completing {i : Instr} {s : State} (h : Running i s)
    (hi : i ≠ .adcs ∧ i ≠ .capm ∧ i ≠ .rscan ∧ i ≠ .frame) : Completing .drain0 s := by
  obtain ⟨hadcs, hcapm, hrscan, hframe⟩ := hi
  have hidle : AllIdle s := by
    have hpos := h.position.1
    cases i with
    | adcs | capm | rscan | frame => contradiction
    | nop | init | prd p | pwr p m v | edrn ch | swp | mset ch v | rset ch st | abort => exact hpos
  obtain ⟨-, hadc, hcap, hrefl⟩ := hidle
  exact ⟨h.sound, h.runsAs hframe _, h.busy, h.rst, hadc, hcap, hrefl⟩

/-- So is a FRAME in a phase of one step. -/
theorem Running.completing_frame {s : State} {p : FramePhase} (h : Running .frame s) (hphase : s.seq.framePhase = p)
    (hp : p = .drain0 ∨ p = .drain1 ∨ p = .switches) : Completing p s := by
  have hpos := h.position.1
  simp only [PositionOf, FramePosition, hphase] at hpos
  have hruns : RunsAs p s := hphase ▸ h.runsAs_frame
  obtain ⟨hadc, hcap, hrefl⟩ : s.seq.adcState = .idle ∧ s.seq.capState = .idle ∧ s.seq.reflIdx = 0 := by
    obtain rfl | rfl | rfl := hp
    · exact hpos
    · exact hpos
    · exact hpos
  exact ⟨h.sound, hruns, h.busy, h.rst, hadc, hcap, hrefl⟩

theorem encResult_toNat (d : BitVec 16) : (encResult d).toNat = 65536 + d.toNat := by
  have happ : (encResult d).toNat = (1#1 ++ d : BitVec (1 + 16)).toNat := rfl
  rw [happ, append_toNat]
  simp

/-- The delta of an accumulator in range is valid and has a clear sign bit (R21, R27). -/
theorem encResult_bits {d : BitVec 16} (h : d.toNat ≤ 32767) :
    (encResult d).getLsbD 15 = false ∧ (encResult d).getLsbD 16 = true := by
  simp only [BitVec.getLsbD, encResult_toNat, Nat.testBit_eq_decide_div_mod_eq, decide_eq_false_iff_not,
    decide_eq_true_eq]
  omega

/-- A drain clears the accumulator and publishes the delta (R155). -/
theorem drainEncoder_invariant {p : FramePhase} {s : State} (ch : Fin 2) (h : Completing p s)
    (hp : p ≠ .none ∧ p ≠ .commit) : Invariant (drainEncoder ch s) := by
  obtain ⟨hacc, hsign, hbank⟩ := h.sound.enc
  obtain ⟨hbit, hvalid⟩ := encResult_bits (hacc ch)
  have hclear : Sound { s with enc.acc := s.enc.acc.set ch 0 } :=
    { h.sound with
      enc := ⟨forall_getElem_set (P := fun x : BitVec 16 => x.toNat ≤ 32767) ch hacc (by simp), hsign, hbank⟩ }
  have hput := withEncResult_sound ch hclear hbit fun hfalse => absurd (hvalid.symm.trans hfalse) (by decide)
  exact (h.keep hput rfl rfl rfl).invariant hp

/-- A readable poll keeps the count below the hold (R22, R186). -/
theorem debounce_sound (i : Fin 4) (raw : Bool) {s : State} (h : Sound s) : Sound (debounce i raw s) := by
  have hset {x : BitVec 8} (hx : x.toNat ≤ s.cfg.swDebounce - 1) :
      ∀ j : Fin 4, (s.sw.cnt.set i x)[j].toNat ≤ s.cfg.swDebounce - 1 :=
    forall_getElem_set (P := fun x : BitVec 8 => x.toNat ≤ s.cfg.swDebounce - 1) i h.sw hx
  unfold debounce
  split
  · exact { h with sw := hset (Nat.zero_le _) }
  · split
    · exact { h with sw := hset (Nat.zero_le _) }
    · have hle : (s.sw.cnt[i] + 1).toNat ≤ s.sw.cnt[i].toNat + 1 := by
        rw [BitVec.toNat_add]
        exact Nat.mod_le _ _
      exact { h with sw := hset (by omega) }

/-- The debouncer moves no unit. -/
theorem debounce_keeps (i : Fin 4) (raw : Bool) (s : State) :
    (debounce i raw s).seq = s.seq ∧ (debounce i raw s).status = s.status ∧ (debounce i raw s).io = s.io := by
  unfold debounce
  split
  · exact ⟨rfl, rfl, rfl⟩
  · split <;> exact ⟨rfl, rfl, rfl⟩

/-- One switch polled, readable or not (R186, R187). -/
theorem pollSwitch_completing {p : FramePhase} {x : State × Vector Bool 4} (i : Fin 4) (h : Completing p x.1) :
    Completing p (pollSwitch x i).1 := by
  have hread : Sound (swRead i x.1).2 := pinRead_sound (.sw i) h.sound
  unfold pollSwitch
  dsimp only
  split
  · obtain ⟨hseq, hstatus, hio⟩ := debounce_keeps i (swRead i x.1).1.2 (swRead i x.1).2
    exact h.keep (debounce_sound i _ hread) (by rw [hseq]; rfl) (by rw [hstatus]; rfl) (by rw [hio]; rfl)
  · have hzero := forall_getElem_set (P := fun y : BitVec 8 => y.toNat ≤ x.1.cfg.swDebounce - 1) i hread.sw (x := 0)
      (Nat.zero_le _)
    have hcnt : Sound { (swRead i x.1).2 with sw.cnt := (swRead i x.1).2.sw.cnt.set i 0 } := { hread with sw := hzero }
    exact h.keep (record_sound .channelUnavailable hcnt) rfl rfl rfl

theorem foldl_pollSwitch_completing {p : FramePhase} (l : List (Fin 4)) {x : State × Vector Bool 4}
    (h : Completing p x.1) : Completing p (l.foldl pollSwitch x).1 := by
  induction l generalizing x with
  | nil => exact h
  | cons i l ih => exact ih (pollSwitch_completing i h)

/-- A poll of the four switches (R186). -/
theorem swStep_invariant {p : FramePhase} {s : State} (h : Completing p s) (hp : p ≠ .none ∧ p ≠ .commit) :
    Invariant (swStep s) := by
  have hpoll : Completing p (pollSwitches s).1 :=
    foldl_pollSwitch_completing [0, 1, 2, 3] (x := (s, Vector.replicate 4 false)) h
  have hput : Sound { (pollSwitches s).1 with
      res.sw := swResult (pollSwitches s).2 (pollSwitches s).1.sw.stable } := { hpoll.sound with }
  exact (hpoll.keep hput rfl rfl rfl).invariant hp

theorem pinWrite_completing {p : FramePhase} {s : State} (n : Pin) (a : Bool) (h : Completing p s) :
    Completing p (pinWrite n a s) :=
  h.keep (pinWrite_sound n a h.sound) (by simp) (by simp) (by simp)

/-- The duties are no part of the invariant (R19). -/
theorem withDuty_completing {p : FramePhase} {s : State} (d : Vector (BitVec 8) 2) (h : Completing p s) :
    Completing p { s with duty := d } := h.keep { h.sound with } rfl rfl rfl

theorem stopMotor_invariant {p : FramePhase} {s : State} (ch : Fin 2) (h : Completing p s)
    (hp : p ≠ .none ∧ p ≠ .commit) : Invariant (stopMotor ch s) :=
  (pinWrite_completing _ _ (withDuty_completing _ (pinWrite_completing _ _ h))).invariant hp

theorem driveMotor_invariant {p : FramePhase} {s : State} (ch : Fin 2) (v : BitVec 16) (h : Completing p s)
    (hp : p ≠ .none ∧ p ≠ .commit) : Invariant (driveMotor ch v s) :=
  (pinWrite_completing _ _ (withDuty_completing _ (pinWrite_completing _ _ (pinWrite_completing _ _ h)))).invariant hp

/-- The cancellation: four lines released, the cause recorded (R207). -/
theorem execAbort_invariant {p : FramePhase} {s t : State} (h : Completing p s) (hp : p ≠ .none ∧ p ≠ .commit)
    (hstep : execAbort s = .next t) : Invariant t := by
  obtain rfl := Host.Outcome.next.inj hstep
  have hlines : Completing p (releaseLines s) :=
    pinWrite_completing _ _ (pinWrite_completing _ _ (pinWrite_completing _ _ (pinWrite_completing _ _ h)))
  have hflag : Sound { releaseLines s with status.aborted := true } := { hlines.sound with }
  exact (hlines.keep (record_sound .aborted hflag) rfl rfl rfl).invariant hp

/-- The run-time fatal: everything released and idle, the outputs still driven (R218, R232). -/
theorem raise_invalidPortHandle_invariant {s : State} (h : Sound s) (hready : s.status.mode = .ready) :
    Invariant (raise .invalidPortHandle s) := by
  obtain ⟨hvalid, -, hrst, -⟩ := h.ready hready
  have hrec := record_sound .invalidPortHandle h
  obtain ⟨o, tr, heq, hl⟩ := deassertOutputs_shape (record .invalidPortHandle s)
  rw [raise_invalidPortHandle, heq]
  refine Sound.invariant ?_ ⟨rfl, rfl, rfl, rfl⟩ hrst
  exact { h with
    latches := hl hrec.latches
    mode := ⟨hrst, fun _ => hvalid⟩
    adc := ⟨h.adc.1, by simp⟩
    cap := ⟨h.cap.1, h.cap.2.1, by simp⟩
    sticky := hrec.sticky }

/-- The start-up fatal: nothing was driven before (R217). -/
theorem raise_configurationError_invariant {s : State} (h : Completing .drain0 s) (hout : s.inFrame = false)
    (hmode : s.status.mode = .unconfigured) : Invariant (raise .configurationError s) := by
  have hdrive : s.status.driveEn = false := by
    have := h.sound.mode
    simpa only [ModeOk, hmode] using this
  obtain ⟨-, hnone⟩ | ⟨hframe, -⟩ := h.runsAs
  · rw [raise_configurationError]
    refine Sound.invariant ?_ ⟨hnone, h.adc, h.cap, h.refl⟩ h.rst
    exact { h.sound with
      mode := ⟨h.rst, fun hd => absurd (hdrive.symm.trans hd) (by decide)⟩
      sticky := record_stickyOk .configurationError h.sound.sticky }
  · exact absurd hout (by simp [inFrame_decode hframe])

/-- Both encoder lines sampled: previous levels from the lines, accumulators 0 (R85). -/
theorem sampleBoth_shape (s : State) (hv : validConfig s.cfg = true) :
    ∃ w e, sampleEncoder 1 (sampleEncoder 0 s) = { s with io := w, enc := e } ∧ w.rst = s.io.rst ∧
      (∀ i : Fin 2, e.prev[i] = PinCfg.logical (pinOf s.cfg (.enc i)) w.encLine[i]) ∧ ∀ i : Fin 2, e.acc[i] = 0 := by
  obtain ⟨w, e, heq, hrst, hline, hprev, hacc⟩ := sampleEncoder_shape 0 s hv
  rw [heq]
  obtain ⟨w', e', heq', hrst', hline', hprev', hacc'⟩ := sampleEncoder_shape 1 { s with io := w, enc := e } hv
  refine ⟨w', e', heq', hrst'.trans hrst, fun i => ?_, fun i => ?_⟩
  · simp only [hprev', hprev, hline', hline]
    fin_cases i <;> simp
  · simp only [hacc', hacc]
    fin_cases i <;> simp

/-- INIT with a valid configuration enters READY with the encoder lines sampled (R85). -/
theorem initValid_invariant {s : State} (h : Completing .drain0 s) (hout : s.inFrame = false)
    (hvalid : validConfig s.cfg = true) : Invariant (initValid s) := by
  obtain ⟨o, tr, heq, hl⟩ := deassertOutputs_shape s
  unfold initValid
  dsimp only
  rw [heq]
  obtain ⟨w, e, heq', hrst, hprev, hacc⟩ := sampleBoth_shape
    { s with out := o, io.trace := tr, status.driveEn := true, duty := Vector.replicate 2 0 } hvalid
  rw [heq']
  obtain ⟨-, hnone⟩ | ⟨hframe, -⟩ := h.runsAs
  · refine Completing.invariant (p := .drain0) ?_ (by simp)
    exact {
      sound := { h.sound with
        latches := hl h.sound.latches
        mode := ⟨hvalid, rfl, hrst.trans h.rst, hprev⟩
        sw := by simp [SwBound]
        enc := ⟨fun i => by simp [hacc i], h.sound.enc.2⟩ }
      runsAs := .inl ⟨hout, hnone⟩
      busy := h.busy
      rst := hrst.trans h.rst
      adc := h.adc
      cap := h.cap
      refl := h.refl }
  · exact absurd hout (by simp [inFrame_decode hframe])

/-- The commit step publishes results that are in range (R203). -/
theorem commitFrame_invariant {s : State} (h : Running .frame s) (hphase : s.seq.framePhase = .commit) :
    Invariant (commitFrame s) := by
  have hpos := h.position.1
  simp only [PositionOf, FramePosition, hphase] at hpos
  obtain ⟨hacc, hsign, -⟩ := h.sound.enc
  obtain ⟨hrefl, -, hrest⟩ := h.sound.results
  exact Sound.invariant
    { h.sound with enc := ⟨hacc, hsign, hsign⟩, results := ⟨hrefl, hrefl, hrest⟩ } ⟨rfl, hpos⟩ h.rst

/-- A FRAME keeps the invariant, phase by phase (R196). -/
theorem execFrame_invariant {s t : State} (h : Running .frame s) (hstep : execFrame s = .next t) : Invariant t := by
  unfold execFrame at hstep
  split at hstep
  case h_1 => cases hstep
  case h_2 hphase => cases hstep; exact reflStep_invariant h (.inr ⟨rfl, hphase⟩)
  case h_3 hphase =>
    cases hstep
    exact drainEncoder_invariant 0 (h.completing_frame hphase (by simp)) (by simp)
  case h_4 hphase =>
    cases hstep
    exact drainEncoder_invariant 1 (h.completing_frame hphase (by simp)) (by simp)
  case h_5 hphase => cases hstep; exact swStep_invariant (h.completing_frame hphase (by simp)) (by simp)
  case h_6 => exact capStep_invariant h hstep
  case h_7 => exact adcStep_invariant h hstep
  case h_8 hphase => cases hstep; exact commitFrame_invariant h hphase

/-- INIT runs before READY only (R80). -/
theorem Running.unconfigured {s : State} (h : Running .init s) : s.status.mode = .unconfigured := by
  have hmode := h.position.2
  cases hm : s.status.mode with
  | unconfigured => rfl
  | ready => rw [hm] at hmode; exact absurd rfl hmode
  | fatal => rw [hm] at hmode; exact hmode.elim

/-- A PRD with its handle in range publishes a valid pattern (R24, R86). -/
theorem readPortResult_invariant {q : FramePhase} {s : State} (p : Nat) (h : Completing q s)
    (hq : q ≠ .none ∧ q ≠ .commit) : Invariant (readPortResult p s) := by
  have hread : Sound (portRead p s).2 := portRead_sound p h.sound
  obtain ⟨hrefl, hbank, hadc, hcap, henc, -⟩ := hread.results
  have hport (hx : (validByte (portRead p s).1).getLsbD 8 = false) : validByte (portRead p s).1 = 0 :=
    absurd ((validByte_valid _).symm.trans hx) (by decide)
  have hput : Sound { (portRead p s).2 with res.port := validByte (portRead p s).1 } :=
    { hread with results := ⟨hrefl, hbank, hadc, hcap, henc, hport⟩ }
  exact (h.keep hput rfl rfl rfl).invariant hq

/-- Every command's step keeps the invariant. -/
theorem exec_invariant {i : Instr} {s t : State} (h : Running i s) (hstep : exec i s = .next t) : Invariant t := by
  have hp : FramePhase.drain0 ≠ .none ∧ FramePhase.drain0 ≠ .commit := by simp
  cases i with
  | nop =>
    obtain rfl := Host.Outcome.next.inj hstep
    exact (h.completing (by simp)).invariant hp
  | init =>
    have hidle := h.completing (by simp)
    have hout : s.inFrame = false := by simp [inFrame_decode h.decoded]
    obtain rfl := Host.Outcome.next.inj hstep
    split
    case isTrue hvalid => exact initValid_invariant hidle hout hvalid
    case isFalse => exact raise_configurationError_invariant hidle hout h.unconfigured
  | prd p =>
    have hidle := h.completing (by simp)
    obtain rfl := Host.Outcome.next.inj hstep
    split
    · exact readPortResult_invariant _ hidle hp
    · exact raise_invalidPortHandle_invariant h.sound (h.ready (by simp) (by simp))
  | pwr p m v =>
    have hidle := h.completing (by simp)
    obtain rfl := Host.Outcome.next.inj hstep
    split
    · exact (hidle.keep (portWrite_sound _ m v h.sound) (by simp) (by simp) (by simp [apply_ite])).invariant hp
    · exact raise_invalidPortHandle_invariant h.sound (h.ready (by simp) (by simp))
  | adcs => exact adcStep_invariant h hstep
  | capm => exact capStep_invariant h hstep
  | rscan =>
    obtain rfl := Host.Outcome.next.inj hstep
    exact reflStep_invariant h (.inl rfl)
  | edrn ch =>
    obtain rfl := Host.Outcome.next.inj hstep
    exact drainEncoder_invariant _ (h.completing (by simp)) hp
  | swp =>
    obtain rfl := Host.Outcome.next.inj hstep
    exact swStep_invariant (h.completing (by simp)) hp
  | mset ch v =>
    obtain rfl := Host.Outcome.next.inj hstep
    split
    · exact stopMotor_invariant _ (h.completing (by simp)) hp
    · exact driveMotor_invariant _ v (h.completing (by simp)) hp
  | rset ch st =>
    obtain rfl := Host.Outcome.next.inj hstep
    exact (pinWrite_completing _ _ (h.completing (by simp))).invariant hp
  | frame => exact execFrame_invariant h hstep
  | abort => exact execAbort_invariant (h.completing (by simp)) hp hstep

/-! ### The host and the environment -/

theorem popped_invariant {s : State} (h : Invariant s) : Invariant s.popped := { h with }

/-- The command of the coming tick runs in a state of the invariant. -/
theorem RunsNext.running {i : Instr} {s : State} (h : RunsNext s i) (hinv : Invariant s) : Running i s.popped := by
  obtain ⟨-, hruns, hfetch⟩ := h
  obtain ⟨hbusy, hrst⟩ : s.seq.busy = true ∧ s.io.rst = false := by simpa [State.sequencerRuns] using hruns
  exact ⟨popped_invariant hinv, hbusy, hrst, hfetch⟩

/-- A refused write records its cause and sets `REFUSED` (R80). -/
theorem raise_refusal_invariant {c : Cause} (hc : c = .contractViolation ∨ c = .wrongMode ∨ c = .illegalCommand)
    {s : State} (h : Invariant s) : Invariant (raise c s) := by
  rw [raise_refusal c hc]
  exact { h with sticky := record_stickyOk c h.sticky }

/-- The driven reset input: everything at its reset value, or the input released (R240). -/
theorem driveRst_invariant (asserted : Bool) {s : State} (h : Invariant s) : Invariant (driveRst asserted s) := by
  cases asserted with
  | true => exact resetWith_invariant _ _
  | false =>
    have hmode : ModeOk { s with io.rst := false } := by
      have hm := h.mode
      unfold ModeOk at hm ⊢
      dsimp only
      split at hm
      · exact hm
      · exact ⟨hm.1, hm.2.1, rfl, hm.2.2.2⟩
      · exact ⟨rfl, hm.2⟩
    exact { h with mode := hmode, resetHeld := fun hr => absurd hr (by simp [driveRst]) }

/-- A saturating count stays in range (R152). -/
theorem satInc_le (x : BitVec 16) : (satInc x).toNat ≤ 32767 := by
  unfold satInc
  split
  · rename_i hlt
    rw [BitVec.toNat_add]
    exact (Nat.mod_le _ _).trans hlt
  · simp

theorem captureEdge_encBound (i : Fin 2) (n : Bool) {s : State} (h : EncBound s) : EncBound (captureEdge i n s) := by
  refine ⟨?_, h.2⟩
  unfold captureEdge
  dsimp only
  split
  · exact forall_getElem_set (P := fun x : BitVec 16 => x.toNat ≤ 32767) i h.1 (satInc_le _)
  · exact h.1

/-- In READY the agent's previous level is the line's, before and after a change of the line (R150, R151). -/
theorem encLineChange_modeOk (i : Fin 2) (l : Level) {s : State} (h : ModeOk s) : ModeOk (encLineChange i l s) := by
  cases hm : s.status.mode with
  | unconfigured | fatal =>
    have hidle : (encLineChange i l s) = { s with io.encLine := s.io.encLine.set i l } := by
      simp [encLineChange, State.captureActive, hm]
    rw [hidle]
    simpa only [ModeOk, hm] using h
  | ready =>
    obtain ⟨hvalid, hdrive, hrst, hprev⟩ :
        validConfig s.cfg = true ∧ s.status.driveEn = true ∧ s.io.rst = false ∧
          ∀ j : Fin 2, s.enc.prev[j] = PinCfg.logical (pinOf s.cfg (.enc j)) s.io.encLine[j] := by
      simpa only [ModeOk, hm] using h
    have hset : ∀ j : Fin 2, (s.enc.prev.set i (PinCfg.logical (pinOf s.cfg (.enc i)) l))[j] =
        PinCfg.logical (pinOf s.cfg (.enc j)) (s.io.encLine.set i l)[j] := by
      intro j
      by_cases hij : i = j
      · subst hij; simp
      · have hne : i.val ≠ j.val := fun hv => hij (Fin.ext hv)
        simpa [Vector.getElem_set, hne] using hprev j
    unfold encLineChange
    dsimp only
    split
    · simp only [ModeOk, captureEdge, hm]
      exact ⟨hvalid, hdrive, hrst, hset⟩
    · rename_i hsame
      have heq : PinCfg.logical (pinOf s.cfg (.enc i)) l = s.enc.prev[i] := by
        simpa [State.captureActive, hm, hrst] using hsame
      rw [heq] at hset
      simp only [ModeOk, hm]
      exact ⟨hvalid, hdrive, hrst, by simpa using hset⟩

/-- A change of an encoder line, captured or not (R151). -/
theorem encLineChange_invariant (i : Fin 2) (l : Level) {s : State} (h : Invariant s) :
    Invariant (encLineChange i l s) := by
  have hmode := encLineChange_modeOk i l h.mode
  unfold encLineChange at hmode ⊢
  dsimp only at hmode ⊢
  split
  case isTrue hc =>
    rw [if_pos hc] at hmode
    exact { h with
      mode := hmode
      enc := captureEdge_encBound i _ (s := { s with io.encLine := s.io.encLine.set i l }) h.enc }
  case isFalse hc =>
    rw [if_neg hc] at hmode
    exact { h with mode := hmode }

/-- A mode that does not refuse the command lets it run (R80). -/
theorem modeRuns_of_accepted {m : Mode} {i : Instr} (hm : m ≠ .fatal) (h : modeRefuses m i = false) : ModeRuns m i := by
  cases m with
  | unconfigured =>
    by_cases hi : i = .nop
    · exact .inl hi
    · exact .inr (by simpa [modeRefuses, hi] using h)
  | ready => simpa [modeRefuses] using h
  | fatal => exact absurd rfl hm

/-- An accepted command stands at its first position (R80, R100, R120, R140, R195, R205). -/
theorem accept_position (i : Instr) (w : Word) {s : State} (h : i ≠ .abort → AllIdle s) :
    PositionOf i (accept i w s) := by
  cases i with
  | abort => exact ⟨rfl, rfl, rfl, rfl⟩
  | adcs =>
    obtain ⟨hphase, -, hrest⟩ := h (by simp)
    exact ⟨hphase, by simp [accept, acceptActions], hrest⟩
  | capm =>
    obtain ⟨hphase, hadc, -, hrefl⟩ := h (by simp)
    exact ⟨hphase, hadc, by simp [accept, acceptActions], hrefl⟩
  | rscan =>
    obtain ⟨hphase, hadc, hcap, -⟩ := h (by simp)
    exact ⟨hphase, hadc, hcap⟩
  | frame =>
    obtain ⟨-, hadc, hcap, -⟩ := h (by simp)
    exact ⟨hadc, hcap⟩
  | nop | init | prd p | pwr p m v | edrn ch | swp | mset ch v | rset ch st => exact h (by simp)

/-- The start actions of a command keep what does not depend on `BUSY` (R80). -/
theorem accept_sound (i : Instr) (w : Word) {s : State} (h : Sound s) (hm : ModeRuns s.status.mode i)
    (hfatal : s.status.mode ≠ .fatal) : Sound (accept i w s) := by
  have hbase (a : Bool) : Sound { s with
      status.refused := false, status.aborted := a, seq.cmdLatch := w, seq.busy := true } := { h with }
  cases i with
  | nop | init | pwr p m v | mset ch v | rset ch st => exact hbase _
  | prd p =>
    obtain ⟨hrefl, hbank, hadc, hcap, henc, -⟩ := h.results
    exact { hbase false with results := ⟨hrefl, hbank, hadc, hcap, henc, fun _ => rfl⟩ }
  | adcs =>
    refine startAdc_sound (hbase _) ?_
    cases hmode : s.status.mode with
    | ready => rfl
    | unconfigured => rw [hmode] at hm; exact absurd hm (by simp [ModeRuns])
    | fatal => exact absurd hmode hfatal
  | capm => exact startCap_sound (hbase _)
  | rscan => exact startRefl_sound (hbase _)
  | edrn ch => exact clearEnc_sound _ (hbase _)
  | swp => exact clearSw_sound (hbase _)
  | frame => exact startRefl_sound (s := { s with
      status.refused := false, status.aborted := false, seq.cmdLatch := w, seq.busy := true,
      seq.framePhase := .scan }) { hbase false with }
  | abort =>
    exact { hbase s.status.aborted with
      adc := ⟨h.adc.1, by simp [accept, acceptActions]⟩
      cap := ⟨h.cap.1, h.cap.2.1, by simp [accept, acceptActions]⟩ }

/-- An accepted command keeps the invariant (R80). -/
theorem accept_invariant {i : Instr} {w : Word} {s : State} (h : Invariant s) (hrst : s.io.rst = false)
    (hfatal : s.status.mode ≠ .fatal) (hdec : decode w = .legal i) (hbusy : s.seq.busy = true → i = .abort)
    (hmode : modeRefuses s.status.mode i = false) : Invariant (accept i w s) := by
  have hruns := modeRuns_of_accepted hfatal hmode
  obtain ⟨hstatus, htbusy, hlatch⟩ := accept_status i w s
  obtain ⟨-, -, -, -, -, -, hio⟩ := accept_keeps i w s
  have hidle : i ≠ .abort → AllIdle s := by
    intro hi
    have hseq := h.sequencer
    unfold SequencerOk at hseq
    rwa [if_neg fun hb => hi (hbusy hb)] at hseq
  refine (accept_sound i w h.sound hruns hfatal).invariant ?_ (by rw [hio]; exact hrst)
  unfold SequencerOk
  rw [if_pos htbusy, hlatch, hdec, hstatus]
  exact ⟨accept_position i w hidle, hruns⟩

theorem hostWrite_invariant (n : BitVec 6) (v : Word) {s : State} (h : Invariant s) : Invariant (hostWrite n v s) := by
  obtain heq | ⟨-, -, c, hc, heq⟩ | ⟨hrst, hfatal, i, hdec, hbusy, hmode, heq⟩ := hostWrite_cases n v s
  · rw [heq]; exact h
  · rw [heq]; exact raise_refusal_invariant hc h
  · rw [heq]; exact accept_invariant h hrst hfatal hdec hbusy hmode

/-! ### The obligation -/

/-- Settles O50: of the steps listed by `step_cases`, a tick keeps the invariant by its command (`exec_invariant`), a
write of the host, the reset input and an encoder line each by their own lemma, and the others change the schedule
only. -/
theorem stepKeepsInvariant : Obligations.StepKeepsInvariant := by
  unfold Obligations.StepKeepsInvariant
  intro s t h hstep
  have hpop := popped_invariant h
  obtain ⟨-, -, rfl⟩ | ⟨i, hrun, hexec⟩ | ⟨n, v, rest, -, rfl⟩ | ⟨n, rest, -, rfl⟩ | ⟨a, rest, -, rfl⟩ |
    ⟨i, l, rest, -, rfl⟩ := step_cases hstep
  · exact hpop
  · exact exec_invariant (hrun.running h) hexec
  · exact hostWrite_invariant n v hpop
  · exact hpop
  · exact driveRst_invariant a hpop
  · exact encLineChange_invariant i l hpop

end Sys2Proof.Machine

/-! SUPPORT and PROOF. Every step but a PWR onto a guarded pin keeps the pin invariant (10_state.md R35): what each unit
does to the four lines of its protocol and to the PWM gates, then what an accepted command and a step do. -/

namespace Sys2Proof.Machine

open Sys2Proof

/-- The lines of the handshake: released when it is idle, RD released before CS (R35, R106). -/
structure AdcLines (s : State) : Prop where
  idle  : s.seq.adcState = .idle → s.asserted .adcCs = false ∧ s.asserted .adcRd = false
  rests : s.seq.adcState = .deassertCs → s.asserted .adcRd = false

/-- The lines of the cycle: released when it is idle, never both asserted, each at rest in the other's half of the cycle
(R35, R121 to R126). -/
structure CapLines (s : State) : Prop where
  idle           : s.seq.capState = .idle → s.asserted .capCharge = false ∧ s.asserted .capDischarge = false
  notBoth        : ¬ (s.asserted .capCharge = true ∧ s.asserted .capDischarge = true)
  chargeRests    : s.seq.capState = .discharge ∨ s.seq.capState = .charge → s.asserted .capCharge = false
  dischargeRests : s.seq.capState = .sample ∨ s.seq.capState = .compute → s.asserted .capDischarge = false

/-- A gate is asserted only with a duty above 0 (R35). -/
def PwmGates (s : State) : Prop := ∀ i : Fin 2, s.asserted (.motorPwm i) = true → 0 < s.duty[i].toNat

/-- What the pin invariant and the cycle lines say together of READY, no ABORT in flight. -/
structure LinesOk (s : State) : Prop where
  adc : AdcLines s
  cap : CapLines s
  pwm : PwmGates s

theorem PinInv.linesOk {s : State} (hp : PinInv s) (hc : CycleLines s) (hready : s.status.mode = .ready)
    (habort : ¬ AbortInFlight s) : LinesOk s where
  adc := ⟨fun hs => hp.adcIdle hready hs habort, hc.readRests hready⟩
  cap := ⟨fun hs => hp.capIdle hready hs habort, hp.notBoth hready, hc.chargeRests hready, hc.dischargeRests hready⟩
  pwm := hp.pwmDuty hready

theorem LinesOk.pins {s : State} (h : s.status.mode = .ready → LinesOk s) : PinInv s ∧ CycleLines s :=
  ⟨⟨fun hr hs _ => (h hr).adc.idle hs, fun hr hs _ => (h hr).cap.idle hs, fun hr => (h hr).cap.notBoth,
      fun hr => (h hr).pwm⟩,
    ⟨fun hr => (h hr).adc.rests, fun hr => (h hr).cap.chargeRests, fun hr => (h hr).cap.dischargeRests⟩⟩

/-- Outside READY the pin invariant asks nothing. -/
theorem pins_of_not_ready {s : State} (h : s.status.mode ≠ .ready) : PinInv s ∧ CycleLines s :=
  LinesOk.pins fun hr => absurd hr h

/-! ### What the lines depend on -/

theorem motorPwm_guarded (i : Fin 2) : Pin.motorPwm i ∈ guardedPins := by revert i; decide

theorem AdcLines.congr {s t : State} (h : AdcLines s) (hseq : t.seq.adcState = s.seq.adcState)
    (hcs : t.asserted .adcCs = s.asserted .adcCs) (hrd : t.asserted .adcRd = s.asserted .adcRd) : AdcLines t :=
  ⟨by rw [hseq, hcs, hrd]; exact h.idle, by rw [hseq, hrd]; exact h.rests⟩

theorem CapLines.congr {s t : State} (h : CapLines s) (hseq : t.seq.capState = s.seq.capState)
    (hch : t.asserted .capCharge = s.asserted .capCharge) (hdis : t.asserted .capDischarge = s.asserted .capDischarge) :
    CapLines t :=
  ⟨by rw [hseq, hch, hdis]; exact h.idle, by rw [hch, hdis]; exact h.notBoth, by rw [hseq, hch]; exact h.chargeRests,
    by rw [hseq, hdis]; exact h.dischargeRests⟩

theorem PwmGates.congr {s t : State} (h : PwmGates s) (hduty : t.duty = s.duty)
    (hpwm : ∀ i, t.asserted (.motorPwm i) = s.asserted (.motorPwm i)) : PwmGates t := by
  intro i
  rw [hduty, hpwm i]
  exact h i

/-- The handshake strictly between its ends asks nothing of its lines. -/
theorem AdcLines.of_between {s : State} (hidle : s.seq.adcState ≠ .idle) (hend : s.seq.adcState ≠ .deassertCs) :
    AdcLines s := ⟨fun hs => absurd hs hidle, fun hs => absurd hs hend⟩

/-- With the pins, the duties and the positions unchanged, so are the lines. -/
theorem LinesOk.keep {s t : State} (h : LinesOk s) (hpins : ∀ n ∈ guardedPins, t.asserted n = s.asserted n)
    (hduty : t.duty = s.duty) (hadc : t.seq.adcState = s.seq.adcState) (hcap : t.seq.capState = s.seq.capState) :
    LinesOk t where
  adc := h.adc.congr hadc (hpins _ (by decide)) (hpins _ (by decide))
  cap := h.cap.congr hcap (hpins _ (by decide)) (hpins _ (by decide))
  pwm := h.pwm.congr hduty fun i => hpins _ (motorPwm_guarded i)

/-- A step of the handshake leaves every other pin alone. -/
theorem LinesOk.moveAdc {s t : State} (h : LinesOk s) (hadc : AdcLines t) (hcap : t.seq.capState = s.seq.capState)
    (hduty : t.duty = s.duty) (hpins : ∀ m, m ≠ .adcCs → m ≠ .adcRd → t.asserted m = s.asserted m) : LinesOk t where
  adc := hadc
  cap := h.cap.congr hcap (hpins _ (by simp) (by simp)) (hpins _ (by simp) (by simp))
  pwm := h.pwm.congr hduty fun i => hpins _ (by simp) (by simp)

/-- A step of the cycle likewise. -/
theorem LinesOk.moveCap {s t : State} (h : LinesOk s) (hcap : CapLines t) (hadc : t.seq.adcState = s.seq.adcState)
    (hduty : t.duty = s.duty) (hpins : ∀ m, m ≠ .capCharge → m ≠ .capDischarge → t.asserted m = s.asserted m) :
    LinesOk t where
  adc := h.adc.congr hadc (hpins _ (by simp) (by simp)) (hpins _ (by simp) (by simp))
  cap := hcap
  pwm := h.pwm.congr hduty fun i => hpins _ (by simp) (by simp)

/-- With all four lines released a unit may stand anywhere: what starts it moves no line (R100, R120). -/
theorem LinesOk.of_released {s : State} (hadc : s.asserted .adcCs = false ∧ s.asserted .adcRd = false)
    (hcap : s.asserted .capCharge = false ∧ s.asserted .capDischarge = false) (hpwm : PwmGates s) : LinesOk s :=
  ⟨⟨fun _ => hadc, fun _ => hadc.2⟩, ⟨fun _ => hcap, by simp [hcap.1], fun _ => hcap.1, fun _ => hcap.2⟩, hpwm⟩

/-- Both units idle, and one of them may have been started since. -/
theorem LinesOk.start {s t : State} (h : LinesOk s) (hadc : s.seq.adcState = .idle) (hcap : s.seq.capState = .idle)
    (hcfg : t.cfg = s.cfg) (hout : t.out = s.out) (hduty : t.duty = s.duty) : LinesOk t := by
  have hpin := asserted_congr hcfg hout
  refine .of_released ?_ ?_ (h.pwm.congr hduty fun i => hpin _)
  · rw [hpin, hpin]; exact h.adc.idle hadc
  · rw [hpin, hpin]; exact h.cap.idle hcap

/-- Completion moves no line (R81). -/
theorem complete_linesOk {s : State} (h : LinesOk s) (hadc : s.seq.adcState = .idle) (hcap : s.seq.capState = .idle) :
    LinesOk (complete s) := h.start hadc hcap (by simp) (by simp) (by simp)

/-- After one PinWrite: the written pin shows what was written, every other pin what it showed. -/
theorem asserted_of_write {s t : State} (hv : validConfig s.cfg = true) (hw : Memory.wf s.out) (n : Pin) (a : Bool)
    (hcfg : t.cfg = s.cfg) (hout : t.out = (pinWrite n a s).out) (m : Pin) :
    t.asserted m = if m = n then a else s.asserted m := by
  rw [asserted_congr (hcfg.trans (pinWrite_cfg n a s).symm) hout m]
  split
  · rename_i h; rw [h, pinWrite_asserted_self hv hw]
  · rename_i h; exact pinWrite_asserted_other hv hw n m a h

/-! ### The handshake -/

/-- A poll of INT writes no pin and stays between the ends of the handshake (R102 to R104). -/
theorem adcAwait_linesOk {s : State} (h : LinesOk s) (hs : s.seq.adcState = .awaitConversion) :
    LinesOk (adcAwait s) := by
  unfold adcAwait
  dsimp only
  split
  · exact h.moveAdc (.of_between (by simp) (by simp)) rfl rfl fun _ _ _ => rfl
  · split
    · exact h.moveAdc (.of_between (by simp) (by simp)) rfl rfl fun _ _ _ => rfl
    · exact h.moveAdc (.of_between (by simp [hs]) (by simp [hs])) rfl rfl fun _ _ _ => rfl

/-- The handshake holds RD between ASSERT_RD and DEASSERT_RD and CS to its end (R101 to R107). -/
theorem adcStep_linesOk {s t : State} (h : LinesOk s) (hv : validConfig s.cfg = true) (hw : Memory.wf s.out)
    (hcap : s.seq.adcState ≠ .idle → s.seq.capState = .idle) (hstep : adcStep s = .next t) : LinesOk t := by
  unfold adcStep at hstep
  split at hstep <;> cases hstep
  case h_2 =>
    have hpin := asserted_of_write hv hw .adcCs true (t := adcAssertCs s) (by simp [adcAssertCs]) rfl
    exact h.moveAdc (.of_between (by simp [adcAssertCs]) (by simp [adcAssertCs])) (by simp [adcAssertCs])
      (by simp [adcAssertCs]) fun m hcs _ => by rw [hpin, if_neg hcs]
  case h_3 hs => exact adcAwait_linesOk h hs
  case h_4 =>
    have hpin := asserted_of_write hv hw .adcRd true (t := adcAssertRd s) (by simp [adcAssertRd]) rfl
    exact h.moveAdc (.of_between (by simp [adcAssertRd]) (by simp [adcAssertRd])) (by simp [adcAssertRd])
      (by simp [adcAssertRd]) fun m _ hrd => by rw [hpin, if_neg hrd]
  case h_5 =>
    have hpin := asserted_of_write hv hw .adcRd false (t := adcDeassertRd s) (by simp [adcDeassertRd]) rfl
    exact h.moveAdc ⟨fun hs => absurd hs (by simp [adcDeassertRd]), fun _ => by simp [hpin]⟩ (by simp [adcDeassertRd])
      (by simp [adcDeassertRd]) fun m _ hrd => by rw [hpin, if_neg hrd]
  case h_6 hs =>
    have hrd := h.adc.rests hs
    have hend {u : State} (hcfg : u.cfg = s.cfg) (hout : u.out = (pinWrite .adcCs false s).out)
        (hduty : u.duty = s.duty) (hseq : u.seq.capState = s.seq.capState) : LinesOk u := by
      have hpin := asserted_of_write hv hw .adcCs false hcfg hout
      exact h.moveAdc ⟨fun _ => by simp [hpin, hrd], fun _ => by simp [hpin, hrd]⟩ hseq hduty
        fun m hcs _ => by rw [hpin, if_neg hcs]
    have hcap := hcap (by simp [hs])
    exact complete_linesOk (hend (by simp) rfl (by simp) (by simp)) rfl (by simpa using hcap)

/-! ### The cycle -/

/-- While the discharge line may be asserted the charge line rests (R121 to R123). -/
theorem capDischargeStep_linesOk {s : State} (h : LinesOk s) (hv : validConfig s.cfg = true) (hw : Memory.wf s.out)
    (hs : s.seq.capState = .discharge) : LinesOk (capDischargeStep s) := by
  have hrest := h.cap.chargeRests (.inl hs)
  obtain ⟨u, hu, hseq, hduty, hpin⟩ :
      ∃ u, (if s.cap.timer = 0 then pinWrite .capDischarge true s else s) = u ∧ u.seq = s.seq ∧ u.duty = s.duty ∧
        ∀ m, m ≠ .capDischarge → u.asserted m = s.asserted m := by
    refine ⟨_, rfl, ?_⟩
    split
    · exact ⟨by simp, by simp, fun m hm => pinWrite_asserted_other hv hw _ m true hm⟩
    · exact ⟨rfl, rfl, fun _ _ => rfl⟩
  have hmove {t : State} (hcfg : t.cfg = u.cfg) (hout : t.out = u.out) (hd : t.duty = u.duty)
      (ha : t.seq.adcState = u.seq.adcState) (hc : t.seq.capState = .discharge ∨ t.seq.capState = .charge) :
      LinesOk t := by
    have hpin' (m) (hm : m ≠ .capDischarge) := (asserted_congr hcfg hout m).trans (hpin m hm)
    have hlow : t.asserted .capCharge = false := (hpin' _ (by simp)).trans hrest
    refine h.moveCap ⟨fun hi => ?_, by simp [hlow], fun _ => hlow, fun hi => ?_⟩ (ha.trans (by rw [hseq]))
      (hd.trans hduty) fun m _ hdis => hpin' m hdis
    · rcases hc with hc | hc <;> rw [hc] at hi <;> cases hi
    · rcases hc with hc | hc <;> rw [hc] at hi <;> simp at hi
  unfold capDischargeStep
  dsimp only
  rw [hu]
  split
  · exact hmove rfl rfl rfl rfl (.inr rfl)
  · exact hmove rfl rfl rfl rfl (.inl (by rw [hseq, hs]))

/-- The discharge line is released before the charge line is asserted (R123). -/
theorem capChargeStep_linesOk {s : State} (h : LinesOk s) (hv : validConfig s.cfg = true) (hw : Memory.wf s.out) :
    LinesOk (capChargeStep s) := by
  have hfirst := asserted_of_write hv hw .capDischarge false (t := pinWrite .capDischarge false s) (by simp) rfl
  have hpin := asserted_of_write (s := pinWrite .capDischarge false s) (by simpa using hv) (pinWrite_wf _ _ s hw)
    .capCharge true (t := capChargeStep s) (by simp [capChargeStep]) rfl
  have hlow : (capChargeStep s).asserted .capDischarge = false := by simp [hpin, hfirst]
  have hpos : (capChargeStep s).seq.capState = .sample := rfl
  refine h.moveCap ⟨by simp [hpos], by simp [hlow], by simp [hpos], fun _ => hlow⟩ (by simp [capChargeStep])
    (by simp [capChargeStep]) fun m hch hdis => by rw [hpin, if_neg hch, hfirst, if_neg hdis]

/-- A poll of the sample line writes no pin and stays in the charging half of the cycle (R124). -/
theorem capSampleStep_linesOk {s : State} (h : LinesOk s) (hs : s.seq.capState = .sample) :
    LinesOk (capSampleStep s) := by
  have hrest := h.cap.dischargeRests (.inl hs)
  have hmove {t : State} (hcfg : t.cfg = s.cfg) (hout : t.out = s.out) (hd : t.duty = s.duty)
      (ha : t.seq.adcState = s.seq.adcState) (hc : t.seq.capState = .sample ∨ t.seq.capState = .compute) :
      LinesOk t := by
    have hpin := asserted_congr hcfg hout
    have hlow : t.asserted .capDischarge = false := (hpin _).trans hrest
    refine h.moveCap ⟨fun hi => ?_, by simp [hlow], fun hi => ?_, fun _ => hlow⟩ ha hd fun m _ _ => hpin m
    · rcases hc with hc | hc <;> rw [hc] at hi <;> cases hi
    · rcases hc with hc | hc <;> rw [hc] at hi <;> simp at hi
  unfold capSampleStep
  dsimp only
  split
  · exact hmove rfl rfl rfl rfl (.inr rfl)
  · split
    · exact hmove rfl rfl rfl rfl (.inr rfl)
    · exact hmove rfl rfl rfl rfl (.inl hs)

/-- The cycle ends with both lines released (R126). -/
theorem capComputeStep_linesOk {s : State} (h : LinesOk s) (hv : validConfig s.cfg = true) (hw : Memory.wf s.out)
    (hs : s.seq.capState = .compute) (hadc : s.seq.adcState = .idle) : LinesOk (capComputeStep s) := by
  have hdis := h.cap.dischargeRests (.inr hs)
  have hend {u : State} (hcfg : u.cfg = s.cfg) (hout : u.out = (pinWrite .capCharge false s).out)
      (hduty : u.duty = s.duty) (hseq : u.seq.adcState = s.seq.adcState) : LinesOk u := by
    have hpin := asserted_of_write hv hw .capCharge false hcfg hout
    have hlow : u.asserted .capCharge = false ∧ u.asserted .capDischarge = false := by simp [hpin, hdis]
    exact h.moveCap ⟨fun _ => hlow, by simp [hlow.1], fun _ => hlow.1, fun _ => hlow.2⟩ hseq hduty
      fun m hch _ => by rw [hpin, if_neg hch]
  exact complete_linesOk (hend (by simp) rfl (by simp) (by simp)) (by simpa using hadc) rfl

/-- The cycle, position by position (R121 to R126). -/
theorem capStep_linesOk {s t : State} (h : LinesOk s) (hv : validConfig s.cfg = true) (hw : Memory.wf s.out)
    (hadc : s.seq.capState ≠ .idle → s.seq.adcState = .idle) (hstep : capStep s = .next t) : LinesOk t := by
  unfold capStep at hstep
  split at hstep <;> cases hstep
  case h_2 hs => exact capDischargeStep_linesOk h hv hw hs
  case h_3 => exact capChargeStep_linesOk h hv hw
  case h_4 hs => exact capSampleStep_linesOk h hs
  case h_5 hs => exact capComputeStep_linesOk h hv hw hs (hadc (by simp [hs]))

/-! ### The other commands -/

/-- Nothing that the lines depend on differs between `s` and `t`. -/
structure LinesKept (s t : State) : Prop where
  cfg  : t.cfg = s.cfg
  out  : t.out = s.out
  duty : t.duty = s.duty
  adc  : t.seq.adcState = s.seq.adcState
  cap  : t.seq.capState = s.seq.capState

theorem LinesKept.trans {s t u : State} (h : LinesKept s t) (k : LinesKept t u) : LinesKept s u :=
  ⟨k.cfg.trans h.cfg, k.out.trans h.out, k.duty.trans h.duty, k.adc.trans h.adc, k.cap.trans h.cap⟩

theorem LinesOk.kept {s t : State} (h : LinesOk s) (k : LinesKept s t) : LinesOk t :=
  h.keep (fun n _ => asserted_congr k.cfg k.out n) k.duty k.adc k.cap

/-- Keep the lines, then complete. -/
theorem LinesOk.kept_complete {s t : State} (h : LinesOk s) (k : LinesKept s t) (hadc : s.seq.adcState = .idle)
    (hcap : s.seq.capState = .idle) : LinesOk (complete t) :=
  complete_linesOk (h.kept k) (k.adc.trans hadc) (k.cap.trans hcap)

theorem storeReflectance_linesKept (k : Fin 16) (ok : Bool) (v : BitVec 16) (s : State) :
    LinesKept s (storeReflectance k ok v s) := by
  cases ok <;> exact ⟨rfl, rfl, rfl, rfl, rfl⟩

/-- A scan writes no pin (R142). -/
theorem reflStep_linesOk {s : State} (h : LinesOk s) (hadc : s.seq.adcState = .idle) (hcap : s.seq.capState = .idle) :
    LinesOk (reflStep s) := by
  unfold reflStep
  dsimp only
  have hread : LinesKept s (analogRead (.refl s.seq.reflIdx) s).2 := ⟨rfl, rfl, rfl, rfl, rfl⟩
  generalize (analogRead (.refl s.seq.reflIdx) s).1 = x
  have hstore := hread.trans (storeReflectance_linesKept s.seq.reflIdx x.1 x.2 _)
  generalize storeReflectance s.seq.reflIdx x.1 x.2 (analogRead (.refl s.seq.reflIdx) s).2 = u at *
  split
  · exact h.kept_complete (hstore.trans ⟨rfl, rfl, rfl, rfl, rfl⟩) hadc hcap
  · exact h.kept (hstore.trans ⟨rfl, rfl, rfl, rfl, rfl⟩)

theorem drainEncoder_linesOk {s : State} (ch : Fin 2) (h : LinesOk s) (hadc : s.seq.adcState = .idle)
    (hcap : s.seq.capState = .idle) : LinesOk (drainEncoder ch s) :=
  h.kept_complete ⟨rfl, rfl, rfl, rfl, rfl⟩ hadc hcap

theorem pollSwitch_linesKept (x : State × Vector Bool 4) (i : Fin 4) : LinesKept x.1 (pollSwitch x i).1 := by
  unfold pollSwitch debounce
  dsimp only
  split
  · split
    · exact ⟨rfl, rfl, rfl, rfl, rfl⟩
    · split <;> exact ⟨rfl, rfl, rfl, rfl, rfl⟩
  · exact ⟨rfl, rfl, rfl, rfl, rfl⟩

theorem foldl_pollSwitch_linesKept (l : List (Fin 4)) (x : State × Vector Bool 4) :
    LinesKept x.1 (l.foldl pollSwitch x).1 := by
  induction l generalizing x with
  | nil => exact ⟨rfl, rfl, rfl, rfl, rfl⟩
  | cons i l ih => exact (pollSwitch_linesKept x i).trans (ih _)

/-- A poll of the switches writes no pin (R186). -/
theorem swStep_linesOk {s : State} (h : LinesOk s) (hadc : s.seq.adcState = .idle) (hcap : s.seq.capState = .idle) :
    LinesOk (swStep s) := by
  have hpoll : LinesKept s (pollSwitches s).1 :=
    foldl_pollSwitch_linesKept [0, 1, 2, 3] (s, Vector.replicate 4 false)
  exact h.kept_complete (hpoll.trans ⟨rfl, rfl, rfl, rfl, rfl⟩) hadc hcap

/-- Writing a pin that is not guarded keeps the lines. -/
theorem LinesOk.pinWrite_unguarded {s : State} (h : LinesOk s) (hv : validConfig s.cfg = true) (hw : Memory.wf s.out)
    (n : Pin) (a : Bool) (hn : n ∉ guardedPins) : LinesOk (pinWrite n a s) :=
  h.keep (fun _ hm => pinWrite_asserted_other hv hw n _ a fun he => hn (he ▸ hm)) (by simp) (by simp) (by simp)

/-- Writing a PWM gate together with its duty: the written gate by what is written, the rest as it was. -/
theorem LinesOk.gate {s t : State} (h : LinesOk s) (ch : Fin 2)
    (hpins : ∀ m ∈ guardedPins, m ≠ .motorPwm ch → t.asserted m = s.asserted m)
    (hduty : ∀ i : Fin 2, i ≠ ch → t.duty[i] = s.duty[i]) (hadc : t.seq.adcState = s.seq.adcState)
    (hcap : t.seq.capState = s.seq.capState) (hgate : t.asserted (.motorPwm ch) = true → 0 < t.duty[ch].toNat) :
    LinesOk t where
  adc := h.adc.congr hadc (hpins _ (by decide) (by simp)) (hpins _ (by decide) (by simp))
  cap := h.cap.congr hcap (hpins _ (by decide) (by simp)) (hpins _ (by decide) (by simp))
  pwm := by
    intro i
    by_cases hi : i = ch
    · rw [hi]; exact hgate
    · rw [hpins _ (motorPwm_guarded i) (by simpa using hi), hduty i hi]
      exact h.pwm i

/-- A nonzero speed has a duty above 0 (R168). -/
theorem clampDuty_pos {v : BitVec 16} (hv : v ≠ 0) : 0 < (clampDuty v).toNat := by
  have hne : v.toInt ≠ 0 := fun h => hv (BitVec.eq_of_toInt_eq (by simpa using h))
  have hlo := BitVec.le_toInt v
  have hhi := BitVec.toInt_lt (x := v)
  have habs : (abs17 v).toNat = v.toInt.natAbs := by
    rw [abs17, BitVec.toNat_ofNat, Nat.mod_eq_of_lt]
    omega
  rw [clampDuty, habs, BitVec.toNat_ofNat, Nat.mod_eq_of_lt]
  · omega
  · omega

/-- MSET with a speed: the gate opens after its duty is set above 0 (R166). -/
theorem driveMotor_linesOk {s : State} (h : LinesOk s) (hv : validConfig s.cfg = true) (hw : Memory.wf s.out)
    (hadc : s.seq.adcState = .idle) (hcap : s.seq.capState = .idle) (ch : Fin 2) {v : BitVec 16} (hne : v ≠ 0) :
    LinesOk (driveMotor ch v s) := by
  have hdir := h.pinWrite_unguarded hv hw (.motorDir ch) (v.slt 0) (by simp [guardedPins])
  have hen := hdir.pinWrite_unguarded (by simpa using hv) (pinWrite_wf _ _ s hw) (.motorEn ch) true
    (by simp [guardedPins])
  unfold driveMotor
  dsimp only
  generalize hu : pinWrite (.motorEn ch) true (pinWrite (.motorDir ch) (v.slt 0) s) = u at hen ⊢
  have huv : validConfig u.cfg = true := by simpa [← hu] using hv
  have huw : Memory.wf u.out := by rw [← hu]; exact pinWrite_wf _ _ _ (pinWrite_wf _ _ s hw)
  refine complete_linesOk (hen.gate ch (fun m _ hm => ?_) (fun i hi => ?_) (by simp) (by simp) fun _ => ?_)
    (by simpa [← hu] using hadc) (by simpa [← hu] using hcap)
  · exact pinWrite_asserted_other (s := { u with duty := u.duty.set ch (clampDuty v) }) huv huw _ m true hm
  · have hval : ch.val ≠ i.val := fun he => hi (Fin.ext he.symm)
    simp [hval]
  · simpa using clampDuty_pos hne

/-- MSET 0: the gate closes before its duty is cleared (R167). -/
theorem stopMotor_linesOk {s : State} (h : LinesOk s) (hv : validConfig s.cfg = true) (hw : Memory.wf s.out)
    (hadc : s.seq.adcState = .idle) (hcap : s.seq.capState = .idle) (ch : Fin 2) : LinesOk (stopMotor ch s) := by
  have hstop : LinesOk { pinWrite (.motorPwm ch) false s with
      duty := (pinWrite (.motorPwm ch) false s).duty.set ch 0 } := by
    refine h.gate ch (fun m _ hm => ?_) (fun i hi => ?_) (by simp) (by simp) fun hon => ?_
    · exact pinWrite_asserted_other hv hw _ m false hm
    · have hval : ch.val ≠ i.val := fun he => hi (Fin.ext he.symm)
      simp [hval]
    · exact absurd ((pinWrite_asserted_self hv hw _ false).symm.trans hon) (by decide)
  unfold stopMotor
  dsimp only
  refine complete_linesOk (hstop.pinWrite_unguarded (by simpa using hv) (pinWrite_wf _ _ s hw) (.motorEn ch) _
    (by simp [guardedPins])) (by simpa using hadc) (by simpa using hcap)

/-- A PWR that selects no guarded pin keeps the lines (R42, R250). -/
theorem portWrite_linesOk {s : State} (h : LinesOk s) (hw : Memory.wf s.out) (p : Nat) (m v : Byte)
    (hmiss : ∀ n ∈ guardedPins, (pinOf s.cfg n).port = p → m.getLsbD (pinOf s.cfg n).bit = false) :
    LinesOk (portWrite p m v s) := by
  refine h.keep (fun n hn => ?_) (by simp) (by simp) (by simp)
  by_cases hok : s.handleOk p = true
  · simp only [State.asserted, State.latchBit, portWrite_cfg, portWrite_latch p m v s hw hok]
    split
    · rename_i hport
      rw [maskedWrite_bit, hmiss n hn hport, hport]
      simp
    · rfl
  · simp [portWrite, hok]

/-- A FRAME, phase by phase (R196). -/
theorem execFrame_linesOk {s t : State} (hr : Running .frame s) (h : LinesOk s) (hv : validConfig s.cfg = true)
    (hstep : execFrame s = .next t) : LinesOk t := by
  have hw := hr.sound.latches.1
  have hpos := hr.position.1
  simp only [PositionOf, FramePosition] at hpos
  unfold execFrame at hstep
  split at hstep
  case h_1 => cases hstep
  case h_2 hp => rw [hp] at hpos; cases hstep; exact reflStep_linesOk h hpos.1 hpos.2
  case h_3 hp => rw [hp] at hpos; cases hstep; exact drainEncoder_linesOk 0 h hpos.1 hpos.2.1
  case h_4 hp => rw [hp] at hpos; cases hstep; exact drainEncoder_linesOk 1 h hpos.1 hpos.2.1
  case h_5 hp => rw [hp] at hpos; cases hstep; exact swStep_linesOk h hpos.1 hpos.2.1
  case h_6 => exact capStep_linesOk h hv hw (fun hs => (hr.capUnderWay hs).2.2.1) hstep
  case h_7 => exact adcStep_linesOk h hv hw (fun hs => (hr.adcUnderWay hs).2.1) hstep
  case h_8 => cases hstep; exact h.kept ⟨rfl, rfl, rfl, rfl, rfl⟩

/-- In READY every command but ABORT keeps the lines, unless it is fatal or a PWR onto one of them. -/
theorem exec_linesOk {i : Instr} {s t : State} (hr : Running i s) (h : LinesOk s) (hready : s.status.mode = .ready)
    (habort : i ≠ .abort)
    (hmiss : ∀ p m v, i = .pwr p m v →
      ∀ n ∈ guardedPins, (pinOf s.cfg n).port = portOf p → m.getLsbD (pinOf s.cfg n).bit = false)
    (hstep : exec i s = .next t) (ht : t.status.mode = .ready) : LinesOk t := by
  have hv := (hr.sound.ready hready).1
  have hw := hr.sound.latches.1
  have hpos := hr.position.1
  cases i with
  | abort => exact absurd rfl habort
  | nop =>
    obtain rfl := Host.Outcome.next.inj hstep
    exact complete_linesOk h hpos.2.1 hpos.2.2.1
  | init => exact absurd (hready.symm.trans hr.unconfigured) (by simp)
  | prd p =>
    obtain rfl := Host.Outcome.next.inj hstep
    split at ht
    case isTrue hok =>
      rw [if_pos hok]
      exact h.kept_complete ⟨rfl, rfl, rfl, rfl, rfl⟩ hpos.2.1 hpos.2.2.1
    case isFalse => exact absurd ht (by simp [raise_invalidPortHandle])
  | pwr p m v =>
    obtain rfl := Host.Outcome.next.inj hstep
    split at ht
    case isTrue hok =>
      rw [if_pos hok]
      exact complete_linesOk (portWrite_linesOk h hw _ m v (hmiss p m v rfl)) (by simpa using hpos.2.1)
        (by simpa using hpos.2.2.1)
    case isFalse => exact absurd ht (by simp [raise_invalidPortHandle])
  | adcs => exact adcStep_linesOk h hv hw (fun hs => (hr.adcUnderWay hs).2.1) hstep
  | capm => exact capStep_linesOk h hv hw (fun hs => (hr.capUnderWay hs).2.2.1) hstep
  | rscan =>
    obtain rfl := Host.Outcome.next.inj hstep
    exact reflStep_linesOk h hpos.2.1 hpos.2.2
  | edrn ch =>
    obtain rfl := Host.Outcome.next.inj hstep
    exact drainEncoder_linesOk _ h hpos.2.1 hpos.2.2.1
  | swp =>
    obtain rfl := Host.Outcome.next.inj hstep
    exact swStep_linesOk h hpos.2.1 hpos.2.2.1
  | mset ch v =>
    obtain rfl := Host.Outcome.next.inj hstep
    split
    case isTrue => exact stopMotor_linesOk h hv hw hpos.2.1 hpos.2.2.1 _
    case isFalse hne => exact driveMotor_linesOk h hv hw hpos.2.1 hpos.2.2.1 _ hne
  | rset ch st =>
    obtain rfl := Host.Outcome.next.inj hstep
    have hrelay : Pin.relay (channelOf ch) ∉ guardedPins := by simp [guardedPins]
    exact complete_linesOk (h.pinWrite_unguarded hv hw _ _ hrelay) (by simpa using hpos.2.1)
      (by simpa using hpos.2.2.1)
  | frame => exact execFrame_linesOk hr h hv hstep

/-- INIT de-asserts every output pin, the guarded ones among them (R85). -/
theorem initValid_linesOk {s : State} (hv : validConfig s.cfg = true) (hw : Memory.wf s.out) :
    LinesOk (initValid s) := by
  have hlow : ∀ n ∈ guardedPins, (initValid s).asserted n = false := by
    intro n hn
    have hout : n ∈ outputPins := by
      have hsub : ∀ m ∈ guardedPins, m ∈ outputPins := by decide
      exact hsub n hn
    rw [asserted_congr (s := deassertOutputs s) (by simp [initValid, sampleEncoder])
      (by simp [initValid, sampleEncoder]) n]
    exact deassertOutputs_asserted s hv hw n hout
  refine .of_released ⟨hlow _ (by decide), hlow _ (by decide)⟩ ⟨hlow _ (by decide), hlow _ (by decide)⟩ fun i hon => ?_
  exact absurd ((hlow _ (motorPwm_guarded i)).symm.trans hon) (by decide)

/-- ABORT releases the four lines and leaves the gates as they are (R207). -/
theorem execAbort_linesOk {s t : State} (hgates : PwmGates s) (hv : validConfig s.cfg = true) (hw : Memory.wf s.out)
    (hstep : execAbort s = .next t) : LinesOk t := by
  have ht := Host.Outcome.next.inj hstep
  have hpin (m : Pin) : t.asserted m =
      if m ∈ [Pin.adcRd, .adcCs, .capDischarge, .capCharge] then false else s.asserted m := by
    rw [asserted_congr (s := releaseLines s) (by simp [← ht]) (by simp [← ht]) m]
    exact foldl_pinWrite_asserted [.adcRd, .adcCs, .capDischarge, .capCharge] false s hv hw m
  refine .of_released ⟨by simp [hpin], by simp [hpin]⟩ ⟨by simp [hpin], by simp [hpin]⟩ ?_
  exact hgates.congr (by simp [← ht, releaseLines]) fun i => by simp [hpin]

/-! ### A command's step, and the host's -/

theorem abortInFlight_decoded {s : State} (h : AbortInFlight s) : decode s.seq.cmdLatch = .legal .abort := by
  rw [h.2]
  decide

/-- Every command's step keeps the pin invariant, but a PWR onto a guarded pin. -/
theorem exec_pins {i : Instr} {s t : State} (hr : Running i s) (hp : PinInv s) (hc : CycleLines s)
    (hmiss : ∀ p m v, i = .pwr p m v →
      ∀ n ∈ guardedPins, (pinOf s.cfg n).port = portOf p → m.getLsbD (pinOf s.cfg n).bit = false)
    (hstep : exec i s = .next t) : PinInv t ∧ CycleLines t := by
  refine LinesOk.pins fun ht => ?_
  have hw := hr.sound.latches.1
  cases hm : s.status.mode with
  | fatal =>
    have hmode := hr.position.2
    rw [hm] at hmode
    exact hmode.elim
  | unconfigured =>
    have hmode := hr.position.2
    rw [hm] at hmode
    obtain rfl | rfl := hmode
    · obtain rfl := Host.Outcome.next.inj hstep
      rw [complete_status, hm] at ht
      cases ht
    · obtain rfl := Host.Outcome.next.inj hstep
      split at ht
      case isTrue hv => rw [if_pos hv]; exact initValid_linesOk hv hw
      case isFalse => exact absurd ht (by simp [raise_configurationError])
  | ready =>
    by_cases habort : i = .abort
    · subst habort
      exact execAbort_linesOk (hp.pwmDuty hm) (hr.sound.ready hm).1 hw hstep
    · have hnot : ¬ AbortInFlight s := fun hin =>
        habort (Decoded.legal.inj (hr.decoded.symm.trans (abortInFlight_decoded hin)))
      exact exec_linesOk hr (hp.linesOk hc hm hnot) hm habort hmiss hstep ht

/-- The pin invariant looks at the configuration, the latches, the duties, the mode and the sequencer only. -/
theorem pins_congr {s t : State} (hp : PinInv s) (hc : CycleLines s) (hcfg : t.cfg = s.cfg) (hout : t.out = s.out)
    (hduty : t.duty = s.duty) (hmode : t.status.mode = s.status.mode) (hseq : t.seq = s.seq) :
    PinInv t ∧ CycleLines t := by
  have hpin := asserted_congr hcfg hout
  refine ⟨⟨?_, ?_, ?_, ?_⟩, ⟨?_, ?_, ?_⟩⟩
  · simpa only [AbortInFlight, hpin, hmode, hseq] using hp.adcIdle
  · simpa only [AbortInFlight, hpin, hmode, hseq] using hp.capIdle
  · simpa only [hpin, hmode] using hp.notBoth
  · simpa only [hpin, hmode, hduty] using hp.pwmDuty
  · simpa only [hpin, hmode, hseq] using hc.readRests
  · simpa only [hpin, hmode, hseq] using hc.chargeRests
  · simpa only [hpin, hmode, hseq] using hc.dischargeRests

/-- The one word of ABORT (R63, R64). -/
theorem decode_abort {w : Word} (h : decode w = .legal .abort) : w = encode .abort := by
  unfold decode decodeFields at h
  split at h
  case h_13 hop =>
    simp only [reservedZero, List.all_cons, List.all_nil, Bool.and_true] at h
    split at h
    case isTrue hz =>
      simp only [Bool.and_eq_true, beq_iff_eq] at hz
      obtain ⟨ha, hb, hc⟩ := hz
      rw [← wordOf_fields w, ha, hb, hc, BitVec.eq_of_toNat_eq (y := 0x3F#8) hop]
      rfl
    case isFalse => cases h
  case h_4 | h_14 => cases h
  all_goals
    simp only [reservedZero, withChannel, withRelayState] at h
    repeat' split at h
    all_goals cases h

/-- An accepted ABORT idles the units and leaves their lines to its step, the one tick that R35 excepts. -/
theorem accept_abort_pins {w : Word} {s : State} (hp : PinInv s) (hw : w = encode .abort) :
    PinInv (accept .abort w s) ∧ CycleLines (accept .abort w s) := by
  have hin : AbortInFlight (accept .abort w s) := ⟨rfl, hw⟩
  refine ⟨⟨fun _ _ hnot => absurd hin hnot, fun _ _ hnot => absurd hin hnot, hp.notBoth, hp.pwmDuty⟩,
    ⟨fun _ hs => ?_, fun _ hs => ?_, fun _ hs => ?_⟩⟩
  · cases hs
  · rcases hs with hs | hs <;> cases hs
  · rcases hs with hs | hs <;> cases hs

/-- Accepting another command, over an idle core, moves no line (R80). -/
theorem accept_pins {i : Instr} {w : Word} {s : State} (hinv : Invariant s) (hp : PinInv s) (hc : CycleLines s)
    (hdec : decode w = .legal i) (hbusy : s.seq.busy = true → i = .abort) :
    PinInv (accept i w s) ∧ CycleLines (accept i w s) := by
  by_cases habort : i = .abort
  · subst habort
    exact accept_abort_pins hp (decode_abort hdec)
  · have hnot : ¬ s.seq.busy = true := fun hb => habort (hbusy hb)
    obtain ⟨hcfg, -, -, hduty, hout, -⟩ := accept_keeps i w s
    obtain ⟨hstatus, -⟩ := accept_status i w s
    have hidle : AllIdle s := by
      have hseq := hinv.sequencer
      unfold SequencerOk at hseq
      rwa [if_neg hnot] at hseq
    refine LinesOk.pins fun hready => ?_
    rw [hstatus] at hready
    exact (hp.linesOk hc hready fun hin => hnot hin.1).start hidle.2.1 hidle.2.2.1 hcfg hout hduty

theorem hostWrite_pins (n : BitVec 6) (v : Word) {s : State} (hinv : Invariant s) (hp : PinInv s)
    (hc : CycleLines s) : PinInv (hostWrite n v s) ∧ CycleLines (hostWrite n v s) := by
  obtain heq | ⟨-, -, c, hcause, heq⟩ | ⟨-, -, i, hdec, hbusy, -, heq⟩ := hostWrite_cases n v s
  · rw [heq]; exact ⟨hp, hc⟩
  · rw [heq, raise_refusal c hcause]; exact pins_congr hp hc rfl rfl rfl rfl rfl
  · rw [heq]; exact accept_pins hinv hp hc hdec hbusy

theorem driveRst_pins (asserted : Bool) {s : State} (hp : PinInv s) (hc : CycleLines s) :
    PinInv (driveRst asserted s) ∧ CycleLines (driveRst asserted s) := by
  cases asserted with
  | true => exact pins_of_not_ready (by simp [driveRst, applyReset, State.resetWith])
  | false => exact pins_congr hp hc rfl rfl rfl rfl rfl

theorem encLineChange_pins (i : Fin 2) (l : Level) {s : State} (hp : PinInv s) (hc : CycleLines s) :
    PinInv (encLineChange i l s) ∧ CycleLines (encLineChange i l s) := by
  unfold encLineChange
  dsimp only
  split <;> exact pins_congr hp hc rfl rfl rfl rfl rfl

/-! ### The obligations -/

/-- Settles O53: of the steps listed by `step_cases`, a tick keeps the pin invariant by its command (`exec_pins`), an
accepted command and the other events by their own lemmas, and an idle tick or a host read changes the schedule only. -/
theorem stepKeepsPinInvariant : Obligations.StepKeepsPinInvariant := by
  unfold Obligations.StepKeepsPinInvariant
  intro s t hinv hp hc hmiss hstep
  have hinv' := popped_invariant hinv
  obtain ⟨hp', hc'⟩ : PinInv s.popped ∧ CycleLines s.popped := pins_congr hp hc rfl rfl rfl rfl rfl
  obtain ⟨-, -, rfl⟩ | ⟨i, hrun, hexec⟩ | ⟨n, v, rest, -, rfl⟩ | ⟨n, rest, -, rfl⟩ | ⟨a, rest, -, rfl⟩ |
    ⟨i, l, rest, -, rfl⟩ := step_cases hstep
  · exact ⟨hp', hc'⟩
  · refine exec_pins (hrun.running hinv) hp' hc' (fun p m v hi n hn hport => ?_) hexec
    subst hi
    exact Bool.eq_false_iff.mpr fun hbit => hmiss ⟨p, m, v, hrun, n, hn, hport, hbit⟩
  · exact hostWrite_pins n v hinv' hp' hc'
  · exact ⟨hp', hc'⟩
  · exact driveRst_pins a hp' hc'
  · exact encLineChange_pins i l hp' hc'

/-- Settles O51: the registers by `resetWith_invariant`; outside READY the pins are unconstrained. -/
theorem resetMeetsInvariant : Obligations.ResetMeetsInvariant := by
  unfold Obligations.ResetMeetsInvariant
  have hall (c : Config) (w : World) :
      Invariant (State.resetWith c w) ∧ PinInv (State.resetWith c w) ∧ CycleLines (State.resetWith c w) :=
    ⟨resetWith_invariant c w, pins_of_not_ready (by simp [State.resetWith])⟩
  exact ⟨hall configExample World.start, hall⟩

end Sys2Proof.Machine

/-! PROOF. What a step leaves of the mode, the sticky bits and the frame bank (10_state.md R11, R29, R32). -/

namespace Sys2Proof.Machine

open Sys2Proof

/-- Between `s` and `t` nothing of the mode, `DRIVE_EN` and the bank changed, and no sticky bit was cleared. -/
structure StatusKept (s t : State) : Prop where
  mode    : t.status.mode = s.status.mode
  driveEn : t.status.driveEn = s.status.driveEn
  sticky  : ∀ b, s.status.esticky.getLsbD b = true → t.status.esticky.getLsbD b = true
  bank    : t.bank = s.bank

theorem StatusKept.trans {s t u : State} (h : StatusKept s t) (k : StatusKept t u) : StatusKept s u :=
  ⟨k.mode.trans h.mode, k.driveEn.trans h.driveEn, fun b hb => k.sticky b (h.sticky b hb), k.bank.trans h.bank⟩

/-- With both register files unchanged. -/
theorem StatusKept.of_eq {s t : State} (hstatus : t.status = s.status) (hbank : t.bank = s.bank) : StatusKept s t :=
  ⟨by rw [hstatus], by rw [hstatus], fun b hb => by rw [hstatus]; exact hb, hbank⟩

/-! ### Recording, and the shared operations -/

/-- A recorded cause sets a bit and clears none (R216). -/
theorem stickyWith_keeps (e : BitVec 9) (c : Cause) (b : Nat) (h : e.getLsbD b = true) :
    (stickyWith e c).getLsbD b = true := by
  rw [stickyWith_getLsbD, h, Bool.true_or]

theorem complete_statusKept (s : State) : StatusKept s (complete s) := .of_eq (by simp) (by simp)

/-- What keeps the status keeps it through completion. -/
theorem StatusKept.complete {s t : State} (h : StatusKept s t) : StatusKept s (complete t) :=
  h.trans (complete_statusKept t)

/-! ### The units -/

/-- The poll of INT records at most a timeout (R104). -/
theorem adcAwait_statusKept (s : State) : StatusKept s (adcAwait s) := by
  unfold adcAwait
  dsimp only
  split
  · exact .of_eq rfl rfl
  · split
    · exact ⟨rfl, rfl, stickyWith_keeps _ .conversionTimeout, rfl⟩
    · exact .of_eq rfl rfl

theorem adcStep_statusKept {s t : State} (h : adcStep s = .next t) : StatusKept s t := by
  unfold adcStep at h
  split at h <;> cases h
  case h_2 => exact .of_eq (by simp [adcAssertCs]) (by simp [adcAssertCs])
  case h_3 => exact adcAwait_statusKept s
  case h_4 => exact .of_eq (by simp [adcAssertRd]) (by simp [adcAssertRd])
  case h_5 => exact .of_eq (by simp [adcDeassertRd]) (by simp [adcDeassertRd])
  case h_6 => exact .of_eq (by simp [adcDeassertCs]) (by simp [adcDeassertCs])

theorem capDischargeStep_statusKept (s : State) : StatusKept s (capDischargeStep s) := by
  have hfirst : StatusKept s (if s.cap.timer = 0 then pinWrite .capDischarge true s else s) := by
    split
    · exact .of_eq (by simp) (by simp)
    · exact .of_eq rfl rfl
  unfold capDischargeStep
  dsimp only
  generalize (if s.cap.timer = 0 then pinWrite .capDischarge true s else s) = u at hfirst ⊢
  split <;> exact hfirst.trans (.of_eq rfl rfl)

theorem capSampleStep_statusKept (s : State) : StatusKept s (capSampleStep s) := by
  unfold capSampleStep
  dsimp only
  split
  · exact .of_eq rfl rfl
  · split <;> exact .of_eq rfl rfl

/-- The cycle records nothing, a timeout included (R125). -/
theorem capStep_statusKept {s t : State} (h : capStep s = .next t) : StatusKept s t := by
  unfold capStep at h
  split at h <;> cases h
  case h_2 => exact capDischargeStep_statusKept s
  case h_3 => exact .of_eq (by simp [capChargeStep]) (by simp [capChargeStep])
  case h_4 => exact capSampleStep_statusKept s
  case h_5 => exact .of_eq (by simp [capComputeStep]) (by simp [capComputeStep])

theorem storeReflectance_statusKept (k : Fin 16) (ok : Bool) (v : BitVec 16) (s : State) :
    StatusKept s (storeReflectance k ok v s) := by
  cases ok with
  | true => exact .of_eq rfl rfl
  | false => exact ⟨rfl, rfl, stickyWith_keeps _ .channelUnavailable, rfl⟩

/-- A scan step records at most an unavailable channel (R220). -/
theorem reflStep_statusKept (s : State) : StatusKept s (reflStep s) := by
  unfold reflStep
  dsimp only
  have hread : StatusKept s (analogRead (.refl s.seq.reflIdx) s).2 := .of_eq rfl rfl
  generalize (analogRead (.refl s.seq.reflIdx) s).1 = x
  have hstore := hread.trans (storeReflectance_statusKept s.seq.reflIdx x.1 x.2 _)
  split
  · refine StatusKept.complete (hstore.trans ?_)
    exact .of_eq rfl rfl
  · exact hstore.trans (.of_eq rfl rfl)

/-- A switch polled records at most that it is unreadable (R187). -/
theorem pollSwitch_statusKept (x : State × Vector Bool 4) (i : Fin 4) : StatusKept x.1 (pollSwitch x i).1 := by
  unfold pollSwitch debounce
  dsimp only
  split
  · split
    · exact .of_eq rfl rfl
    · split <;> exact .of_eq rfl rfl
  · exact ⟨rfl, rfl, stickyWith_keeps _ .channelUnavailable, rfl⟩

theorem foldl_pollSwitch_statusKept (l : List (Fin 4)) (x : State × Vector Bool 4) :
    StatusKept x.1 (l.foldl pollSwitch x).1 := by
  induction l generalizing x with
  | nil => exact .of_eq rfl rfl
  | cons i l ih => exact (pollSwitch_statusKept x i).trans (ih _)

theorem swStep_statusKept (s : State) : StatusKept s (swStep s) := by
  have hpoll : StatusKept s (pollSwitches s).1 :=
    foldl_pollSwitch_statusKept [0, 1, 2, 3] (s, Vector.replicate 4 false)
  refine StatusKept.complete (hpoll.trans ?_)
  exact .of_eq rfl rfl

theorem drainEncoder_statusKept (ch : Fin 2) (s : State) : StatusKept s (drainEncoder ch s) :=
  .of_eq (by simp [drainEncoder]) (by simp [drainEncoder])

theorem execAbort_statusKept {s t : State} (h : execAbort s = .next t) : StatusKept s t := by
  obtain rfl := Host.Outcome.next.inj h
  have hlines : StatusKept s (releaseLines s) := .of_eq (by simp [releaseLines]) (by simp [releaseLines])
  refine StatusKept.complete (hlines.trans ?_)
  exact ⟨rfl, rfl, stickyWith_keeps _ .aborted, rfl⟩

/-! ### The commands -/

/-- Command `i` is a PRD or PWR whose handle is out of range (R47). -/
def BadHandle (i : Instr) (c : Config) : Prop :=
  ∃ p : Byte, c.nports ≤ p.toNat ∧ (i = .prd p ∨ ∃ m v, i = .pwr p m v)

/-- How command `i` may change the mode and `DRIVE_EN` (R85, R217, R218). -/
inductive ModeMoves (i : Instr) (s t : State) : Prop where
  | stays (mode : t.status.mode = s.status.mode) (drive : t.status.driveEn = s.status.driveEn)
  | starts (isInit : i = .init) (valid : validConfig s.cfg = true) (mode : t.status.mode = .ready)
      (drive : t.status.driveEn = true)
  | refuses (isInit : i = .init) (invalid : validConfig s.cfg = false) (mode : t.status.mode = .fatal)
      (drive : t.status.driveEn = s.status.driveEn)
  | dies (bad : BadHandle i s.cfg) (mode : t.status.mode = .fatal) (drive : t.status.driveEn = s.status.driveEn)

/-- What command `i` may have done to the status registers and the bank between `s` and `t`. -/
structure CommandRecords (i : Instr) (s t : State) : Prop where
  moves  : ModeMoves i s t
  sticky : ∀ b, s.status.esticky.getLsbD b = true → t.status.esticky.getLsbD b = true
  bank   : t.bank ≠ s.bank → i = .frame ∧ s.seq.framePhase = .commit

theorem StatusKept.commandRecords {s t : State} (h : StatusKept s t) (i : Instr) : CommandRecords i s t :=
  ⟨.stays h.mode h.driveEn, h.sticky, (absurd h.bank ·)⟩

/-- INIT enters READY, or FATAL with the outputs as they are (R85, R217). -/
theorem execInit_records {s t : State} (h : execInit s = .next t) : CommandRecords .init s t := by
  obtain rfl := Host.Outcome.next.inj h
  cases hv : validConfig s.cfg with
  | true =>
    have hstatus : (initValid s).status = { s.status with mode := .ready, driveEn := true } := by
      simp [initValid, sampleEncoder]
    have hbank : (initValid s).bank = s.bank := by simp [initValid, sampleEncoder]
    exact ⟨.starts rfl hv (by simp [hstatus]) (by simp [hstatus]), fun b hb => by simpa [hstatus] using hb,
      (absurd hbank ·)⟩
  | false => exact ⟨.refuses rfl hv rfl rfl, stickyWith_keeps _ .configurationError, (absurd rfl ·)⟩

/-- A port command with its handle in range keeps the status; out of range it is fatal (R218). -/
theorem handleChecked_records {i : Instr} {p : Byte} {s u : State} (hi : i = .prd p ∨ ∃ m v, i = .pwr p m v)
    (hu : StatusKept s u) :
    CommandRecords i s (if s.handleOk (portOf p) then u else raise .invalidPortHandle s) := by
  split
  case isTrue => exact hu.commandRecords i
  case isFalse hbad =>
    have hrange : s.cfg.nports ≤ portOf p := by simpa [State.handleOk] using hbad
    rw [raise_invalidPortHandle]
    exact ⟨.dies ⟨p, hrange, hi⟩ rfl rfl, stickyWith_keeps _ .invalidPortHandle, (absurd rfl ·)⟩

/-- A FRAME records what the sub-operation of its phase records, and publishes in its last (R196, R203). -/
theorem execFrame_records {s t : State} (h : execFrame s = .next t) : CommandRecords .frame s t := by
  unfold execFrame at h
  split at h
  case h_1 => cases h
  case h_2 => cases h; exact (reflStep_statusKept s).commandRecords _
  case h_3 | h_4 => cases h; exact (drainEncoder_statusKept _ s).commandRecords _
  case h_5 => cases h; exact (swStep_statusKept s).commandRecords _
  case h_6 => exact (capStep_statusKept h).commandRecords _
  case h_7 => exact (adcStep_statusKept h).commandRecords _
  case h_8 hp => cases h; exact ⟨.stays rfl rfl, fun _ hb => hb, fun _ => ⟨rfl, hp⟩⟩

/-- What each command's step may record. -/
theorem exec_records {i : Instr} {s t : State} (h : exec i s = .next t) : CommandRecords i s t := by
  cases i with
  | nop =>
    obtain rfl := Host.Outcome.next.inj h
    exact (complete_statusKept s).commandRecords _
  | init => exact execInit_records h
  | prd p =>
    obtain rfl := Host.Outcome.next.inj h
    exact handleChecked_records (.inl rfl) (.complete (.of_eq rfl rfl))
  | pwr p m v =>
    obtain rfl := Host.Outcome.next.inj h
    exact handleChecked_records (.inr ⟨m, v, rfl⟩) (.complete (.of_eq (by simp) (by simp)))
  | adcs => exact (adcStep_statusKept h).commandRecords _
  | capm => exact (capStep_statusKept h).commandRecords _
  | rscan =>
    obtain rfl := Host.Outcome.next.inj h
    exact (reflStep_statusKept s).commandRecords _
  | edrn ch =>
    obtain rfl := Host.Outcome.next.inj h
    exact (drainEncoder_statusKept _ s).commandRecords _
  | swp =>
    obtain rfl := Host.Outcome.next.inj h
    exact (swStep_statusKept s).commandRecords _
  | mset ch v =>
    obtain rfl := Host.Outcome.next.inj h
    split
    · exact StatusKept.commandRecords (.of_eq (by simp [stopMotor]) (by simp [stopMotor])) _
    · exact StatusKept.commandRecords (.of_eq (by simp [driveMotor]) (by simp [driveMotor])) _
  | rset ch st =>
    obtain rfl := Host.Outcome.next.inj h
    exact StatusKept.commandRecords (.complete (.of_eq (by simp) (by simp))) _
  | frame => exact execFrame_records h
  | abort => exact (execAbort_statusKept h).commandRecords _

/-! ### The host, the environment and the step -/

theorem hostWrite_statusKept (n : BitVec 6) (v : Word) (s : State) : StatusKept s (hostWrite n v s) := by
  obtain h | ⟨-, -, c, hc, h⟩ | ⟨-, -, i, -, -, -, h⟩ := hostWrite_cases n v s
  · rw [h]
    exact .of_eq rfl rfl
  · rw [h, raise_refusal c hc]
    exact ⟨rfl, rfl, stickyWith_keeps _ c, rfl⟩
  · rw [h]
    obtain ⟨hstatus, -⟩ := accept_status i v s
    obtain ⟨-, -, -, -, -, hbank, -⟩ := accept_keeps i v s
    exact ⟨by rw [hstatus], by rw [hstatus], fun b hb => by rw [hstatus]; exact hb, hbank⟩

theorem encLineChange_statusKept (i : Fin 2) (l : Level) (s : State) : StatusKept s (encLineChange i l s) := by
  unfold encLineChange
  dsimp only
  split <;> exact .of_eq rfl rfl

/-- A step keeps mode, sticky bits and bank, or it is an asserted reset, or the step of a command. -/
theorem step_records {s t : State} (h : step s = .next t) :
    StatusKept s t ∨ (s.io.events.head? = some (.rst true) ∧ t = applyReset s.popped) ∨
      ∃ i, RunsNext s i ∧ CommandRecords i s t := by
  obtain ⟨-, -, rfl⟩ | ⟨i, hrun, hexec⟩ | ⟨n, v, rest, -, rfl⟩ | ⟨n, rest, -, rfl⟩ | ⟨a, rest, hev, rfl⟩ |
    ⟨i, l, rest, -, rfl⟩ := step_cases h
  · exact .inl (.of_eq rfl rfl)
  · obtain ⟨hmoves, hsticky, hbank⟩ := exec_records hexec
    refine .inr (.inr ⟨i, hrun, ?_, hsticky, hbank⟩)
    cases hmoves with
    | stays hm hd => exact .stays hm hd
    | starts hi hv hm hd => exact .starts hi hv hm hd
    | refuses hi hv hm hd => exact .refuses hi hv hm hd
    | dies hb hm hd => exact .dies hb hm hd
  · exact .inl ((StatusKept.of_eq rfl rfl : StatusKept s s.popped).trans (hostWrite_statusKept n v _))
  · exact .inl (.of_eq rfl rfl)
  · cases a with
    | true => exact .inr (.inl ⟨by simp [hev], rfl⟩)
    | false => exact .inl (.of_eq rfl rfl)
  · exact .inl ((StatusKept.of_eq rfl rfl : StatusKept s s.popped).trans (encLineChange_statusKept i l _))

/-! ### The obligations -/

/-- Settles O56, by `step_records`. -/
theorem stickyBitsStay : Obligations.StickyBitsStay := by
  unfold Obligations.StickyBitsStay
  intro s t h hreset
  obtain hkept | ⟨hev, -⟩ | ⟨i, -, hrec⟩ := step_records h
  · exact hkept.sticky
  · exact absurd hev hreset
  · exact hrec.sticky

/-- Settles O57, by `step_records`. -/
theorem bankChangesOnlyAtCommit : Obligations.BankChangesOnlyAtCommit := by
  unfold Obligations.BankChangesOnlyAtCommit
  intro s t h hne
  obtain hkept | ⟨hev, -⟩ | ⟨i, hrun, hrec⟩ := step_records h
  · exact absurd hkept.bank hne
  · exact .inl hev
  · obtain ⟨rfl, hphase⟩ := hrec.bank hne
    exact .inr ⟨hrun, hphase⟩

/-- Settles O55: `step_records` names the steps, and the invariant gives the mode each starts from (INIT runs in
UNCONFIGURED with the outputs undriven, a PRD or PWR in READY with the outputs driven). -/
theorem modeTransitions : Obligations.ModeTransitions := by
  unfold Obligations.ModeTransitions
  intro s t hinv h
  obtain hkept | ⟨hev, rfl⟩ | ⟨i, hrun, hmoves, -, -⟩ := step_records h
  · exact .inl ⟨hkept.mode, hkept.driveEn⟩
  · exact .inr (.inl ⟨hev, rfl, rfl⟩)
  · have hrunning := hrun.running hinv
    cases hmoves with
    | stays hm hd => exact .inl ⟨hm, hd⟩
    | starts hi hv hm hd =>
      subst hi
      exact .inr (.inr (.inl ⟨hrunning.unconfigured, hrun, hv, hm, hd⟩))
    | refuses hi hv hm hd =>
      subst hi
      have hstart : s.status.mode = .unconfigured := hrunning.unconfigured
      have hoff : s.status.driveEn = false := by
        have hmode := hinv.mode
        simpa only [ModeOk, hstart] using hmode
      exact .inr (.inr (.inr (.inl ⟨hstart, hrun, hv, hm, hd.trans hoff⟩)))
    | dies hbad hm hd =>
      obtain ⟨p, hp, hi⟩ := hbad
      have hready : s.status.mode = .ready := by
        obtain rfl | ⟨m, v, rfl⟩ := hi
        · exact hrunning.ready (by simp) (by simp)
        · exact hrunning.ready (by simp) (by simp)
      have hon := (hinv.sound.ready hready).2.1
      refine .inr (.inr (.inr (.inr ⟨hready, hm, hd.trans hon, p, hp, ?_⟩)))
      obtain rfl | ⟨m, v, rfl⟩ := hi
      · exact .inl hrun
      · exact .inr ⟨m, v, hrun⟩

end Sys2Proof.Machine

/-! PROOF. What the host reads and writes (10_state.md R30 to R33), and which command a tick runs (R12). -/

namespace Sys2Proof.Machine

open Sys2Proof

/-! ### Ticks and host accesses -/

/-- Settles O5: the coming step is the tick of the popped state, and the tick runs the latch. -/
theorem stepRunsLatchedCommand : Obligations.StepRunsLatchedCommand := by
  unfold Obligations.StepRunsLatchedCommand
  intro s i hnext hrst hbusy hdec
  have hruns : s.popped.sequencerRuns = true := by simp [State.sequencerRuns, hbusy, hrst]
  rw [step_of_tickNext hnext]
  exact tick_runs hruns hdec

/-- A number outside the map reads 0 (R30). -/
theorem hostRegister_unlisted (s : State) {n : BitVec 6} (h : n = 0x0D ∨ n = 0x0E ∨ n = 0x0F ∨ 0x36 ≤ n.toNat) :
    hostRegister s n = 0 := by
  obtain rfl | rfl | rfl | hhigh := h
  · rfl
  · rfl
  · rfl
  · unfold hostRegister
    rw [dif_neg (by omega), dif_neg (by omega)]
    split
    case h_20 => rfl
    all_goals omega

/-- Settles O8: the step is the event's (`step_of_cons`), which for these events is nothing. -/
theorem otherHostAccessesChangeNothing : Obligations.OtherHostAccessesChangeNothing := by
  unfold Obligations.OtherHostAccessesChangeNothing
  intro s n v rest
  refine ⟨fun hev hn => ?_, fun hev => ?_, hostRegister_unlisted s⟩
  · rw [step_of_cons hev]
    simp only [stepEvent, hostWrite, if_neg hn]
  · rw [step_of_cons hev]
    rfl

/-! ### The register map -/

/-- Register 0x10 + k is `R_REFL[k]`. -/
theorem hostRegister_refl (s : State) (k : Fin 16) :
    hostRegister s (BitVec.ofNat 6 (0x10 + k.val)) = (s.res.refl[k]).setWidth 32 := by
  have hn : (BitVec.ofNat 6 (0x10 + k.val)).toNat = 0x10 + k.val := by
    rw [BitVec.toNat_ofNat]
    omega
  unfold hostRegister
  rw [dif_pos (by omega)]
  simp only [hn, Nat.add_sub_cancel_left, Fin.getElem_fin]

/-- Register 0x20 + k is `F_REFL[k]`. -/
theorem hostRegister_bankRefl (s : State) (k : Fin 16) :
    hostRegister s (BitVec.ofNat 6 (0x20 + k.val)) = (s.bank.refl[k]).setWidth 32 := by
  have hn : (BitVec.ofNat 6 (0x20 + k.val)).toNat = 0x20 + k.val := by
    rw [BitVec.toNat_ofNat]
    omega
  unfold hostRegister
  rw [dif_neg (by omega), dif_pos (by omega)]
  simp only [hn, Nat.add_sub_cancel_left, Fin.getElem_fin]

/-- Settles O60: the numbered registers are the rows of `hostRegister`, the two arrays by their own lemmas. -/
theorem hostRegisterMap : Obligations.HostRegisterMap := by
  unfold Obligations.HostRegisterMap
  intro s
  have hreflSt : hostRegister s 0x0B = if s.res.reflSt then 1 else 0 := by
    have hrow : hostRegister s 0x0B = (BitVec.ofBool s.res.reflSt).setWidth 32 := rfl
    rw [hrow]
    cases s.res.reflSt <;> rfl
  exact ⟨rfl, rfl, rfl, rfl, rfl, rfl, rfl, rfl, rfl, rfl, hreflSt,
    fun k => ⟨hostRegister_refl s k, hostRegister_bankRefl s k⟩, rfl, rfl, rfl, rfl, rfl, rfl,
    fun _ h => hostRegister_unlisted s h⟩

/-! ### The fields of STATUS and SEQ -/

/-- The number of `STATUS`, field by field (R31). -/
theorem statusWord_toNat (s : State) :
    (statusWord s).toNat = (causeByte s.status.cause).toNat * 2 ^ 8 + s.status.driveEn.toNat * 2 ^ 5 +
      s.status.aborted.toNat * 2 ^ 4 + s.status.refused.toNat * 2 ^ 3 + s.seq.busy.toNat * 2 ^ 2 +
      (Mode.code s.status.mode).toNat := by
  have happ : (statusWord s).toNat =
      (causeByte s.status.cause ++ 0#2 ++ BitVec.ofBool s.status.driveEn ++ BitVec.ofBool s.status.aborted ++
        BitVec.ofBool s.status.refused ++ BitVec.ofBool s.seq.busy ++ Mode.code s.status.mode :
        BitVec (8 + 2 + 1 + 1 + 1 + 1 + 2)).toNat := rfl
  simp only [happ, append_toNat, BitVec.toNat_ofBool, BitVec.toNat_ofNat]
  omega

/-- The number of `SEQ`, field by field (R33). -/
theorem seqWord_toNat (s : State) :
    (seqWord s).toNat = (FramePhase.code s.seq.framePhase).toNat * 2 ^ 16 + s.seq.reflIdx.val * 2 ^ 8 +
      (CapState.code s.seq.capState).toNat * 2 ^ 4 + (AdcState.code s.seq.adcState).toNat := by
  have happ : (seqWord s).toNat =
      (FramePhase.code s.seq.framePhase ++ 0#3 ++ BitVec.ofNat 5 s.seq.reflIdx.val ++ 0#1 ++
        CapState.code s.seq.capState ++ 0#1 ++ AdcState.code s.seq.adcState :
        BitVec (3 + 3 + 5 + 1 + 3 + 1 + 3)).toNat := rfl
  simp only [happ, append_toNat, BitVec.toNat_ofNat]
  have := s.seq.reflIdx.isLt
  omega

/-- A field is read off the number of its word. -/
theorem extract_eq_of_toNat {n : Nat} (w : Word) (k : Nat) (x : BitVec n) (h : w.toNat / 2 ^ k % 2 ^ n = x.toNat) :
    w.extractLsb' k n = x := by
  apply BitVec.eq_of_toNat_eq
  rw [BitVec.extractLsb'_toNat, Nat.shiftRight_eq_div_pow, h]

/-- So is a bit. -/
theorem bit_eq_of_toNat (w : Word) (k : Nat) (b : Bool) (h : w.toNat / 2 ^ k % 2 = b.toNat) : w.getLsbD k = b := by
  rw [BitVec.getLsbD, Nat.testBit_eq_decide_div_mod_eq, h]
  cases b <;> rfl

/-- The fields of `STATUS` as the host reads it (R31). -/
theorem status_fields (s : State) :
    let st := hostRegister s 0x01
    st.extractLsb' 0 2 = Mode.code s.status.mode ∧ st.getLsbD 2 = s.seq.busy ∧ st.getLsbD 3 = s.status.refused ∧
      st.getLsbD 4 = s.status.aborted ∧ st.getLsbD 5 = s.status.driveEn ∧ st.extractLsb' 6 2 = 0#2 ∧
      st.extractLsb' 8 8 = causeByte s.status.cause ∧ st.extractLsb' 16 16 = 0#16 := by
  have hreg : (hostRegister s 0x01).toNat = (statusWord s).toNat := by
    have hrow : hostRegister s 0x01 = (statusWord s).setWidth 32 := rfl
    rw [hrow, BitVec.toNat_setWidth, Nat.mod_eq_of_lt ((statusWord s).isLt.trans (by decide))]
  rw [statusWord_toNat] at hreg
  have hmode := (Mode.code s.status.mode).isLt
  have hcause := (causeByte s.status.cause).isLt
  have hbusy := s.seq.busy.toNat_le
  have hrefused := s.status.refused.toNat_le
  have haborted := s.status.aborted.toNat_le
  have hdrive := s.status.driveEn.toNat_le
  refine ⟨extract_eq_of_toNat _ _ _ ?_, bit_eq_of_toNat _ _ _ ?_, bit_eq_of_toNat _ _ _ ?_, bit_eq_of_toNat _ _ _ ?_,
    bit_eq_of_toNat _ _ _ ?_, extract_eq_of_toNat _ _ _ ?_, extract_eq_of_toNat _ _ _ ?_,
    extract_eq_of_toNat _ _ _ ?_⟩
  · rw [hreg]; omega
  · rw [hreg]; omega
  · rw [hreg]; omega
  · rw [hreg]; omega
  · rw [hreg]; omega
  · rw [hreg, BitVec.toNat_ofNat]; omega
  · rw [hreg]; omega
  · rw [hreg, BitVec.toNat_ofNat]; omega

/-- The fields of `SEQ` as the host reads it (R33). -/
theorem seq_fields (s : State) :
    let sq := hostRegister s 0x0C
    sq.extractLsb' 0 3 = AdcState.code s.seq.adcState ∧ sq.getLsbD 3 = false ∧
      sq.extractLsb' 4 3 = CapState.code s.seq.capState ∧ sq.getLsbD 7 = false ∧
      (sq.extractLsb' 8 5).toNat = s.seq.reflIdx.val ∧ sq.extractLsb' 13 3 = 0#3 ∧
      sq.extractLsb' 16 3 = FramePhase.code s.seq.framePhase ∧ sq.extractLsb' 19 13 = 0#13 := by
  have hreg : (hostRegister s 0x0C).toNat = (seqWord s).toNat := by
    have hrow : hostRegister s 0x0C = (seqWord s).setWidth 32 := rfl
    rw [hrow, BitVec.toNat_setWidth, Nat.mod_eq_of_lt ((seqWord s).isLt.trans (by decide))]
  rw [seqWord_toNat] at hreg
  have hphase := (FramePhase.code s.seq.framePhase).isLt
  have hcap := (CapState.code s.seq.capState).isLt
  have hadc := (AdcState.code s.seq.adcState).isLt
  have hidx := s.seq.reflIdx.isLt
  refine ⟨extract_eq_of_toNat _ _ _ ?_, bit_eq_of_toNat _ _ _ ?_, extract_eq_of_toNat _ _ _ ?_,
    bit_eq_of_toNat _ _ _ ?_, ?_, extract_eq_of_toNat _ _ _ ?_, extract_eq_of_toNat _ _ _ ?_,
    extract_eq_of_toNat _ _ _ ?_⟩
  · rw [hreg]; omega
  · rw [hreg, Bool.toNat_false]; omega
  · rw [hreg]; omega
  · rw [hreg, Bool.toNat_false]; omega
  · rw [BitVec.extractLsb'_toNat, Nat.shiftRight_eq_div_pow, hreg]; omega
  · rw [hreg, BitVec.toNat_ofNat]; omega
  · rw [hreg]; omega
  · rw [hreg, BitVec.toNat_ofNat]; omega

/-- Settles O9: the fields by `status_fields` and `seq_fields`, the codes by their definition. -/
theorem statusAndSeqLayout : Obligations.StatusAndSeqLayout := by
  unfold Obligations.StatusAndSeqLayout
  refine ⟨fun s => ?_, by decide, by decide, by decide, by decide, by decide⟩
  obtain ⟨h0, h2, h3, h4, h5, h6, h8, h16⟩ := status_fields s
  exact ⟨h0, h2, h3, h4, h5, h6, h8, h16, seq_fields s⟩

end Sys2Proof.Machine

/-! PROOF. What a port access returns, writes and records (20_memory.md R41 to R59), and the fatal handle (R47,
R218). -/

namespace Sys2Proof.Machine

open Sys2Proof

/-! ### The history -/

/-- Every access in the history of `w` is in that of `w'`, at the same place. -/
def HistoryGrows (w w' : World) : Prop := w.trace <+: w'.trace

theorem HistoryGrows.refl (w : World) : HistoryGrows w w := List.prefix_rfl

theorem HistoryGrows.trans {w w' w'' : World} (h : HistoryGrows w w') (k : HistoryGrows w' w'') : HistoryGrows w w'' :=
  List.IsPrefix.trans h k

/-! ### The history: accesses and exceptions -/

theorem logAccess_historyGrows (a : Access) (s : State) : HistoryGrows s.io (logAccess a s).io := ⟨[a], rfl⟩

/-- A PortWrite adds its access, or none when the handle is invalid (R42, R47). -/
theorem portWrite_historyGrows (p : Nat) (m v : Byte) (s : State) : HistoryGrows s.io (portWrite p m v s).io := by
  rw [portWrite_io]
  split
  · exact ⟨[.write p m v], rfl⟩
  · exact .refl _

theorem pinWrite_historyGrows (n : Pin) (a : Bool) (s : State) : HistoryGrows s.io (pinWrite n a s).io :=
  portWrite_historyGrows _ _ _ s

theorem driveAll_historyGrows (l : List (Pin × Bool)) (s : State) : HistoryGrows s.io (driveAll l s).io := by
  induction l generalizing s with
  | nil => exact .refl _
  | cons x l ih => exact (pinWrite_historyGrows x.1 x.2 s).trans (ih _)

theorem deassertOutputs_historyGrows (s : State) : HistoryGrows s.io (deassertOutputs s).io := by
  rw [deassertOutputs_eq]
  exact driveAll_historyGrows _ s

theorem portRead_historyGrows (p : Nat) (s : State) : HistoryGrows s.io (portRead p s).2.io :=
  logAccess_historyGrows _ (takeAnswer s)

theorem pinRead_historyGrows (n : Pin) (s : State) : HistoryGrows s.io (pinRead n s).2.io := portRead_historyGrows _ s

theorem analogRead_historyGrows (n : Pin) (s : State) : HistoryGrows s.io (analogRead n s).2.io :=
  logAccess_historyGrows _ (takeAnswer s)

/-- Of the exceptions only a run-time fatal makes accesses, its twelve de-assertions (R218). -/
theorem raise_historyGrows (c : Cause) (s : State) : HistoryGrows s.io (raise c s).io := by
  cases c with
  | invalidPortHandle =>
    have hio : (raise .invalidPortHandle s).io = (deassertOutputs (record .invalidPortHandle s)).io := by
      rw [raise_invalidPortHandle]
    rw [hio]
    exact deassertOutputs_historyGrows (record .invalidPortHandle s)
  | configurationError | conversionTimeout | channelUnavailable | contractViolation | wrongMode | illegalCommand
  | aborted => exact .refl _

/-! ### The history: the units -/

theorem adcAwait_historyGrows (s : State) : HistoryGrows s.io (adcAwait s).io := by
  have hpoll := pinRead_historyGrows .adcInt s
  unfold adcAwait
  dsimp only
  split
  · exact hpoll
  · split
    · exact hpoll
    · exact hpoll

theorem adcStep_historyGrows {s t : State} (h : adcStep s = .next t) : HistoryGrows s.io t.io := by
  unfold adcStep at h
  split at h <;> cases h
  case h_2 => exact pinWrite_historyGrows .adcCs true s
  case h_3 => exact adcAwait_historyGrows s
  case h_4 =>
    unfold adcAssertRd
    refine .trans ?_ (portRead_historyGrows _ _)
    exact pinWrite_historyGrows .adcRd true s
  case h_5 => exact pinWrite_historyGrows .adcRd false s
  case h_6 =>
    rw [adcDeassertCs, complete_io]
    exact pinWrite_historyGrows .adcCs false s

/-- The first visit writes the discharge line, the others make no access (R121). -/
theorem capDischargeStep_historyGrows (s : State) : HistoryGrows s.io (capDischargeStep s).io := by
  have hfirst : HistoryGrows s.io (if s.cap.timer = 0 then pinWrite .capDischarge true s else s).io := by
    split
    · exact pinWrite_historyGrows _ _ s
    · exact .refl _
  unfold capDischargeStep
  dsimp only
  generalize (if s.cap.timer = 0 then pinWrite .capDischarge true s else s) = u at hfirst ⊢
  split <;> exact hfirst

theorem capSampleStep_historyGrows (s : State) : HistoryGrows s.io (capSampleStep s).io := by
  have hread := analogRead_historyGrows .capSample s
  unfold capSampleStep
  dsimp only
  split
  · exact hread
  · split
    · exact hread
    · exact hread

theorem capStep_historyGrows {s t : State} (h : capStep s = .next t) : HistoryGrows s.io t.io := by
  unfold capStep at h
  split at h <;> cases h
  case h_2 => exact capDischargeStep_historyGrows s
  case h_3 => exact driveAll_historyGrows [(.capDischarge, false), (.capCharge, true)] s
  case h_4 => exact capSampleStep_historyGrows s
  case h_5 =>
    rw [capComputeStep, complete_io]
    exact pinWrite_historyGrows .capCharge false s

theorem storeReflectance_io (k : Fin 16) (ok : Bool) (v : BitVec 16) (s : State) :
    (storeReflectance k ok v s).io = s.io := by
  cases ok <;> rfl

theorem reflStep_historyGrows (s : State) : HistoryGrows s.io (reflStep s).io := by
  have hread := analogRead_historyGrows (.refl s.seq.reflIdx) s
  unfold reflStep
  dsimp only
  split
  · rw [complete_io, storeReflectance_io]
    exact hread
  · rw [storeReflectance_io]
    exact hread

theorem debounce_io (i : Fin 4) (raw : Bool) (s : State) : (debounce i raw s).io = s.io := by
  unfold debounce
  split
  · rfl
  · split <;> rfl

theorem pollSwitch_historyGrows (x : State × Vector Bool 4) (i : Fin 4) :
    HistoryGrows x.1.io (pollSwitch x i).1.io := by
  have hread := pinRead_historyGrows (.sw i) x.1
  unfold pollSwitch
  dsimp only
  split
  · rw [debounce_io]
    exact hread
  · exact hread

theorem foldl_pollSwitch_historyGrows (l : List (Fin 4)) (x : State × Vector Bool 4) :
    HistoryGrows x.1.io (l.foldl pollSwitch x).1.io := by
  induction l generalizing x with
  | nil => exact .refl _
  | cons i l ih => exact (pollSwitch_historyGrows x i).trans (ih _)

theorem swStep_historyGrows (s : State) : HistoryGrows s.io (swStep s).io := by
  rw [swStep, complete_io]
  exact foldl_pollSwitch_historyGrows [0, 1, 2, 3] (s, Vector.replicate 4 false)

/-- A drain makes no access (R155). -/
theorem drainEncoder_io (ch : Fin 2) (s : State) : (drainEncoder ch s).io = s.io := by simp [drainEncoder]

/-! ### The history: the commands -/

theorem sampleEncoder_historyGrows (i : Fin 2) (s : State) : HistoryGrows s.io (sampleEncoder i s).io :=
  pinRead_historyGrows (.enc i) s

/-- Twelve writes, then the two encoder reads (R85). -/
theorem initValid_historyGrows (s : State) : HistoryGrows s.io (initValid s).io := by
  have hdrive := deassertOutputs_historyGrows s
  simp only [initValid, complete_io]
  generalize deassertOutputs s = u at hdrive ⊢
  exact hdrive.trans (.trans (sampleEncoder_historyGrows 0 _) (sampleEncoder_historyGrows 1 _))

theorem driveMotor_historyGrows (ch : Fin 2) (v : BitVec 16) (s : State) :
    HistoryGrows s.io (driveMotor ch v s).io := by
  rw [driveMotor, complete_io]
  refine .trans ?_ (pinWrite_historyGrows (.motorPwm ch) true _)
  exact driveAll_historyGrows [(.motorDir ch, v.slt 0), (.motorEn ch, true)] s

theorem stopMotor_historyGrows (ch : Fin 2) (s : State) : HistoryGrows s.io (stopMotor ch s).io := by
  rw [stopMotor, complete_io]
  refine .trans ?_ (pinWrite_historyGrows (.motorEn ch) _ _)
  exact pinWrite_historyGrows (.motorPwm ch) false s

theorem execFrame_historyGrows {s t : State} (h : execFrame s = .next t) : HistoryGrows s.io t.io := by
  unfold execFrame at h
  split at h
  case h_1 => cases h
  case h_2 => cases h; exact reflStep_historyGrows s
  case h_3 => cases h; rw [drainEncoder_io]; exact .refl _
  case h_4 => cases h; rw [drainEncoder_io]; exact .refl _
  case h_5 => cases h; exact swStep_historyGrows s
  case h_6 => exact capStep_historyGrows h
  case h_7 => exact adcStep_historyGrows h
  case h_8 => cases h; exact .refl _

theorem execAbort_historyGrows {s t : State} (h : execAbort s = .next t) : HistoryGrows s.io t.io := by
  obtain rfl := Host.Outcome.next.inj h
  simp only [complete_io, raise_aborted, record_io]
  exact driveAll_historyGrows [(.adcRd, false), (.adcCs, false), (.capDischarge, false), (.capCharge, false)] s

/-- No command's step removes an access. -/
theorem exec_historyGrows {i : Instr} {s t : State} (h : exec i s = .next t) : HistoryGrows s.io t.io := by
  cases i with
  | adcs => exact adcStep_historyGrows h
  | capm => exact capStep_historyGrows h
  | frame => exact execFrame_historyGrows h
  | abort => exact execAbort_historyGrows h
  | nop =>
    obtain rfl := Host.Outcome.next.inj h
    rw [complete_io]
    exact .refl _
  | init =>
    obtain rfl := Host.Outcome.next.inj h
    split
    · exact initValid_historyGrows s
    · exact raise_historyGrows _ s
  | prd p =>
    obtain rfl := Host.Outcome.next.inj h
    split
    · rw [readPortResult, complete_io]
      exact portRead_historyGrows _ s
    · exact raise_historyGrows _ s
  | pwr p m v =>
    obtain rfl := Host.Outcome.next.inj h
    split
    · rw [complete_io]
      exact portWrite_historyGrows _ m v s
    · exact raise_historyGrows _ s
  | rscan =>
    obtain rfl := Host.Outcome.next.inj h
    exact reflStep_historyGrows s
  | edrn ch =>
    obtain rfl := Host.Outcome.next.inj h
    rw [drainEncoder_io]
    exact .refl _
  | swp =>
    obtain rfl := Host.Outcome.next.inj h
    exact swStep_historyGrows s
  | mset ch v =>
    obtain rfl := Host.Outcome.next.inj h
    split
    · exact stopMotor_historyGrows _ s
    · exact driveMotor_historyGrows _ v s
  | rset ch st =>
    obtain rfl := Host.Outcome.next.inj h
    rw [complete_io]
    exact pinWrite_historyGrows _ _ s

/-! ### The history: the host, the reset input and the environment -/

/-- A host write is no access (R49). -/
theorem hostWrite_io (n : BitVec 6) (v : Word) (s : State) : (hostWrite n v s).io = s.io := by
  obtain h | ⟨-, -, c, hc, h⟩ | ⟨-, -, i, -, -, -, h⟩ := hostWrite_cases n v s
  · rw [h]
  · rw [h, raise_refusal c hc]
  · obtain ⟨-, -, -, -, -, -, hio⟩ := accept_keeps i v s
    rw [h, hio]

theorem driveRst_trace (asserted : Bool) (s : State) : (driveRst asserted s).io.trace = s.io.trace := by
  cases asserted <;> rfl

theorem encLineChange_trace (i : Fin 2) (l : Level) (s : State) : (encLineChange i l s).io.trace = s.io.trace := by
  unfold encLineChange
  dsimp only
  split <;> rfl

/-- Settles O59: of the steps listed by `step_cases`, the tick of a running sequencer extends the history
(`exec_historyGrows`), and every other step leaves it as it is. -/
theorem historyOnlyGrows : Obligations.HistoryOnlyGrows := by
  unfold Obligations.HistoryOnlyGrows
  intro s t hstep
  have hkept (h : t.io.trace = s.io.trace) :
      s.io.trace <+: t.io.trace ∧ (t.io.trace ≠ s.io.trace → TickNext s ∧ s.sequencerRuns = true) :=
    ⟨h ▸ List.prefix_rfl, fun hne => absurd h hne⟩
  obtain ⟨-, -, rfl⟩ | ⟨i, ⟨hnext, hruns, -⟩, hexec⟩ | ⟨n, v, rest, -, rfl⟩ | ⟨n, rest, -, rfl⟩ |
    ⟨a, rest, -, rfl⟩ | ⟨i, l, rest, -, rfl⟩ := step_cases hstep
  · exact hkept rfl
  · have hgrows : HistoryGrows s.popped.io t.io := exec_historyGrows hexec
    exact ⟨hgrows, fun _ => ⟨hnext, hruns⟩⟩
  · exact hkept (by rw [hostWrite_io]; rfl)
  · exact hkept rfl
  · exact hkept (driveRst_trace a s.popped)
  · exact hkept (encLineChange_trace i l s.popped)

/-! ### Port writes and the fatal handle -/

theorem handleOk_iff (s : State) (p : Nat) : s.handleOk p = true ↔ p < s.cfg.nports := by simp [State.handleOk]

/-- A PortWrite with a valid handle changes the latches and adds one access (R42). -/
theorem portWrite_eq {s : State} {p : Nat} (hp : s.handleOk p = true) (m v : Byte) :
    portWrite p m v s = { s with out := (portWrite p m v s).out, io := s.io.after 0 [.write p m v] } := by
  simp [portWrite, hp, logAccess, after_zero]

/-- Settles O17: the latches by `portWrite_latch` and the mask property, the rest by `portWrite_eq`. -/
theorem pwrWritesUnderMask : Obligations.PwrWritesUnderMask := by
  unfold Obligations.PwrWritesUnderMask
  intro s p m v hcmd hp hw
  have hok : s.handleOk p.toNat = true := (handleOk_iff s _).mpr hp
  have hout : (portWrite p.toNat m v s).inFrame = false := by
    rw [State.inFrame, portWrite_seq]
    exact inFrame_encode hcmd
  have hlatch := portWrite_latch p.toNat m v s hw hok
  have hself : (portWrite p.toNat m v s).latch p.toNat = maskedWrite (s.latch p.toNat) m v := by
    rw [hlatch, if_pos rfl]
  refine ⟨{ portWrite p.toNat m v s with seq.busy := false }, ?_, ?_, ?_, fun q hq => ?_, ?_⟩
  · show execPwr p m v s = _
    rw [execPwr, portOf, if_pos hok, complete_of_not_inFrame hout]
  · exact hself ▸ maskedWrite_inside _ m v
  · exact hself ▸ maskedWrite_outside _ m v
  · exact (hlatch q).trans (if_neg hq)
  · conv_lhs => rw [portWrite_eq hok]

/-- A port command whose handle is out of range makes no access of its own (R47). -/
theorem exec_invalidHandle {s : State} {p : Byte} {i : Instr} (hi : i = .prd p ∨ ∃ m v, i = .pwr p m v)
    (hp : s.cfg.nports ≤ p.toNat) : exec i s = .next (raise .invalidPortHandle s) := by
  have hbad : ¬ s.handleOk (portOf p) = true := by simpa [handleOk_iff, portOf] using hp
  obtain rfl | ⟨m, v, rfl⟩ := hi
  · show execPrd p s = _
    rw [execPrd, if_neg hbad]
  · show execPwr p m v s = _
    rw [execPwr, if_neg hbad]

/-- Settles O18: the exception's record and the twelve de-assertions (`raise_invalidPortHandle`, `driveAll_drives`). -/
theorem invalidHandleIsFatal : Obligations.InvalidHandleIsFatal := by
  unfold Obligations.InvalidHandleIsFatal
  intro s p i hi hp hv hw
  have hdrives : LatchesDrive s (deassertOutputs (record .invalidPortHandle s)) (outputPins.map fun n => (n, false)) :=
    driveAll_drives (s := record .invalidPortHandle s) hv hw _ (by decide)
  have hio : (deassertOutputs (record .invalidPortHandle s)).io =
      s.io.after 0 (outputPins.map fun n => pinAccess s.cfg n false) := by
    rw [deassertOutputs_eq, driveAll_eq (s := record .invalidPortHandle s) hv, List.map_map]
    rfl
  have hsticky : stickyWith s.status.esticky .invalidPortHandle = s.status.esticky ||| 4#9 := by
    simp [stickyWith, Cause.code]
  refine ⟨_, exec_invalidHandle hi hp, latchesDrive_congr hdrives ?_ ?_, ?_⟩
  · simp [raise_invalidPortHandle]
  · simp [raise_invalidPortHandle]
  · rw [raise_invalidPortHandle, hio, hsticky]

/-! ### What a port read and a pin show -/

/-- The place of a pin, its port and its bit (R6). -/
theorem pinIsAt_iff (c : Config) (n : Pin) (p b : Nat) :
    pinIsAt c n p b = true ↔ (pinOf c n).port = p ∧ (pinOf c n).bit = b := by
  simp [pinIsAt]

/-- Settles O15: the three kinds of pin are the branches of `portBit`; under a valid configuration an encoder pin is no
output pin and not the other encoder's. -/
theorem portReadPattern : Obligations.PortReadPattern := by
  unfold Obligations.PortReadPattern
  intro s levels p b hb hv
  rw [portPattern_bit s levels p b hb, State.portBit]
  refine ⟨fun hout => if_pos hout, fun i hat => ?_, fun hout henc => ?_⟩
  · obtain ⟨rfl, rfl⟩ := (pinIsAt_iff _ _ _ _).mp hat
    have hnot : ∀ j : Fin 2, Pin.enc j ∉ outputPins := by decide
    rw [isOutputPin_pin hv, pinIsAt_unique hv, pinIsAt_unique hv, decide_eq_false (hnot i)]
    obtain rfl | rfl : i = 0 ∨ i = 1 := by omega
    · simp
    · simp
  · simp [hout, henc 0, henc 1]

/-- The level of an output pin while the outputs are driven (R59). -/
theorem pinLevel_output {s : State} (hd : s.status.driveEn = true) (hv : validConfig s.cfg = true) {n : Pin}
    (hn : n ∈ outputPins) (ph : Fin 255) :
    pinLevel s (pinOf s.cfg n).port (pinOf s.cfg n).bit ph =
      if .motorPwm 0 = n then some (pwmLevel s 0 ph)
      else if .motorPwm 1 = n then some (pwmLevel s 1 ph)
      else some (s.latchBit n) := by
  unfold pinLevel
  rw [isOutputPin_pin hv, pinIsAt_unique hv, pinIsAt_unique hv]
  simp [hd, hn, State.latchBit]

/-- Settles O19: a pin that is not driven by the first branch of `pinLevel`, an output pin by `pinLevel_output`. -/
theorem pwmPinShowsDuty : Obligations.PwmPinShowsDuty := by
  unfold Obligations.PwmPinShowsDuty
  intro s ph
  refine ⟨fun hoff p b => ?_, fun p b hno => ?_, fun hd hv => ⟨fun i => ?_, fun n hn hne => ?_⟩⟩
  · simp [pinLevel, hoff]
  · simp [pinLevel, hno]
  · have hmem : Pin.motorPwm i ∈ outputPins := by revert i; decide
    rw [pinLevel_output hd hv hmem]
    obtain rfl | rfl : i = 0 ∨ i = 1 := by omega
    · simp [pwmLevel]
    · simp [pwmLevel]
  · rw [pinLevel_output hd hv hn, if_neg (Ne.symm (hne 0)), if_neg (Ne.symm (hne 1))]

end Sys2Proof.Machine

/-! PROOF. The decoder and the encoder are inverse to each other, and the match/mask table says which words are legal
(30_encoding.md R61 to R67, R70). -/

namespace Sys2Proof

open Sys2Proof.Laws

/-! ### The checks of the decoder -/

/-- A channel field is accepted exactly when it is 0 or 1 (R64). -/
theorem channelOk_iff (ch : Byte) : channelOk ch = true ↔ ch.toNat ≤ 1 := by simp [channelOk]

/-- A relay state field is accepted exactly when it is 0 or 1 (R64). -/
theorem relayStateOk_iff (st : Byte) : relayStateOk st = true ↔ st.toNat ≤ 1 := by simp [relayStateOk]

theorem reservedZero_eq_legal_iff (rs : List Byte) (i j : Instr) :
    reservedZero rs i = .legal j ↔ (∀ r ∈ rs, r = 0#8) ∧ i = j := by
  have hall : rs.all (· == 0#8) = true ↔ ∀ r ∈ rs, r = 0#8 := by simp
  rw [reservedZero, ← hall]
  by_cases h : rs.all (· == 0#8) = true
  · rw [if_pos h]
    simp only [h, Decoded.legal.injEq, true_and]
  · rw [if_neg h]
    simp only [h, reduceCtorEq, false_and]

theorem withChannel_eq_legal_iff (ch : Byte) (d : Decoded) (i : Instr) :
    withChannel ch d = .legal i ↔ channelOk ch = true ∧ d = .legal i := by
  by_cases h : channelOk ch = true
  · simp [withChannel, h]
  · simp [withChannel, h]

theorem withRelayState_eq_legal_iff (st : Byte) (d : Decoded) (i : Instr) :
    withRelayState st d = .legal i ↔ relayStateOk st = true ∧ d = .legal i := by
  by_cases h : relayStateOk st = true
  · simp [withRelayState, h]
  · simp [withRelayState, h]

/-- An RSET is legal when both of its checked fields are (R64). -/
theorem rset_wellFormed_iff (ch st : Byte) :
    (Instr.rset ch st).WellFormed ↔ channelOk ch = true ∧ relayStateOk st = true := Bool.and_eq_true_iff

/-! ### From a command to its word and back -/

/-- The decoder reads the four fields a word is made of (R61). -/
theorem decode_wordOf (op a b c : Byte) : decode (wordOf op a b c) = decodeFields op a b c := by
  simp [decode]

/-- Settles O1: `decode_wordOf` gives the decoder the fields that the encoder wrote; the commands with a channel or a
state field pass their checks because they are well-formed, and the speed of MSET is put together again by
`speed_bytes`. -/
theorem decodeInvertsEncode : Obligations.DecodeInvertsEncode := by
  unfold Obligations.DecodeInvertsEncode
  intro i hwf
  cases i with
  | nop | init | adcs | capm | rscan | swp | frame | abort => exact decode_wordOf ..
  | prd p => exact decode_wordOf ..
  | pwr p m v => exact decode_wordOf ..
  | edrn ch =>
    refine (decode_wordOf ..).trans ((withChannel_eq_legal_iff ..).mpr ⟨hwf, ?_⟩)
    exact (reservedZero_eq_legal_iff ..).mpr ⟨by simp, rfl⟩
  | mset ch s =>
    refine (decode_wordOf ..).trans ((withChannel_eq_legal_iff ..).mpr ⟨hwf, ?_⟩)
    rw [speed_bytes]
  | rset ch st =>
    obtain ⟨hch, hst⟩ := (rset_wellFormed_iff ch st).mp hwf
    refine (decode_wordOf ..).trans ((withChannel_eq_legal_iff ..).mpr ⟨hch, ?_⟩)
    refine (withRelayState_eq_legal_iff ..).mpr ⟨hst, ?_⟩
    exact (reservedZero_eq_legal_iff ..).mpr ⟨by simp, rfl⟩

/-! ### From a word to its command and back -/

/-- The two bytes of a speed are the fields `b` and `c` of MSET (R62). -/
theorem encode_mset_append (ch b c : Byte) : encode (.mset ch (b ++ c)) = wordOf 0x20 ch b c := by
  rw [encode, speedHigh_append, speedLow_append]

/-- A command without operands, of operation number `n`: all three operand fields are reserved (R62). -/
theorem encode_of_reservedZero {op a b c : Byte} {i j : Instr} {n : Nat} (hop : op.toNat = n)
    (hwf : j.WellFormed) (henc : encode j = wordOf (BitVec.ofNat 8 n) 0 0 0)
    (h : reservedZero [a, b, c] j = .legal i) : i.WellFormed ∧ encode i = wordOf op a b c := by
  obtain ⟨hzero, rfl⟩ := (reservedZero_eq_legal_iff ..).mp h
  obtain ⟨rfl, rfl, rfl⟩ : a = 0 ∧ b = 0 ∧ c = 0 := by simpa using hzero
  refine ⟨hwf, henc.trans ?_⟩
  rw [← hop, BitVec.ofNat_toNat, BitVec.setWidth_eq]

/-- What four fields decode to is a well-formed command, whose word is made of these fields. -/
theorem encode_of_decodeFields {op a b c : Byte} {i : Instr} (h : decodeFields op a b c = .legal i) :
    i.WellFormed ∧ encode i = wordOf op a b c := by
  unfold decodeFields at h
  split at h
  case h_1 hop => exact encode_of_reservedZero hop rfl rfl h
  case h_2 hop => exact encode_of_reservedZero hop rfl rfl h
  case h_3 hop =>
    obtain rfl : op = 0x02#8 := BitVec.eq_of_toNat_eq hop
    obtain ⟨hzero, rfl⟩ := (reservedZero_eq_legal_iff ..).mp h
    obtain ⟨rfl, rfl⟩ : b = 0 ∧ c = 0 := by simpa using hzero
    exact ⟨rfl, rfl⟩
  case h_4 hop =>
    obtain rfl : op = 0x03#8 := BitVec.eq_of_toNat_eq hop
    obtain rfl := Decoded.legal.inj h
    exact ⟨rfl, rfl⟩
  case h_5 hop => exact encode_of_reservedZero hop rfl rfl h
  case h_6 hop => exact encode_of_reservedZero hop rfl rfl h
  case h_7 hop => exact encode_of_reservedZero hop rfl rfl h
  case h_8 hop =>
    obtain rfl : op = 0x13#8 := BitVec.eq_of_toNat_eq hop
    obtain ⟨hch, h⟩ := (withChannel_eq_legal_iff ..).mp h
    obtain ⟨hzero, rfl⟩ := (reservedZero_eq_legal_iff ..).mp h
    obtain ⟨rfl, rfl⟩ : b = 0 ∧ c = 0 := by simpa using hzero
    exact ⟨hch, rfl⟩
  case h_9 hop => exact encode_of_reservedZero hop rfl rfl h
  case h_10 hop =>
    obtain rfl : op = 0x20#8 := BitVec.eq_of_toNat_eq hop
    obtain ⟨hch, h⟩ := (withChannel_eq_legal_iff ..).mp h
    obtain rfl := Decoded.legal.inj h
    exact ⟨hch, encode_mset_append ..⟩
  case h_11 hop =>
    obtain rfl : op = 0x21#8 := BitVec.eq_of_toNat_eq hop
    obtain ⟨hch, h⟩ := (withChannel_eq_legal_iff ..).mp h
    obtain ⟨hst, h⟩ := (withRelayState_eq_legal_iff ..).mp h
    obtain ⟨hzero, rfl⟩ := (reservedZero_eq_legal_iff ..).mp h
    obtain rfl : b = 0 := by simpa using hzero
    exact ⟨(rset_wellFormed_iff ..).mpr ⟨hch, hst⟩, rfl⟩
  case h_12 hop => exact encode_of_reservedZero hop rfl rfl h
  case h_13 hop => exact encode_of_reservedZero hop rfl rfl h
  case h_14 => cases h

/-- Settles O2: `encode_of_decodeFields` for the fields of the word, which make up the word (`wordOf_fields`). -/
theorem encodeInvertsDecode : Obligations.EncodeInvertsDecode := by
  unfold Obligations.EncodeInvertsDecode
  intro w i h
  obtain ⟨hwf, henc⟩ := encode_of_decodeFields h
  exact ⟨hwf, henc.trans (wordOf_fields w)⟩

/-! ### The match/mask table -/

/-- The word of every legal command matches a row of the table, under the command's mnemonic (R63). -/
theorem encodesRow (i : Instr) : EncodesRow.Statement i := by
  cases i with
  | nop => exact EncodesRow.nop
  | init => exact EncodesRow.init
  | prd p => exact EncodesRow.prd p
  | pwr p m v => exact EncodesRow.pwr p m v
  | adcs => exact EncodesRow.adcs
  | capm => exact EncodesRow.capm
  | rscan => exact EncodesRow.rscan
  | edrn ch => exact EncodesRow.edrn ch
  | swp => exact EncodesRow.swp
  | mset ch s => exact EncodesRow.mset ch s
  | rset ch st => exact EncodesRow.rset ch st
  | frame => exact EncodesRow.frame
  | abort => exact EncodesRow.abort

/-- A row that compares every bit is matched by its pattern only. -/
theorem eq_of_matchesWord_exact {m : String} {p w : Word}
    (h : (⟨m, p, 0xFFFFFFFF⟩ : OpcodeRow).matchesWord w = true) : w = p := by
  have hmasked : w &&& BitVec.allOnes 32 = p := eq_of_beq h
  rwa [BitVec.and_allOnes] at hmasked

/-- A word that matches a row matches it field by field. -/
theorem fields_of_matchesWord {r : OpcodeRow} {w : Word} (h : r.matchesWord w = true) :
    opField w &&& opField r.mask = opField r.pattern ∧ aField w &&& aField r.mask = aField r.pattern ∧
      bField w &&& bField r.mask = bField r.pattern ∧ cField w &&& cField r.mask = cField r.pattern := by
  have hmasked : w &&& r.mask = r.pattern := eq_of_beq h
  rw [← wordOf_fields w, ← wordOf_fields r.mask, wordOf_and] at hmasked
  simp [← hmasked]

/-- A word is put together from what its fields are known to be. -/
theorem wordOf_eq_of_fields {w : Word} {op a b c : Byte} (hop : opField w = op) (ha : aField w = a)
    (hb : bField w = b) (hc : cField w = c) : wordOf op a b c = w := by
  rw [← hop, ← ha, ← hb, ← hc, wordOf_fields]

/-- A field that is compared in every bit. -/
theorem eq_of_masked_full {x y : Byte} (h : x &&& 0xFF#8 = y) : x = y :=
  (BitVec.and_allOnes (x := x)).symm.trans h

/-- A field with no bit but bit 0 is 0 or 1: the converse of `small_masked`. -/
theorem toNat_le_one_of_masked {x : Byte} (h : x &&& 0xFE#8 = 0#8) : x.toNat ≤ 1 := by
  have hbits : x = x &&& 1#8 :=
    calc x = x &&& (0xFE#8 ||| 1#8) := (BitVec.and_allOnes (x := x)).symm
      _ = x &&& 1#8 := by rw [BitVec.and_or_distrib_left, h, BitVec.zero_or]
  rw [hbits, BitVec.toNat_and]
  exact Nat.and_le_right

/-- A word that matches a row is the word of a legal command with the row's mnemonic: the converse of `encodesRow`. -/
theorem exists_encode_of_matchesWord {r : OpcodeRow} {w : Word} (hr : r ∈ opcodeTable)
    (h : r.matchesWord w = true) : ∃ i : Instr, i.WellFormed ∧ encode i = w ∧ r.mnemonic = i.mnemonic := by
  simp only [opcodeTable, List.mem_cons, List.not_mem_nil, or_false] at hr
  rcases hr with rfl | rfl | rfl | rfl | rfl | rfl | rfl | rfl | rfl | rfl | rfl | rfl | rfl
  -- NOP
  · exact ⟨.nop, rfl, (eq_of_matchesWord_exact h).symm, rfl⟩
  -- INIT
  · exact ⟨.init, rfl, (eq_of_matchesWord_exact h).symm, rfl⟩
  -- PRD
  · obtain ⟨hop, -, hb, hc⟩ := fields_of_matchesWord h
    refine ⟨.prd (aField w), rfl, ?_, rfl⟩
    exact wordOf_eq_of_fields (eq_of_masked_full hop) rfl (eq_of_masked_full hb) (eq_of_masked_full hc)
  -- PWR
  · obtain ⟨hop, -, -, -⟩ := fields_of_matchesWord h
    refine ⟨.pwr (aField w) (bField w) (cField w), rfl, ?_, rfl⟩
    exact wordOf_eq_of_fields (eq_of_masked_full hop) rfl rfl rfl
  -- ADCS
  · exact ⟨.adcs, rfl, (eq_of_matchesWord_exact h).symm, rfl⟩
  -- CAPM
  · exact ⟨.capm, rfl, (eq_of_matchesWord_exact h).symm, rfl⟩
  -- RSCAN
  · exact ⟨.rscan, rfl, (eq_of_matchesWord_exact h).symm, rfl⟩
  -- EDRN
  · obtain ⟨hop, ha, hb, hc⟩ := fields_of_matchesWord h
    refine ⟨.edrn (aField w), (channelOk_iff _).mpr (toNat_le_one_of_masked ha), ?_, rfl⟩
    exact wordOf_eq_of_fields (eq_of_masked_full hop) rfl (eq_of_masked_full hb) (eq_of_masked_full hc)
  -- SWP
  · exact ⟨.swp, rfl, (eq_of_matchesWord_exact h).symm, rfl⟩
  -- MSET
  · obtain ⟨hop, ha, -, -⟩ := fields_of_matchesWord h
    refine ⟨.mset (aField w) (bField w ++ cField w), (channelOk_iff _).mpr (toNat_le_one_of_masked ha), ?_, rfl⟩
    exact (encode_mset_append ..).trans (wordOf_eq_of_fields (eq_of_masked_full hop) rfl rfl rfl)
  -- RSET
  · obtain ⟨hop, ha, hb, hc⟩ := fields_of_matchesWord h
    have hch : channelOk (aField w) = true := (channelOk_iff _).mpr (toNat_le_one_of_masked ha)
    have hst : relayStateOk (cField w) = true := (relayStateOk_iff _).mpr (toNat_le_one_of_masked hc)
    refine ⟨.rset (aField w) (cField w), (rset_wellFormed_iff ..).mpr ⟨hch, hst⟩, ?_, rfl⟩
    exact wordOf_eq_of_fields (eq_of_masked_full hop) rfl (eq_of_masked_full hb) rfl
  -- FRAME
  · exact ⟨.frame, rfl, (eq_of_matchesWord_exact h).symm, rfl⟩
  -- ABORT
  · exact ⟨.abort, rfl, (eq_of_matchesWord_exact h).symm, rfl⟩

/-- Settles O3: a legal word is the word of its command, which matches a row by `encodesRow`; a word that matches a row
is the word of a command under the row's mnemonic, and decodes as no other. -/
theorem legalWordsMatchOneRow : Obligations.LegalWordsMatchOneRow := by
  unfold Obligations.LegalWordsMatchOneRow
  have hrow {w : Word} {r : OpcodeRow} (hr : r ∈ opcodeTable) (h : r.matchesWord w = true) :
      ∃ i, decode w = .legal i ∧ r.mnemonic = i.mnemonic := by
    obtain ⟨i, hwf, rfl, hname⟩ := exists_encode_of_matchesWord hr h
    exact ⟨i, decodeInvertsEncode i hwf, hname⟩
  refine ⟨fun w => ⟨fun ⟨i, hi⟩ => ?_, fun ⟨r, hr, h⟩ => ?_⟩, fun w i r hi hr h => ?_⟩
  · obtain ⟨hwf, rfl⟩ := encodeInvertsDecode w i hi
    obtain ⟨r, hr, -, h⟩ := encodesRow i hwf
    exact ⟨r, hr, h⟩
  · obtain ⟨i, hi, -⟩ := hrow hr h
    exact ⟨i, hi⟩
  · obtain ⟨j, hj, hname⟩ := hrow hr h
    rwa [Decoded.legal.inj (hi.symm.trans hj)]

/-! ### The examples -/

/-- Settles O4: fourteen fixed words, which the decoder evaluates. -/
theorem encodingExamplesDecode : Obligations.EncodingExamplesDecode := by
  unfold Obligations.EncodingExamplesDecode
  decide

end Sys2Proof

/-! PROOF. One step of the single-step commands and of the host (40_portbus_ops.md R80 to R88, 47_frame_abort.md R196):
what a write to `CMD` does, and the steps of NOP, INIT and PRD. -/

namespace Sys2Proof.Machine

open Sys2Proof

/-! ### A tick, and a write to CMD -/

/-- Settles O6: the step is a tick (`step_of_tickNext`), and the sequencer has none of its own (`tick_idle`). -/
theorem idleTickChangesNothing : Obligations.IdleTickChangesNothing := by
  unfold Obligations.IdleTickChangesNothing
  intro s hnext hidle
  have hstopped : s.popped.sequencerRuns = false := by
    obtain hbusy | hrst := hidle
    · simp [State.sequencerRuns, hbusy]
    · simp [State.sequencerRuns, hrst]
  rw [step_of_tickNext hnext, tick_idle hstopped]

/-- A word that is no command is refused as illegal (R80, R223). -/
theorem issueCommand_illegal {s : State} {w : Word} {e : DecodeError} (hrst : s.io.rst = false)
    (hmode : s.status.mode ≠ .fatal) (hdec : decode w = .illegal e) :
    issueCommand w s = raise .illegalCommand s := by
  simp [issueCommand, hrst, hmode, hdec]

/-- The checks of a legal word in the order of R80. -/
theorem issueCommand_legal {s : State} {w : Word} {i : Instr} (hrst : s.io.rst = false)
    (hmode : s.status.mode ≠ .fatal) (hdec : decode w = .legal i) :
    issueCommand w s =
      if s.seq.busy = true ∧ i ≠ .abort then raise .contractViolation s
      else if s.status.mode = .unconfigured ∧ i ≠ .nop ∧ i ≠ .init then raise .wrongMode s
      else if s.status.mode = .ready ∧ i = .init then raise .wrongMode s
      else accept i w s := by
  have hrefuses : modeRefuses s.status.mode i = true ↔
      (s.status.mode = .unconfigured ∧ i ≠ .nop ∧ i ≠ .init) ∨ (s.status.mode = .ready ∧ i = .init) := by
    cases hm : s.status.mode with
    | unconfigured => simp [modeRefuses]
    | ready => simp [modeRefuses]
    | fatal => exact absurd hm hmode
  rw [← ite_or, ← if_congr hrefuses rfl rfl]
  simp [issueCommand, hrst, hmode, hdec]

/-- Clearing the result of the channel a command names (R67, R80). -/
theorem clearEnc_channelOf (ch : Byte) (s : State) :
    clearEnc (channelOf ch) s =
      { s with res.enc := if ch.getLsbD 0 then s.res.enc.set 1 0 else s.res.enc.set 0 0 } := by
  unfold channelOf clearEnc
  split <;> rfl

/-- Settles O7: the step is `issueCommand` of the popped state (`step_of_cons`), whose checks are those of
`issueCommand_legal`; a refusal is `raise_refusal`, an acceptance the start actions command by command. -/
theorem commandWriteOutcome : Obligations.CommandWriteOutcome := by
  unfold Obligations.CommandWriteOutcome
  intro s w rest hev hrst u refusedWith
  have hrst' : u.io.rst = false := hrst
  have hraise (c : Cause) (hc : c = .contractViolation ∨ c = .wrongMode ∨ c = .illegalCommand) (bit : BitVec 9)
      (hbit : 1#9 <<< Cause.code c = bit) : raise c u = refusedWith c bit := by
    rw [raise_refusal c hc, stickyWith, hbit]
    rfl
  rw [step_of_cons hev]
  show Host.Outcome.next (issueCommand w u) = _
  by_cases hfatal : s.status.mode = .fatal
  · have hignored : issueCommand w u = u := by simp [issueCommand, u, hfatal]
    rw [if_pos hfatal, hignored]
  · rw [if_neg hfatal]
    cases hdec : decode w with
    | illegal e => rw [issueCommand_illegal hrst' hfatal hdec, hraise _ (by simp) 0x080 rfl]
    | legal i =>
      rw [issueCommand_legal hrst' hfatal hdec, hraise _ (by simp) 0x020 rfl, hraise _ (by simp) 0x040 rfl]
      refine congrArg _ (if_congr Iff.rfl rfl (if_congr Iff.rfl rfl (if_congr Iff.rfl rfl ?_)))
      cases i with
      | edrn ch => exact clearEnc_channelOf ch _
      | nop | init | prd p | pwr p m v | adcs | capm | rscan | swp | mset ch v | rset ch st | frame | abort => rfl

/-! ### NOP, INIT and PRD -/

/-- Settles O12: NOP is completion alone, and its word is no FRAME's (`inFrame_encode`). -/
theorem nopChangesOnlyBusy : Obligations.NopChangesOnlyBusy := by
  unfold Obligations.NopChangesOnlyBusy
  intro s hcmd
  exact congrArg _ (complete_of_not_inFrame (inFrame_encode hcmd))

/-- Settles O14: the refusing branch of INIT is the start-up fatal (`raise_configurationError`). -/
theorem initWithInvalidConfig : Obligations.InitWithInvalidConfig := by
  unfold Obligations.InitWithInvalidConfig
  intro s hbad
  have hraise : execInit s = .next (raise .configurationError s) := by simp [execInit, hbad]
  have hsticky : stickyWith s.status.esticky .configurationError = s.status.esticky ||| 2#9 := rfl
  show execInit s = _
  rw [hraise, raise_configurationError, hsticky]

/-- Settles O16: one port read (`portRead_eq`), then completion of a command that is no FRAME. -/
theorem prdReturnsPort : Obligations.PrdReturnsPort := by
  unfold Obligations.PrdReturnsPort
  intro s p hcmd hp
  have hok : s.handleOk (portOf p) = true := (handleOk_iff s _).mpr hp
  have hout : s.inFrame = false := inFrame_encode hcmd
  show execPrd p s = _
  rw [execPrd, if_pos hok, readPortResult, portRead_eq]
  exact congrArg _ (complete_of_not_inFrame hout)

/-- Settles O46: outside a FRAME completion clears BUSY, inside it is NextPhase, phase by phase (`nextPhase_scan` to
`nextPhase_adc`). -/
theorem completionInsideFrame : Obligations.CompletionInsideFrame := by
  unfold Obligations.CompletionInsideFrame
  intro s i hcmd
  have hin := inFrame_encode hcmd
  refine ⟨fun hi => complete_of_not_inFrame (by simpa [hi] using hin), fun hi => ?_⟩
  rw [complete_of_inFrame (by simpa [hi] using hin)]
  exact ⟨nextPhase_scan, nextPhase_drain0, nextPhase_drain1, nextPhase_switches, nextPhase_capacitive, nextPhase_adc⟩

/-- One encoder line sampled: its logical level, no ticks, one read of its port (R85). -/
theorem sampleEncoder_eq {s : State} (hv : validConfig s.cfg = true) (i : Fin 2) :
    sampleEncoder i s = { s with
      enc.prev := s.enc.prev.set i (PinCfg.logical (pinOf s.cfg (.enc i)) s.io.encLine[i]),
      enc.acc := s.enc.acc.set i 0,
      io := s.io.after 1 [readAccess s (s.answerAt 0) (pinOf s.cfg (.enc i)).port] } := by
  rw [sampleEncoder, pinRead_enc hv]

/-- Both lines sampled in order (R85). -/
theorem sampleBoth_eq {s : State} (hv : validConfig s.cfg = true) :
    sampleEncoder 1 (sampleEncoder 0 s) = { s with
      enc := {
        acc := (s.enc.acc.set 0 0).set 1 0,
        prev := (s.enc.prev.set 0 (PinCfg.logical (pinOf s.cfg (.enc 0)) s.io.encLine[0])).set 1
          (PinCfg.logical (pinOf s.cfg (.enc 1)) s.io.encLine[1]) },
      io := s.io.after 2 [readAccess s (s.answerAt 0) (pinOf s.cfg (.enc 0)).port,
        readAccess s (s.answerAt 1) (pinOf s.cfg (.enc 1)).port] } := by
  have hfirst := sampleEncoder_eq hv 0
  generalize sampleEncoder 0 s = u at hfirst ⊢
  have hcfg : u.cfg = s.cfg := by rw [hfirst]
  have hanswer : u.answerAt 0 = s.answerAt 1 := answerAt_after (k := 1) (by rw [hfirst]) 0
  have hread (a : Answer) (p : Nat) : readAccess u a p = readAccess s a p :=
    readAccess_congr hcfg (by rw [hfirst]) (by rw [hfirst]; rfl) a p
  rw [sampleEncoder_eq (hcfg ▸ hv), hanswer, hread, hfirst]
  dsimp only
  rw [after_after]
  rfl

/-- The INIT step with a valid configuration as one update (R85); the two reads show the latches as the twelve writes
left them. -/
theorem initValid_eq {s : State} (hv : validConfig s.cfg = true) (hout : s.inFrame = false) :
    initValid s = { s with
      status.mode := .ready, status.driveEn := true, seq.busy := false, duty := Vector.replicate 2 0,
      sw := { stable := Vector.replicate 4 false, cnt := Vector.replicate 4 0 },
      enc := {
        acc := (s.enc.acc.set 0 0).set 1 0,
        prev := (s.enc.prev.set 0 (PinCfg.logical (pinOf s.cfg (.enc 0)) s.io.encLine[0])).set 1
          (PinCfg.logical (pinOf s.cfg (.enc 1)) s.io.encLine[1]) },
      out := (deassertOutputs s).out,
      io := s.io.after 2 (outputPins.map (fun n => pinAccess s.cfg n false) ++
        [readAccess { s with out := (deassertOutputs s).out } (s.answerAt 0) (pinOf s.cfg (.enc 0)).port,
         readAccess { s with out := (deassertOutputs s).out } (s.answerAt 1) (pinOf s.cfg (.enc 1)).port]) } := by
  have hwrites := driveAll_eq hv (outputPins.map fun n => (n, false))
  rw [← deassertOutputs_eq, List.map_map] at hwrites
  generalize (deassertOutputs s).out = o at hwrites ⊢
  rw [initValid, hwrites]
  dsimp only
  rw [sampleBoth_eq (by exact hv), complete_of_not_inFrame (by exact hout)]
  dsimp only
  rw [after_after]
  rfl

/-- Settles O13: `initValid_eq`, and the twelve writes drive what they write (`driveAll_drives`). -/
theorem initWithValidConfig : Obligations.InitWithValidConfig := by
  unfold Obligations.InitWithValidConfig
  intro s hcmd hv hw
  have hdrives := driveAll_drives hv hw (outputPins.map fun n => (n, false)) (by decide)
  have hexec : execInit s = .next (initValid s) := by simp [execInit, hv]
  have heq := initValid_eq hv (inFrame_encode hcmd)
  refine ⟨initValid s, hexec, latchesDrive_congr hdrives (by simp [heq, ← deassertOutputs_eq])
    (by rw [heq, deassertOutputs_eq]), fun i => ?_, ?_⟩
  · rw [heq]
    fin_cases i <;> simp
  · conv_lhs => rw [heq]
    have hread (a : Answer) (p : Nat) :
        readAccess (initValid s) a p = readAccess { s with out := (deassertOutputs s).out } a p :=
      readAccess_congr (by rw [heq]) (by rw [heq]) (by rw [heq]; rfl) a p
    rw [hread, hread, heq]

end Sys2Proof.Machine

/-! SUPPORT. Stretches of steps: a run that is busy before each step (40_portbus_ops.md R89), the ticks of a unit for
its own command or for its phase of a FRAME (R88, 47_frame_abort.md R196), and PinWrites as a function of the latches. -/

namespace Sys2Proof.Machine

open Sys2Proof

/-! ### Runs -/

/-- From `s` the machine takes `n` steps to `t`, with BUSY 1 before each of them (R89). -/
inductive BusyRun : Nat → State → State → Prop where
  | refl (s : State) : BusyRun 0 s s
  | cons {n : Nat} {s u t : State} (busy : s.seq.busy = true) (first : step s = .next u) (rest : BusyRun n u t) :
    BusyRun (n + 1) s t

theorem BusyRun.single {s t : State} (hbusy : s.seq.busy = true) (h : step s = .next t) : BusyRun 1 s t :=
  .cons hbusy h (.refl t)

theorem BusyRun.trans {m n : Nat} {s t u : State} (h : BusyRun m s t) (k : BusyRun n t u) : BusyRun (m + n) s u := by
  induction h with
  | refl s => rwa [Nat.zero_add]
  | cons busy first rest ih =>
    rw [Nat.add_right_comm]
    exact .cons busy first (ih k)

theorem BusyRun.cast {m n : Nat} {s t u : State} (h : BusyRun m s t) (hn : m = n) (ht : t = u) : BusyRun n s u :=
  hn ▸ ht ▸ h

theorem BusyRun.run {n : Nat} {s t : State} (h : BusyRun n s t) : core.run n s = .next t := by
  induction h with
  | refl s => rfl
  | cons busy first rest ih => exact (run_succ first _).trans ih

theorem BusyRun.busyBefore {n : Nat} {s t : State} (h : BusyRun n s t) : BusyBefore n s := by
  induction h with
  | refl s => exact busyBefore_zero s
  | cons busy first rest ih => exact (busyBefore_succ first _).mpr ⟨busy, ih⟩

/-! ### The ticks of a unit -/

/-- Nothing is pending, and the coming ticks are those of command `i`, or of phase `p` of a FRAME. -/
structure Ticking (i : Instr) (p : FramePhase) (s : State) : Prop where
  events : s.io.events = []
  rst    : s.io.rst = false
  busy   : s.seq.busy = true
  runs   : decode s.seq.cmdLatch = .legal i ∨ decode s.seq.cmdLatch = .legal .frame ∧ s.seq.framePhase = p

/-- A command freely running ticks, whatever the phase. -/
theorem ticking_of_inFlight {s : State} {i : Instr} (h : InFlight s i) (hwf : i.WellFormed) (p : FramePhase) :
    Ticking i p s := by
  obtain ⟨hevents, hrst, hbusy, hlatch⟩ := h
  exact ⟨hevents, hrst, hbusy, .inl (hlatch ▸ decodeInvertsEncode i hwf)⟩

/-- The coming step is that of the unit. -/
theorem Ticking.step_exec {i : Instr} {p : FramePhase} {s : State} (h : Ticking i p s)
    (hphase : s.seq.framePhase = p → exec .frame s = exec i s) : step s = exec i s := by
  have hnext : TickNext s := .inl h.events
  obtain hdec | ⟨hdec, hp⟩ := h.runs
  · rw [stepRunsLatchedCommand s i hnext h.rst h.busy hdec, popped_of_nil h.events]
  · rw [stepRunsLatchedCommand s .frame hnext h.rst h.busy hdec, popped_of_nil h.events, hphase hp]

theorem Ticking.step_adc {s : State} (h : Ticking .adcs .adc s) : step s = adcStep s :=
  h.step_exec fun hp => by simp [exec, execFrame, execAdcs, hp]

theorem Ticking.step_cap {s : State} (h : Ticking .capm .capacitive s) : step s = capStep s :=
  h.step_exec fun hp => by simp [exec, execFrame, execCapm, hp]

theorem Ticking.step_scan {s : State} (h : Ticking .rscan .scan s) : step s = .next (reflStep s) :=
  h.step_exec fun hp => by simp [exec, execFrame, execRscan, hp]

/-! ### PinWrites as a function of the latches -/

/-- What PinWrites in order make of the latches (R42, R45). -/
def driven (l : List (Pin × Bool)) (c : Config) (m : Memory) : Memory :=
  l.foldl (fun m x =>
    let P := pinOf c x.1
    Memory.write m P.port
      (maskedWrite (Memory.read m P.port) (PinCfg.maskBit P) (PinCfg.levelBit P (PinCfg.levelOf P x.2)))) m

theorem driven_driven (l k : List (Pin × Bool)) (c : Config) (m : Memory) :
    driven k c (driven l c m) = driven (l ++ k) c m := by
  simp [driven]

/-- A PinWrite under a valid configuration as one update. -/
theorem pinWrite_eq {s : State} (hv : validConfig s.cfg = true) (n : Pin) (a : Bool) :
    pinWrite n a s = { s with
      out := driven [(n, a)] s.cfg s.out, io := s.io.after 0 [pinAccess s.cfg n a] } := by
  have hok : s.handleOk (pinOf s.cfg n).port = true := by simpa [State.handleOk] using valid_port hv n
  rw [pinWrite, portWrite, if_pos hok]
  rfl

theorem driveAll_out {s : State} (hv : validConfig s.cfg = true) (l : List (Pin × Bool)) :
    (driveAll l s).out = driven l s.cfg s.out := by
  induction l generalizing s with
  | nil => rfl
  | cons x l ih => rw [driveAll_cons, pinWrite_eq hv, ih (by exact hv), driven_driven]; rfl

/-- What a pin shows after PinWrites in order, when it showed `b` before: the last value written to it. -/
def lastWritten (l : List (Pin × Bool)) (n : Pin) (b : Bool) : Bool :=
  l.foldl (fun b x => if n = x.1 then x.2 else b) b

theorem driveAll_asserted {s : State} (hv : validConfig s.cfg = true) (hw : Memory.wf s.out) (l : List (Pin × Bool))
    (n : Pin) : (driveAll l s).asserted n = lastWritten l n (s.asserted n) := by
  induction l generalizing s with
  | nil => rfl
  | cons x l ih =>
    have hfirst : (pinWrite x.1 x.2 s).asserted n = if n = x.1 then x.2 else s.asserted n := by
      split
      case isTrue h => rw [h, pinWrite_asserted_self hv hw]
      case isFalse h => exact pinWrite_asserted_other hv hw x.1 n x.2 h
    rw [driveAll_cons, ih (by simpa using hv) (pinWrite_wf x.1 x.2 s hw), hfirst]
    rfl

/-- A latch bit of no written pin stays. -/
theorem driveAll_untouched {s : State} (hv : validConfig s.cfg = true) (hw : Memory.wf s.out) (l : List (Pin × Bool))
    (p b : Nat) (hmiss : ∀ x ∈ l, pinIsAt s.cfg x.1 p b = false) :
    ((driveAll l s).latch p).getLsbD b = (s.latch p).getLsbD b := by
  induction l generalizing s with
  | nil => rfl
  | cons x l ih =>
    obtain ⟨hx, hl⟩ := List.forall_mem_cons.mp hmiss
    rw [driveAll_cons, ih (by simpa using hv) (pinWrite_wf x.1 x.2 s hw) (by simpa using hl),
      pinWrite_bit _ _ _ hw (valid_port hv _) (valid_bit hv _), if_neg (by simp [hx])]

/-- Latches made by PinWrites that write only the pins of `k`, each last with the value `k` gives it. -/
theorem latchesDrive_of_driven {s t : State} (hv : validConfig s.cfg = true) (hw : Memory.wf s.out)
    {l k : List (Pin × Bool)} (hcfg : t.cfg = s.cfg) (hout : t.out = driven l s.cfg s.out)
    (hlast : ∀ x ∈ k, ∀ b, lastWritten l x.1 b = x.2) (hpins : ∀ x ∈ l, ∃ y ∈ k, y.1 = x.1) :
    LatchesDrive s t k := by
  have hdrive : LatchesDrive s (driveAll l s) k := by
    refine ⟨fun x hx => (driveAll_asserted hv hw l x.1).trans (hlast x hx _), fun p b hmiss => ?_⟩
    refine driveAll_untouched hv hw l p b fun x hx => ?_
    obtain ⟨y, hy, hyx⟩ := hpins x hx
    exact hyx ▸ hmiss y hy
  have hcfg' : (driveAll l s).cfg = s.cfg := by rw [driveAll_eq hv]
  exact latchesDrive_congr hdrive (hcfg.trans hcfg'.symm) (hout.trans (driveAll_out hv l).symm)

end Sys2Proof.Machine

/-! PROOF. The handshake of an ADCS or of phase 6 of a FRAME from its first step to its completion
(41_adc_handshake.md R100 to R108, 40_portbus_ops.md R89). -/

namespace Sys2Proof.Machine

open Sys2Proof

/-! ### The handshake, step by step -/

/-- The ASSERT_CS step as one update (R101). -/
theorem adcAssertCs_eq {s : State} (hv : validConfig s.cfg = true) :
    adcAssertCs s = { s with
      seq.adcState := .awaitConversion, out := driven [(.adcCs, true)] s.cfg s.out,
      io := s.io.after 0 [pinAccess s.cfg .adcCs true] } := by
  rw [adcAssertCs, pinWrite_eq hv]

/-- The first `m` polls of INT (R102). -/
def intPolls (m : Nat) (s : State) : List Access :=
  (List.range m).map fun j => readAccess s (s.answerAt j) (pinOf s.cfg .adcInt).port

/-- `m` polls of INT, and nothing else (R102). -/
def polled (m : Nat) (s : State) : State :=
  { s with adc.polls := s.adc.polls + BitVec.ofNat 16 m, io := s.io.after m (intPolls m s) }

@[simp] theorem intPolls_length (m : Nat) (s : State) : (intPolls m s).length = m := by simp [intPolls]

/-- Every poll is a read of INT's port. -/
theorem exists_read_of_mem_intPolls {m : Nat} {s : State} {a : Access} (h : a ∈ intPolls m s) :
    ∃ x, a = .read (pinOf s.cfg .adcInt).port x := by
  obtain ⟨j, -, rfl⟩ := List.mem_map.mp h
  exact ⟨_, rfl⟩

theorem polled_zero (s : State) : polled 0 s = s := by simp [polled, intPolls]

theorem polled_answerAt (m : Nat) (s : State) (j : Nat) : (polled m s).answerAt j = s.answerAt (m + j) :=
  answerAt_after rfl j

/-- One poll more. -/
theorem polled_one_polled (m : Nat) (s : State) : polled 1 (polled m s) = polled (m + 1) s := by
  have hlast : intPolls 1 (polled m s) = [readAccess s (s.answerAt m) (pinOf s.cfg .adcInt).port] := by
    simp only [intPolls, List.range_one, List.map_cons, List.map_nil, polled_answerAt, Nat.add_zero]
    exact congrArg (fun a => [a]) (readAccess_congr rfl rfl rfl _ _)
  have hlist : intPolls m s ++ intPolls 1 (polled m s) = intPolls (m + 1) s := by
    rw [hlast, intPolls, intPolls, List.range_succ, List.map_append, List.map_cons, List.map_nil]
  have hio : (polled m s).io.after 1 (intPolls 1 (polled m s)) = s.io.after (m + 1) (intPolls (m + 1) s) := by
    rw [← hlist]
    exact after_after ..
  have hcount : s.adc.polls + BitVec.ofNat 16 m + BitVec.ofNat 16 1 = s.adc.polls + BitVec.ofNat 16 (m + 1) := by
    rw [BitVec.ofNat_add, BitVec.add_assoc]
  rw [polled, hio]
  simp only [polled, hcount]

/-- The AWAIT_CONVERSION step as one update per branch (R102 to R104). -/
theorem adcAwait_eq {s : State} (hv : validConfig s.cfg = true) :
    adcAwait s =
      if seesAsserted s.cfg .adcInt (s.answerAt 0) = true then { polled 1 s with seq.adcState := .assertRd }
      else if s.cfg.adcTimeout ≤ (s.adc.polls + 1).toNat then
        { polled 1 s with
          adc.err := true, seq.adcState := .deassertRd, status.cause := some .conversionTimeout,
          status.esticky := stickyWith s.status.esticky .conversionTimeout }
      else polled 1 s := by
  rw [adcAwait, pinRead_input hv .adcInt (by decide) (by simp)]
  rfl

/-- The ASSERT_RD step as one update (R105): the data bus shows the environment's byte. -/
theorem adcAssertRd_eq {s : State} (hv : validConfig s.cfg = true) :
    adcAssertRd s = { s with
      adc.latch := (s.answerAt 0).levels, seq.adcState := .deassertRd, out := driven [(.adcRd, true)] s.cfg s.out,
      io := s.io.after 1 [pinAccess s.cfg .adcRd true, .read s.cfg.adcData.port (s.answerAt 0).levels] } := by
  rw [adcAssertRd, pinWrite_eq hv]
  generalize hu : ({ s with out := _, io := _ } : State) = u
  have hcfg : u.cfg = s.cfg := hu ▸ rfl
  have hanswer : u.answerAt 0 = s.answerAt 0 := hu ▸ answerAt_after (s := s) rfl 0
  have hpattern : u.portPattern (s.answerAt 0).levels s.cfg.adcData.port = (s.answerAt 0).levels :=
    hcfg ▸ portPattern_data (hcfg ▸ hv) _
  have hmask : (s.answerAt 0).levels &&& s.cfg.adcData.mask = (s.answerAt 0).levels := by
    rw [valid_dataMask hv]
    exact BitVec.and_allOnes
  rw [portRead_eq, readAccess, hanswer, hcfg, hpattern]
  dsimp only
  rw [hmask, ← hu]
  dsimp only
  rw [after_after]
  rfl

/-- The DEASSERT_RD step as one update (R106). -/
theorem adcDeassertRd_eq {s : State} (hv : validConfig s.cfg = true) :
    adcDeassertRd s = { s with
      seq.adcState := .deassertCs, out := driven [(.adcRd, false)] s.cfg s.out,
      io := s.io.after 0 [pinAccess s.cfg .adcRd false] } := by
  rw [adcDeassertRd, pinWrite_eq hv]

/-- The DEASSERT_CS step as the completion of one update (R107). -/
theorem adcDeassertCs_eq {s : State} (hv : validConfig s.cfg = true) :
    adcDeassertCs s = complete { s with
      res.adc := (if s.adc.err then 0 else validByte s.adc.latch), seq.adcState := .idle,
      out := driven [(.adcCs, false)] s.cfg s.out, io := s.io.after 0 [pinAccess s.cfg .adcCs false] } := by
  rw [adcDeassertCs, pinWrite_eq hv]

/-! ### Stretches of the handshake -/

/-- A step of the handshake at position `a`. -/
theorem Ticking.adcRun {s t : State} (h : Ticking .adcs .adc s) (ht : adcStep s = .next t) : BusyRun 1 s t :=
  .single h.busy (h.step_adc.trans ht)

/-- Polls that do not see INT, all before the timeout, change the counter and the history only (R102). -/
theorem Ticking.adcRun_polls {s : State} (h : Ticking .adcs .adc s) (hs : s.seq.adcState = .awaitConversion)
    (hv : validConfig s.cfg = true) (m : Nat) (hlt : s.adc.polls.toNat + m < s.cfg.adcTimeout)
    (hunseen : ∀ j < m, seesAsserted s.cfg .adcInt (s.answerAt j) = false) : BusyRun m s (polled m s) := by
  induction m with
  | zero => rw [polled_zero]; exact .refl s
  | succ m ih =>
    have hprev := ih (by omega) fun j hj => hunseen j (by omega)
    have hticking : Ticking .adcs .adc (polled m s) := { h with }
    have hlast : seesAsserted s.cfg .adcInt ((polled m s).answerAt 0) = false := by
      rw [polled_answerAt]
      exact hunseen m (by omega)
    have hcount : (s.adc.polls + BitVec.ofNat 16 m + 1).toNat ≤ s.adc.polls.toNat + m + 1 := by
      refine (toNat_add_one_le _).trans (Nat.succ_le_succ ?_)
      rw [BitVec.toNat_add, BitVec.toNat_ofNat]
      exact (Nat.mod_le _ _).trans (Nat.add_le_add_left (Nat.mod_le _ _) _)
    have hstep : adcStep (polled m s) = .next (polled (m + 1) s) := by
      have hawait : adcStep (polled m s) = .next (adcAwait (polled m s)) := by
        simp only [adcStep, polled, hs]
      rw [hawait, adcAwait_eq (by exact hv), if_neg (by simpa [polled] using hlast), if_neg ?_, polled_one_polled]
      simp only [polled]
      omega
    exact hprev.trans (hticking.adcRun hstep)

/-- From DEASSERT_RD on: two steps, the lines released in the order RD, CS (R106, R107). -/
theorem Ticking.adcRun_release {s : State} (h : Ticking .adcs .adc s) (hs : s.seq.adcState = .deassertRd)
    (hv : validConfig s.cfg = true) :
    BusyRun 2 s (complete { s with
      res.adc := (if s.adc.err then 0 else validByte s.adc.latch), seq.adcState := .idle,
      out := driven [(.adcRd, false), (.adcCs, false)] s.cfg s.out,
      io := s.io.after 0 [pinAccess s.cfg .adcRd false, pinAccess s.cfg .adcCs false] }) := by
  have hfirst : adcStep s = .next (adcDeassertRd s) := by simp only [adcStep, hs]
  rw [adcDeassertRd_eq hv] at hfirst
  refine (h.adcRun hfirst).trans (Ticking.adcRun { h with } ?_)
  show Host.Outcome.next (adcDeassertCs _) = _
  rw [adcDeassertCs_eq (by exact hv)]
  dsimp only
  rw [after_after, driven_driven]
  rfl

/-- From ASSERT_RD on: three steps with the one read of the data bus (R105 to R107). -/
theorem Ticking.adcRun_read {s : State} (h : Ticking .adcs .adc s) (hs : s.seq.adcState = .assertRd)
    (hv : validConfig s.cfg = true) (herr : s.adc.err = false) :
    BusyRun 3 s (complete { s with
      adc.latch := (s.answerAt 0).levels, res.adc := validByte (s.answerAt 0).levels, seq.adcState := .idle,
      out := driven [(.adcRd, true), (.adcRd, false), (.adcCs, false)] s.cfg s.out,
      io := s.io.after 1 [pinAccess s.cfg .adcRd true, .read s.cfg.adcData.port (s.answerAt 0).levels,
        pinAccess s.cfg .adcRd false, pinAccess s.cfg .adcCs false] }) := by
  have hfirst : adcStep s = .next (adcAssertRd s) := by simp only [adcStep, hs]
  rw [adcAssertRd_eq hv] at hfirst
  refine (h.adcRun hfirst).trans ((Ticking.adcRun_release (by exact { h with }) rfl (by exact hv)).cast rfl
    (congrArg complete ?_))
  dsimp only
  rw [after_after, driven_driven, herr]
  rfl

/-! ### The whole handshake -/

/-- The handshake at its first step, its working registers cleared (R100). -/
structure AdcStart (s : State) : Prop where
  ticking : Ticking .adcs .adc s
  state   : s.seq.adcState = .assertCs
  cleared : s.adc = { polls := 0, err := false, latch := 0 }
  valid   : validConfig s.cfg = true

/-- The handshake that began in `s`, when CS is asserted and INT was polled `m` times without being seen. -/
def awaiting (m : Nat) (s : State) : State :=
  { s with
    adc := { polls := BitVec.ofNat 16 m, err := false, latch := 0 }, seq.adcState := .awaitConversion,
    out := driven [(.adcCs, true)] s.cfg s.out,
    io := s.io.after m (pinAccess s.cfg .adcCs true :: intPolls m (adcAssertCs s)) }

theorem awaiting_answerAt (m : Nat) (s : State) (j : Nat) : (awaiting m s).answerAt j = s.answerAt (m + j) :=
  answerAt_after rfl j

theorem AdcStart.polled_eq {s : State} (h : AdcStart s) (m : Nat) : polled m (adcAssertCs s) = awaiting m s := by
  have hcs := adcAssertCs_eq h.valid
  unfold polled awaiting
  generalize intPolls m (adcAssertCs s) = l
  rw [hcs]
  dsimp only
  rw [after_after, h.cleared]
  simp

/-- One poll more. -/
theorem AdcStart.polled_awaiting {s : State} (h : AdcStart s) (m : Nat) :
    polled 1 (awaiting m s) = awaiting (m + 1) s := by
  rw [← h.polled_eq, polled_one_polled, h.polled_eq]

theorem AdcStart.ticking_awaiting {s : State} (h : AdcStart s) (m : Nat) : Ticking .adcs .adc (awaiting m s) :=
  { h.ticking with }

/-- The ASSERT_CS step, and polls that do not see INT. -/
theorem AdcStart.adcRun_awaiting {s : State} (h : AdcStart s) {m : Nat} (hlt : m < s.cfg.adcTimeout)
    (hunseen : ∀ j < m, seesAsserted s.cfg .adcInt (s.answerAt j) = false) :
    BusyRun (1 + m) s (awaiting m s) := by
  have hstart : adcAssertCs s = awaiting 0 s := by rw [← h.polled_eq, polled_zero]
  have hfirst : adcStep s = .next (awaiting 0 s) := by
    rw [← hstart]
    simp only [adcStep, h.state]
  have hpolls := (h.ticking_awaiting 0).adcRun_polls rfl h.valid m (by simpa [awaiting] using hlt)
    (fun j hj => by
      rw [awaiting_answerAt, Nat.zero_add]
      exact hunseen j hj)
  have hend : polled m (awaiting 0 s) = awaiting m s := by rw [← hstart, h.polled_eq]
  exact (h.ticking.adcRun hfirst).trans (hend ▸ hpolls)

/-- INT first seen at poll `n`: the handshake completes with step `n + 4`, with the byte that the one read of the data
bus returned (R103, R105, R108). -/
theorem AdcStart.succeeds {s : State} (h : AdcStart s) {n : Nat} (hpos : 1 ≤ n) (hle : n ≤ s.cfg.adcTimeout)
    (hunseen : ∀ j, j + 1 < n → seesAsserted s.cfg .adcInt (s.answerAt j) = false)
    (hseen : seesAsserted s.cfg .adcInt (s.answerAt (n - 1)) = true) :
    BusyRun (n + 4) s (complete { s with
      adc := { polls := BitVec.ofNat 16 n, err := false, latch := (s.answerAt n).levels },
      res.adc := validByte (s.answerAt n).levels, seq.adcState := .idle,
      out := driven [(.adcCs, true), (.adcRd, true), (.adcRd, false), (.adcCs, false)] s.cfg s.out,
      io := s.io.after (n + 1) (pinAccess s.cfg .adcCs true :: intPolls n (adcAssertCs s) ++
        [pinAccess s.cfg .adcRd true, .read s.cfg.adcData.port (s.answerAt n).levels,
         pinAccess s.cfg .adcRd false, pinAccess s.cfg .adcCs false]) }) := by
  obtain ⟨m, rfl⟩ : ∃ m, n = m + 1 := ⟨n - 1, by omega⟩
  have hseen' : adcStep (awaiting m s) = .next { awaiting (m + 1) s with seq.adcState := .assertRd } := by
    have hsees : seesAsserted (awaiting m s).cfg .adcInt ((awaiting m s).answerAt 0) = true := by
      rw [awaiting_answerAt]
      exact hseen
    show Host.Outcome.next (adcAwait (awaiting m s)) = _
    rw [adcAwait_eq (by exact h.valid), if_pos hsees, h.polled_awaiting]
  have hread := Ticking.adcRun_read (s := { awaiting (m + 1) s with seq.adcState := .assertRd })
    { h.ticking with } rfl h.valid rfl
  have hbyte : State.answerAt { awaiting (m + 1) s with seq.adcState := .assertRd } 0 = s.answerAt (m + 1) :=
    awaiting_answerAt (m + 1) s 0
  rw [hbyte] at hread
  have hall := ((h.adcRun_awaiting hle fun j hj => hunseen j (by omega)).trans
    ((h.ticking_awaiting m).adcRun hseen')).trans hread
  refine hall.cast (by omega) (congrArg complete ?_)
  dsimp only [awaiting]
  rw [after_after, driven_driven]
  rfl

/-- INT never seen: after the last poll the handshake gives up, and completes with step `ADC_TIMEOUT + 3` without a
sample, with the timeout recorded (R104, R108). -/
theorem AdcStart.timesOut {s : State} (h : AdcStart s)
    (hunseen : ∀ j < s.cfg.adcTimeout, seesAsserted s.cfg .adcInt (s.answerAt j) = false) :
    BusyRun (s.cfg.adcTimeout + 3) s (complete { s with
      adc := { polls := BitVec.ofNat 16 s.cfg.adcTimeout, err := true, latch := 0 }, res.adc := 0,
      seq.adcState := .idle, status.cause := some .conversionTimeout,
      status.esticky := stickyWith s.status.esticky .conversionTimeout,
      out := driven [(.adcCs, true), (.adcRd, false), (.adcCs, false)] s.cfg s.out,
      io := s.io.after s.cfg.adcTimeout (pinAccess s.cfg .adcCs true :: intPolls s.cfg.adcTimeout (adcAssertCs s) ++
        [pinAccess s.cfg .adcRd false, pinAccess s.cfg .adcCs false]) }) := by
  obtain ⟨hpos, hmax, -⟩ := valid_numbers h.valid
  obtain ⟨m, hm⟩ : ∃ m, s.cfg.adcTimeout = m + 1 := ⟨s.cfg.adcTimeout - 1, by omega⟩
  have hgivesUp : adcStep (awaiting m s) = .next { awaiting (m + 1) s with
      adc.err := true, seq.adcState := .deassertRd, status.cause := some .conversionTimeout,
      status.esticky := stickyWith s.status.esticky .conversionTimeout } := by
    have hblind : ¬ seesAsserted (awaiting m s).cfg .adcInt ((awaiting m s).answerAt 0) = true := by
      rw [awaiting_answerAt]
      simpa [awaiting] using hunseen m (by omega)
    have hlast : (awaiting m s).cfg.adcTimeout ≤ ((awaiting m s).adc.polls + 1).toNat := by
      have hcount : BitVec.ofNat 16 m + 1 = BitVec.ofNat 16 (m + 1) := (BitVec.ofNat_add m 1).symm
      simp only [awaiting, hcount, BitVec.toNat_ofNat]
      omega
    show Host.Outcome.next (adcAwait (awaiting m s)) = _
    rw [adcAwait_eq (by exact h.valid), if_neg hblind, if_pos hlast, h.polled_awaiting]
    rfl
  have hrelease := Ticking.adcRun_release (s := { awaiting (m + 1) s with
      adc.err := true, seq.adcState := .deassertRd, status.cause := some .conversionTimeout,
      status.esticky := stickyWith s.status.esticky .conversionTimeout }) { h.ticking with } rfl h.valid
  have hall := ((h.adcRun_awaiting (by omega) fun j hj => hunseen j (by omega)).trans
    ((h.ticking_awaiting m).adcRun hgivesUp)).trans hrelease
  refine hall.cast (by omega) (congrArg complete ?_)
  dsimp only [awaiting]
  rw [after_after, driven_driven, ← hm]
  rfl

/-! ### The obligations -/

/-- An ADCS freely running at its first step. -/
theorem adcStart_of_inFlight {s : State} (h : InFlight s .adcs) (hs : s.seq.adcState = .assertCs)
    (hclear : s.adc = { polls := 0, err := false, latch := 0 }) (hv : validConfig s.cfg = true) : AdcStart s :=
  ⟨ticking_of_inFlight h (by decide) _, hs, hclear, hv⟩

/-- Settles O25: the run is `AdcStart.succeeds`, its completion that of a command that is no FRAME; CS and RD are last
written de-asserted. -/
theorem adcHandshakeSucceeds : Obligations.AdcHandshakeSucceeds := by
  unfold Obligations.AdcHandshakeSucceeds
  intro s n hflight hs hclear hv hw hpos hle hunseen hseen
  have hrun := (adcStart_of_inFlight hflight hs hclear hv).succeeds hpos hle hunseen hseen
  rw [complete_of_not_inFrame (by exact inFrame_encode hflight.2.2.2)] at hrun
  refine ⟨_, intPolls n (adcAssertCs s), hrun.run, hrun.busyBefore, intPolls_length .., fun a ha => ?_,
    latchesDrive_of_driven hv hw rfl rfl (by decide) (by decide), rfl⟩
  simpa [adcAssertCs] using exists_read_of_mem_intPolls ha

/-- Settles O26: the run is `AdcStart.timesOut`; the polls are reads of INT's port, which the data bus is not on. -/
theorem adcHandshakeTimesOut : Obligations.AdcHandshakeTimesOut := by
  unfold Obligations.AdcHandshakeTimesOut
  intro s hflight hs hclear hv hw hunseen
  have hrun := (adcStart_of_inFlight hflight hs hclear hv).timesOut hunseen
  rw [complete_of_not_inFrame (by exact inFrame_encode hflight.2.2.2)] at hrun
  have hpolls : ∀ a ∈ intPolls s.cfg.adcTimeout (adcAssertCs s), ∃ x, a = .read (pinOf s.cfg .adcInt).port x :=
    fun a ha => by simpa [adcAssertCs] using exists_read_of_mem_intPolls ha
  refine ⟨_, _, hrun.run, hrun.busyBefore, intPolls_length .., hpolls, fun x hx => ?_,
    latchesDrive_of_driven hv hw rfl rfl (by decide) (by decide), rfl⟩
  obtain ⟨y, hy⟩ := hpolls _ hx
  exact valid_offDataBus hv .adcInt (Access.read.inj hy).1.symm

end Sys2Proof.Machine

/-! PROOF. The cycle of a CAPM or of phase 5 of a FRAME from its first step to its completion (42_capacitive.md R120 to
R130, 40_portbus_ops.md R89). -/

namespace Sys2Proof.Machine

open Sys2Proof

/-! ### The cycle, step by step -/

/-- The first DISCHARGE step as one update (R121). -/
theorem capDischargeStep_first {s : State} (hv : validConfig s.cfg = true) (hzero : s.cap.timer = 0) :
    capDischargeStep s =
      let u : State := { s with
        out := driven [(.capDischarge, true)] s.cfg s.out, io := s.io.after 0 [pinAccess s.cfg .capDischarge true] }
      if s.cfg.capSettle = 0 then { u with seq.capState := .charge } else { u with cap.timer := 1 } := by
  rw [capDischargeStep, if_pos hzero, pinWrite_eq hv]
  dsimp only
  rw [hzero]
  exact if_congr eq_comm rfl rfl

/-- A later DISCHARGE step makes no access (R122). -/
theorem capDischargeStep_later {s : State} (hpos : s.cap.timer ≠ 0) :
    capDischargeStep s =
      if s.cap.timer.toNat = s.cfg.capSettle then { s with seq.capState := .charge }
      else { s with cap.timer := s.cap.timer + 1 } := by
  rw [capDischargeStep, if_neg hpos]

/-- The CHARGE step as one update (R123). -/
theorem capChargeStep_eq {s : State} (hv : validConfig s.cfg = true) :
    capChargeStep s = { s with
      cap.timer := 0, seq.capState := .sample,
      out := driven [(.capDischarge, false), (.capCharge, true)] s.cfg s.out,
      io := s.io.after 0 [pinAccess s.cfg .capDischarge false, pinAccess s.cfg .capCharge true] } := by
  rw [capChargeStep, pinWrite_eq hv .capDischarge, pinWrite_eq (by exact hv)]
  dsimp only
  rw [after_after, driven_driven]
  rfl

/-- The SAMPLE step as one update per branch (R124, R125). -/
theorem capSampleStep_eq (s : State) :
    capSampleStep s =
      let u : State := { s with io := s.io.after 1 [analogAccess s.cfg .capSample (s.answerAt 0)] }
      if answerCrosses s.cfg (s.answerAt 0) = true then
        { u with cap.elapsed := s.cap.timer, seq.capState := .compute }
      else if (s.cap.timer + 1).toNat = s.cfg.capTimeout then
        { u with
          cap := { timer := s.cap.timer + 1, elapsed := BitVec.ofNat 16 s.cfg.capTimeout, timedOut := true },
          seq.capState := .compute }
      else { u with cap.timer := s.cap.timer + 1 } := by
  rw [capSampleStep, analogRead_eq]
  rfl

/-- The first `m` polls of the sample line (R124). -/
def linePolls (m : Nat) (s : State) : List Access :=
  (List.range m).map fun j => analogAccess s.cfg .capSample (s.answerAt j)

theorem linePolls_succ (m : Nat) (s : State) :
    linePolls (m + 1) s = linePolls m s ++ [analogAccess s.cfg .capSample (s.answerAt m)] := by
  rw [linePolls, List.range_succ, List.map_append]
  rfl

/-- The COMPUTE step as the completion of one update (R126). -/
theorem capComputeStep_eq {s : State} (hv : validConfig s.cfg = true) :
    capComputeStep s = complete { s with
      res.cap := capResult s.cap.timedOut (contactVerdict s.cfg s.cap.timedOut s.cap.elapsed) s.cap.elapsed,
      seq.capState := .idle, out := driven [(.capCharge, false)] s.cfg s.out,
      io := s.io.after 0 [pinAccess s.cfg .capCharge false] } := by
  rw [capComputeStep, pinWrite_eq hv]

/-! ### Stretches of the cycle -/

/-- A step of the cycle. -/
theorem Ticking.capRun {s t : State} (h : Ticking .capm .capacitive s) (ht : capStep s = .next t) : BusyRun 1 s t :=
  .single h.busy (h.step_cap.trans ht)

/-- The settle ticks that are left, and the tick that ends them (R121, R122). -/
theorem Ticking.capRun_settle {s : State} (h : Ticking .capm .capacitive s) (hs : s.seq.capState = .discharge)
    (hmax : s.cfg.capSettle ≤ 65535) (d : Nat) (hpos : s.cap.timer ≠ 0)
    (hleft : s.cap.timer.toNat + d = s.cfg.capSettle) :
    BusyRun (d + 1) s { s with cap.timer := BitVec.ofNat 16 s.cfg.capSettle, seq.capState := .charge } := by
  induction d generalizing s with
  | zero =>
    have hstep : capStep s = .next { s with seq.capState := .charge } := by
      simp only [capStep, hs]
      rw [capDischargeStep_later hpos, if_pos (by omega)]
    refine (h.capRun hstep).cast rfl ?_
    rw [← hleft]
    simp
  | succ d ih =>
    have hnext : (s.cap.timer + 1).toNat = s.cap.timer.toNat + 1 := by
      rw [BitVec.toNat_add]
      exact Nat.mod_eq_of_lt (show s.cap.timer.toNat + 1 < 2 ^ 16 by omega)
    have hpos' : s.cap.timer + 1 ≠ 0 := fun h0 => by
      rw [h0] at hnext
      exact absurd hnext (by simp)
    have hstep : capStep s = .next { s with cap.timer := s.cap.timer + 1 } := by
      simp only [capStep, hs]
      rw [capDischargeStep_later hpos, if_neg (by omega)]
    have hrest := ih (s := { s with cap.timer := s.cap.timer + 1 }) { h with } hs hmax hpos' (by dsimp only; omega)
    exact ((h.capRun hstep).trans hrest).cast (Nat.add_comm _ _) rfl

/-! ### The whole cycle -/

/-- The cycle at its first step, its working registers cleared (R120). -/
structure CapStart (s : State) : Prop where
  ticking : Ticking .capm .capacitive s
  state   : s.seq.capState = .discharge
  cleared : s.cap = { timer := 0, elapsed := 0, timedOut := false }
  valid   : validConfig s.cfg = true

/-- The cycle that began in `s`, when the settle time is over (R122). -/
def settled (s : State) : State :=
  { s with
    cap.timer := BitVec.ofNat 16 s.cfg.capSettle, seq.capState := .charge,
    out := driven [(.capDischarge, true)] s.cfg s.out, io := s.io.after 0 [pinAccess s.cfg .capDischarge true] }

/-- The cycle that began in `s`, when the charge line is asserted and the sample line was polled `m` times without a
crossing (R123, R124). -/
def timing (m : Nat) (s : State) : State :=
  { s with
    cap := { timer := BitVec.ofNat 16 m, elapsed := 0, timedOut := false }, seq.capState := .sample,
    out := driven [(.capDischarge, true), (.capDischarge, false), (.capCharge, true)] s.cfg s.out,
    io := s.io.after m ([pinAccess s.cfg .capDischarge true, pinAccess s.cfg .capDischarge false,
      pinAccess s.cfg .capCharge true] ++ linePolls m s) }

/-- DISCHARGE takes `CAP_SETTLE + 1` steps (R121, R122). -/
theorem CapStart.capRun_settled {s : State} (h : CapStart s) : BusyRun (s.cfg.capSettle + 1) s (settled s) := by
  obtain ⟨-, -, hmax, -⟩ := valid_numbers h.valid
  have hfirst : capStep s = .next (capDischargeStep s) := by simp only [capStep, h.state]
  rw [capDischargeStep_first h.valid (by rw [h.cleared])] at hfirst
  dsimp only at hfirst
  by_cases hzero : s.cfg.capSettle = 0
  · rw [if_pos hzero] at hfirst
    refine (h.ticking.capRun hfirst).cast (by omega) ?_
    rw [settled, hzero, h.cleared]
    rfl
  · rw [if_neg hzero] at hfirst
    have hrest := Ticking.capRun_settle (s := { s with
        cap.timer := 1, out := driven [(.capDischarge, true)] s.cfg s.out,
        io := s.io.after 0 [pinAccess s.cfg .capDischarge true] })
      { h.ticking with } h.state hmax (s.cfg.capSettle - 1) (by simp) (by simp; omega)
    exact ((h.ticking.capRun hfirst).trans hrest).cast (by omega) rfl

/-- The SAMPLE step after `m` polls, one update per branch (R124, R125). -/
theorem capSampleStep_timing (m : Nat) (s : State) :
    capSampleStep (timing m s) =
      if answerCrosses s.cfg (s.answerAt m) = true then
        { timing m s with
          cap.elapsed := BitVec.ofNat 16 m, seq.capState := .compute, io := (timing (m + 1) s).io }
      else if (BitVec.ofNat 16 (m + 1)).toNat = s.cfg.capTimeout then
        { timing (m + 1) s with
          cap.timedOut := true, cap.elapsed := BitVec.ofNat 16 s.cfg.capTimeout, seq.capState := .compute }
      else timing (m + 1) s := by
  have hanswer : (timing m s).answerAt 0 = s.answerAt m := answerAt_after rfl 0
  have hio : (timing m s).io.after 1 [analogAccess s.cfg .capSample (s.answerAt m)] = (timing (m + 1) s).io := by
    dsimp only [timing]
    rw [after_after, List.append_assoc, linePolls_succ]
  have hcount : BitVec.ofNat 16 m + 1 = BitVec.ofNat 16 (m + 1) := (BitVec.ofNat_add m 1).symm
  rw [capSampleStep_eq, hanswer, show (timing m s).cfg = s.cfg from rfl, hio,
    show (timing m s).cap.timer + 1 = BitVec.ofNat 16 (m + 1) from hcount]
  rfl

/-- Polls without a crossing, all before the timeout. -/
theorem CapStart.capRun_timing {s : State} (h : CapStart s) (m : Nat) (hlt : m < s.cfg.capTimeout)
    (hlow : ∀ j < m, answerCrosses s.cfg (s.answerAt j) = false) :
    BusyRun (s.cfg.capSettle + 2 + m) s (timing m s) := by
  induction m with
  | zero =>
    have hcharge : capStep (settled s) = .next (timing 0 s) := by
      show Host.Outcome.next (capChargeStep (settled s)) = _
      rw [capChargeStep_eq (by exact h.valid)]
      dsimp only [settled, timing]
      rw [after_after, driven_driven, h.cleared]
      rfl
    exact h.capRun_settled.trans (Ticking.capRun { h.ticking with } hcharge)
  | succ m ih =>
    obtain ⟨-, -, -, -, hmax, -⟩ := valid_numbers h.valid
    have hpoll : capStep (timing m s) = .next (timing (m + 1) s) := by
      show Host.Outcome.next (capSampleStep (timing m s)) = _
      rw [capSampleStep_timing, if_neg (by simp [hlow m (by omega)]), if_neg]
      rw [BitVec.toNat_ofNat]
      omega
    exact (ih (by omega) fun j hj => hlow j (by omega)).trans (Ticking.capRun { h.ticking with } hpoll)

/-- A crossing first seen at the poll with timer `k`: the cycle completes with step `CAP_SETTLE + k + 4` (R124, R127,
R130). -/
theorem CapStart.crosses {s : State} (h : CapStart s) {k : Nat} (hlt : k < s.cfg.capTimeout)
    (hlow : ∀ j < k, answerCrosses s.cfg (s.answerAt j) = false) (hcross : answerCrosses s.cfg (s.answerAt k) = true) :
    BusyRun (s.cfg.capSettle + k + 4) s (complete { s with
      cap := { timer := BitVec.ofNat 16 k, elapsed := BitVec.ofNat 16 k, timedOut := false },
      res.cap := capResult false (decide (k < s.cfg.capContactT)) (BitVec.ofNat 16 k), seq.capState := .idle,
      out := driven [(.capDischarge, true), (.capDischarge, false), (.capCharge, true), (.capCharge, false)]
        s.cfg s.out,
      io := s.io.after (k + 1) ([pinAccess s.cfg .capDischarge true, pinAccess s.cfg .capDischarge false,
        pinAccess s.cfg .capCharge true] ++ linePolls (k + 1) s ++ [pinAccess s.cfg .capCharge false]) }) := by
  obtain ⟨-, -, -, -, hmax, -⟩ := valid_numbers h.valid
  have hlast : capStep (timing k s) = .next { timing k s with
      cap.elapsed := BitVec.ofNat 16 k, seq.capState := .compute, io := (timing (k + 1) s).io } := by
    show Host.Outcome.next (capSampleStep (timing k s)) = _
    rw [capSampleStep_timing, if_pos hcross]
  have hverdict : contactVerdict s.cfg false (BitVec.ofNat 16 k) = decide (k < s.cfg.capContactT) := by
    rw [contactVerdict, BitVec.toNat_ofNat, Nat.mod_eq_of_lt (by omega)]
    rfl
  refine ((h.capRun_timing k hlt hlow).trans ((Ticking.capRun (by exact { h.ticking with }) hlast).trans
    (Ticking.capRun (by exact { h.ticking with }) rfl))).cast (by omega) ?_
  rw [capComputeStep_eq (by exact h.valid)]
  dsimp only [timing]
  rw [after_after, driven_driven, hverdict]
  rfl

/-- No crossing: after the last poll the cycle gives up, and completes with step `CAP_SETTLE + CAP_TIMEOUT + 3` with the
ceiling and no cause (R125, R128, R130). -/
theorem CapStart.timesOut {s : State} (h : CapStart s)
    (hlow : ∀ j < s.cfg.capTimeout, answerCrosses s.cfg (s.answerAt j) = false) :
    BusyRun (s.cfg.capSettle + s.cfg.capTimeout + 3) s (complete { s with
      cap := { timer := BitVec.ofNat 16 s.cfg.capTimeout, elapsed := BitVec.ofNat 16 s.cfg.capTimeout,
               timedOut := true },
      res.cap := capResult true false (BitVec.ofNat 16 s.cfg.capTimeout), seq.capState := .idle,
      out := driven [(.capDischarge, true), (.capDischarge, false), (.capCharge, true), (.capCharge, false)]
        s.cfg s.out,
      io := s.io.after s.cfg.capTimeout ([pinAccess s.cfg .capDischarge true, pinAccess s.cfg .capDischarge false,
        pinAccess s.cfg .capCharge true] ++ linePolls s.cfg.capTimeout s ++ [pinAccess s.cfg .capCharge false]) }) := by
  obtain ⟨-, -, -, hpos, hmax, -⟩ := valid_numbers h.valid
  obtain ⟨m, hm⟩ : ∃ m, s.cfg.capTimeout = m + 1 := ⟨s.cfg.capTimeout - 1, by omega⟩
  have hgivesUp : capStep (timing m s) = .next { timing (m + 1) s with
      cap.timedOut := true, cap.elapsed := BitVec.ofNat 16 s.cfg.capTimeout, seq.capState := .compute } := by
    show Host.Outcome.next (capSampleStep (timing m s)) = _
    rw [capSampleStep_timing, if_neg (by simp [hlow m (by omega)]), if_pos]
    rw [BitVec.toNat_ofNat]
    omega
  refine ((h.capRun_timing m (by omega) fun j hj => hlow j (by omega)).trans
    ((Ticking.capRun (by exact { h.ticking with }) hgivesUp).trans
      (Ticking.capRun (by exact { h.ticking with }) rfl))).cast (by omega) ?_
  rw [capComputeStep_eq (by exact h.valid)]
  dsimp only [timing]
  rw [after_after, driven_driven, ← hm]
  rfl

/-! ### The obligations -/

/-- A CAPM freely running at its first step. -/
theorem capStart_of_inFlight {s : State} (h : InFlight s .capm) (hs : s.seq.capState = .discharge)
    (hclear : s.cap = { timer := 0, elapsed := 0, timedOut := false }) (hv : validConfig s.cfg = true) : CapStart s :=
  ⟨ticking_of_inFlight h (by decide) _, hs, hclear, hv⟩

/-- Settles O31: the run is `CapStart.crosses`, its completion that of a command that is no FRAME; both lines are last
written de-asserted. -/
theorem capCycleCrosses : Obligations.CapCycleCrosses := by
  unfold Obligations.CapCycleCrosses
  intro s k hflight hs hclear hv hw hlt hlow hcross
  have hrun := (capStart_of_inFlight hflight hs hclear hv).crosses hlt hlow hcross
  rw [complete_of_not_inFrame (by exact inFrame_encode hflight.2.2.2)] at hrun
  exact ⟨_, hrun.run, hrun.busyBefore, latchesDrive_of_driven hv hw rfl rfl (by decide) (by decide), rfl⟩

/-- Settles O32: the run is `CapStart.timesOut`. -/
theorem capCycleTimesOut : Obligations.CapCycleTimesOut := by
  unfold Obligations.CapCycleTimesOut
  intro s hflight hs hclear hv hw hlow
  have hrun := (capStart_of_inFlight hflight hs hclear hv).timesOut hlow
  rw [complete_of_not_inFrame (by exact inFrame_encode hflight.2.2.2)] at hrun
  exact ⟨_, hrun.run, hrun.busyBefore, latchesDrive_of_driven hv hw rfl rfl (by decide) (by decide), rfl⟩

end Sys2Proof.Machine

/-! PROOF. The scan of an RSCAN or of phase 1 of a FRAME from its first channel to its completion (43_reflectance.md R140
to R144, 40_portbus_ops.md R89). -/

namespace Sys2Proof.Machine

open Sys2Proof

/-! ### One channel -/

/-- The read of one channel: the access, and the element or the sentinel with its cause (R141, R220). -/
def readChannel (k : Fin 16) (s : State) : State :=
  let r := analogRead (.refl k) s
  storeReflectance k r.1.1 r.1.2 r.2

theorem reflStep_eq (s : State) :
    reflStep s =
      if s.seq.reflIdx = 15 then
        complete { readChannel s.seq.reflIdx s with seq.reflIdx := 0, res.reflSt := true }
      else { readChannel s.seq.reflIdx s with seq.reflIdx := s.seq.reflIdx + 1 } := rfl

/-- The read of one channel as one update. -/
theorem readChannel_eq (k : Fin 16) (s : State) :
    readChannel k s = { s with
      res.refl := s.res.refl.set k (reflElement s.cfg (s.answerAt 0)),
      status.cause := (if (s.answerAt 0).ok then s.status.cause else some .channelUnavailable),
      status.esticky := (if (s.answerAt 0).ok then s.status.esticky
        else stickyWith s.status.esticky .channelUnavailable),
      io := s.io.after 1 [analogAccess s.cfg (.refl k) (s.answerAt 0)] } := by
  unfold readChannel reflElement
  rw [analogRead_eq]
  dsimp only
  cases (s.answerAt 0).ok <;> rfl

/-! ### Several channels -/

/-- The elements when the first `m` channels are read: the answers' in order, and what was there before (R142). -/
def elements (m : Nat) (s : State) : Vector (BitVec 17) 16 :=
  Vector.ofFn fun k => if k.val < m then reflElement s.cfg (s.answerAt k.val) else s.res.refl[k]

/-- The first `m` analog reads of a scan. -/
def channelReads (m : Nat) (s : State) : List Access :=
  (List.range m).map fun j => analogAccess s.cfg (.refl (Fin.ofNat 16 j)) (s.answerAt j)

/-- The status registers after the first `m` reads: each read that failed is recorded (R220). -/
def scanStatus (s : State) : Nat → StatusRegs
  | 0 => s.status
  | m + 1 =>
    if (s.answerAt m).ok then scanStatus s m
    else { scanStatus s m with
      cause := some .channelUnavailable, esticky := stickyWith (scanStatus s m).esticky .channelUnavailable }

theorem elements_zero (s : State) : elements 0 s = s.res.refl := by
  ext k hk
  simp [elements]

/-- The next element is the next answer's. -/
theorem elements_succ {m : Nat} (hm : m < 16) (s : State) :
    (elements m s).set m (reflElement s.cfg (s.answerAt m)) = elements (m + 1) s := by
  ext1 k hk
  simp only [elements, Vector.getElem_set, Vector.getElem_ofFn]
  by_cases hkm : m = k
  · subst hkm
    simp
  · have hiff : k < m ↔ k < m + 1 := by omega
    simp [hkm, hiff]

theorem channelReads_succ (m : Nat) (s : State) :
    channelReads (m + 1) s =
      channelReads m s ++ [analogAccess s.cfg (.refl (Fin.ofNat 16 m)) (s.answerAt m)] := by
  rw [channelReads, List.range_succ, List.map_append]
  rfl

/-- A scan records nothing when every read succeeds. -/
theorem scanStatus_of_ok {s : State} {m : Nat} (hok : ∀ j < m, (s.answerAt j).ok = true) :
    scanStatus s m = s.status := by
  induction m with
  | zero => rfl
  | succ m ih => rw [scanStatus, if_pos (hok m (by omega)), ih fun j hj => hok j (by omega)]

/-- A failed read is recorded, and stays recorded. -/
theorem scanStatus_of_failed {s : State} {m j : Nat} (hj : j < m) (hfail : (s.answerAt j).ok = false) :
    (scanStatus s m).cause = some .channelUnavailable ∧ (scanStatus s m).esticky.getLsbD 4 = true := by
  induction m with
  | zero => omega
  | succ m ih =>
    rw [scanStatus]
    split
    case isFalse => exact ⟨rfl, by simp [stickyWith_getLsbD, Cause.code]⟩
    case isTrue hok =>
      have hne : j ≠ m := by
        rintro rfl
        simp [hfail] at hok
      exact ih (by omega)

@[simp] theorem scanStatus_mode (s : State) (m : Nat) : (scanStatus s m).mode = s.status.mode := by
  induction m with
  | zero => rfl
  | succ m ih =>
    rw [scanStatus]
    split <;> exact ih

theorem scanStatus_succ (s : State) (m : Nat) :
    scanStatus s (m + 1) = { scanStatus s m with
      cause := (if (s.answerAt m).ok then (scanStatus s m).cause else some .channelUnavailable),
      esticky := (if (s.answerAt m).ok then (scanStatus s m).esticky
        else stickyWith (scanStatus s m).esticky .channelUnavailable) } := by
  rw [scanStatus]
  cases (s.answerAt m).ok <;> rfl

/-- The scan that began in `s` when the first `m` channels are read; the index after the last one is 0 again. -/
def scanned (m : Nat) (s : State) : State :=
  { s with
    seq.reflIdx := Fin.ofNat 16 m, res.refl := elements m s, status := scanStatus s m,
    io := s.io.after m (channelReads m s) }

theorem scanned_zero {s : State} (h : s.seq.reflIdx = 0) : scanned 0 s = s := by
  have hseq : ({ s.seq with reflIdx := Fin.ofNat 16 0 } : SeqRegs) = s.seq := by
    show ({ s.seq with reflIdx := 0 } : SeqRegs) = s.seq
    rw [← h]
  rw [scanned, hseq, elements_zero]
  exact congrArg (fun w => { s with io := w }) (after_zero_nil s.io)

/-- The read of the next channel. -/
theorem readChannel_scanned {m : Nat} (hm : m < 16) (s : State) :
    readChannel (Fin.ofNat 16 m) (scanned m s) =
      { scanned (m + 1) s with seq.reflIdx := Fin.ofNat 16 m } := by
  have hanswer : (scanned m s).answerAt 0 = s.answerAt m := answerAt_after rfl 0
  have hindex : (Fin.ofNat 16 m).val = m := Nat.mod_eq_of_lt hm
  have hio : (scanned m s).io.after 1 [analogAccess s.cfg (.refl (Fin.ofNat 16 m)) (s.answerAt m)] =
      s.io.after (m + 1) (channelReads (m + 1) s) := by
    rw [scanned, after_after, channelReads_succ]
  rw [readChannel_eq, hanswer]
  dsimp only [scanned] at hio ⊢
  simp only [hio, hindex, elements_succ hm, scanStatus_succ]

/-- The scan step after `m` reads (R142). -/
theorem reflStep_scanned {m : Nat} (hm : m < 16) (s : State) :
    reflStep (scanned m s) =
      if m = 15 then complete { scanned (m + 1) s with res.reflSt := true } else scanned (m + 1) s := by
  have hindex : (scanned m s).seq.reflIdx = Fin.ofNat 16 m := rfl
  have hlast : Fin.ofNat 16 m = 15 ↔ m = 15 := by
    rw [Fin.ext_iff]
    show m % 16 = 15 ↔ m = 15
    omega
  have hnext : Fin.ofNat 16 m + 1 = Fin.ofNat 16 (m + 1) := by
    rw [Fin.ext_iff, Fin.val_add]
    show (m % 16 + 1) % 16 = (m + 1) % 16
    omega
  rw [reflStep_eq, hindex, readChannel_scanned hm, hnext]
  refine (if_congr hlast rfl rfl).trans ?_
  split
  case isTrue h => rw [h]; rfl
  case isFalse => rfl

/-! ### The whole scan -/

/-- The scan at its first channel (R140). -/
structure ScanStart (s : State) : Prop where
  ticking : Ticking .rscan .scan s
  index   : s.seq.reflIdx = 0

/-- A step of the scan after `m` reads. -/
theorem ScanStart.scanRun_one {s t : State} (h : ScanStart s) {m : Nat} (ht : reflStep (scanned m s) = t) :
    BusyRun 1 (scanned m s) t :=
  have hticking : Ticking .rscan .scan (scanned m s) := { h.ticking with }
  .single hticking.busy (hticking.step_scan.trans (congrArg _ ht))

/-- All channels but the last. -/
theorem ScanStart.scanRun {s : State} (h : ScanStart s) {m : Nat} (hm : m ≤ 15) : BusyRun m s (scanned m s) := by
  induction m with
  | zero => exact (BusyRun.refl s).cast rfl (scanned_zero h.index).symm
  | succ m ih =>
    refine (ih (by omega)).trans (h.scanRun_one ?_)
    rw [reflStep_scanned (by omega), if_neg (by omega)]

/-- A scan completes with its step 16 (R143). -/
theorem ScanStart.completes {s : State} (h : ScanStart s) :
    BusyRun 16 s (complete { scanned 16 s with res.reflSt := true }) :=
  (h.scanRun (le_refl 15)).trans (h.scanRun_one ((reflStep_scanned (by omega) s).trans (if_pos rfl)))

/-! ### The obligation -/

/-- Settles O34: the run is `ScanStart.completes`; its elements, reads and status are `elements`, `channelReads` and
`scanStatus`. -/
theorem scanReadsSixteenInOrder : Obligations.ScanReadsSixteenInOrder := by
  unfold Obligations.ScanReadsSixteenInOrder
  intro s hflight hindex
  have hrun := ScanStart.completes ⟨ticking_of_inFlight hflight (by decide) _, hindex⟩
  rw [complete_of_not_inFrame (by exact inFrame_encode hflight.2.2.2)] at hrun
  refine ⟨_, hrun.run, hrun.busyBefore, ?_, rfl, fun k => ?_, rfl, fun k hk hfail => scanStatus_of_failed hk hfail,
    fun hok => scanStatus_of_ok hok⟩
  · show ({ s.seq with reflIdx := 0, busy := false } : SeqRegs) = { s.seq with busy := false }
    rw [← hindex]
  · simp [scanned, elements]

end Sys2Proof.Machine

/-! PROOF. Every command in flight completes (40_portbus_ops.md R88, R89): a bound on the steps that are left, which each
step of the command lowers. -/

namespace Sys2Proof.Machine

open Sys2Proof

/-! ### The steps that are left -/

/-- The steps left to a handshake, at most (R101 to R107). -/
def adcLeft (s : State) : Nat :=
  match s.seq.adcState with
  | .idle => 0
  | .assertCs => s.cfg.adcTimeout - s.adc.polls.toNat + 4
  | .awaitConversion => s.cfg.adcTimeout - s.adc.polls.toNat + 3
  | .assertRd => 3
  | .deassertRd => 2
  | .deassertCs => 1

/-- The steps left to a cycle, at most (R121 to R126). -/
def capLeft (s : State) : Nat :=
  match s.seq.capState with
  | .idle => 0
  | .discharge => s.cfg.capSettle - s.cap.timer.toNat + s.cfg.capTimeout + 3
  | .charge => s.cfg.capTimeout + 2
  | .sample => s.cfg.capTimeout - s.cap.timer.toNat + 1
  | .compute => 1

/-- The steps left to a scan (R142). -/
def scanLeft (s : State) : Nat := 16 - s.seq.reflIdx.val

/-- The steps left to the phase a FRAME is in, at most (R196). -/
def phaseLeft (s : State) : Nat :=
  match s.seq.framePhase with
  | .none => 0
  | .scan => scanLeft s
  | .capacitive => capLeft s
  | .adc => adcLeft s
  | .drain0 | .drain1 | .switches | .commit => 1

/-- The steps of the phases after `p`, at most. -/
def phasesAfter (c : Config) : FramePhase → Nat
  | .none | .commit => 0
  | .scan => c.capSettle + c.capTimeout + c.adcTimeout + 11
  | .drain0 => c.capSettle + c.capTimeout + c.adcTimeout + 10
  | .drain1 => c.capSettle + c.capTimeout + c.adcTimeout + 9
  | .switches => c.capSettle + c.capTimeout + c.adcTimeout + 8
  | .capacitive => c.adcTimeout + 5
  | .adc => 1

/-- The steps left to a FRAME, at most. -/
def frameLeft (s : State) : Nat := phaseLeft s + phasesAfter s.cfg s.seq.framePhase

/-- The steps left to command `i`, at most (R89). -/
def commandLeft (i : Instr) (s : State) : Nat :=
  match i with
  | .adcs => adcLeft s
  | .capm => capLeft s
  | .rscan => scanLeft s
  | .frame => frameLeft s
  | .nop | .init | .prd _ | .pwr _ _ _ | .edrn _ | .swp | .mset _ _ | .rset _ _ | .abort => 1

theorem adcLeft_le (s : State) : adcLeft s ≤ s.cfg.adcTimeout + 4 := by
  unfold adcLeft
  split <;> omega

theorem capLeft_le (s : State) : capLeft s ≤ s.cfg.capSettle + s.cfg.capTimeout + 3 := by
  unfold capLeft
  split <;> omega

theorem frameLeft_le (s : State) : frameLeft s ≤ s.cfg.capSettle + s.cfg.capTimeout + s.cfg.adcTimeout + 27 := by
  have hadc := adcLeft_le s
  have hcap := capLeft_le s
  have hscan : scanLeft s ≤ 16 := Nat.sub_le ..
  unfold frameLeft phaseLeft
  cases s.seq.framePhase <;> simp only [phasesAfter] <;> omega

/-- The sum of R89's counts of the commands a FRAME consists of bounds them all. -/
theorem commandLeft_le (i : Instr) (s : State) :
    commandLeft i s ≤ s.cfg.capSettle + s.cfg.capTimeout + s.cfg.adcTimeout + 27 := by
  cases i with
  | adcs =>
    have := adcLeft_le s
    simp only [commandLeft]
    omega
  | capm =>
    have := capLeft_le s
    simp only [commandLeft]
    omega
  | rscan =>
    simp only [commandLeft, scanLeft]
    omega
  | frame => exact frameLeft_le s
  | nop | init | prd p | pwr p m v | edrn ch | swp | mset ch v | rset ch st | abort =>
    simp only [commandLeft]
    omega

/-! ### A step of a unit -/

/-- `t` stands at the same command and phase as `s`, with the same steps pending. -/
structure SameCommand (s t : State) : Prop where
  cfg    : t.cfg = s.cfg
  events : t.io.events = s.io.events
  latch  : t.seq.cmdLatch = s.seq.cmdLatch
  phase  : t.seq.framePhase = s.seq.framePhase

/-- What a step of a unit with `left` steps to go may do: one step less is left, or the unit completes. -/
inductive UnitStep (left : State → Nat) (s t : State) : Prop where
  | moves (same : SameCommand s t) (less : left t < left s)
  | ends (u : State) (complete : t = complete u) (same : SameCommand s u) (pos : 0 < left s)

/-- A counter below its 16-bit limit counts. -/
theorem toNat_add_one_of_lt {x : BitVec 16} {n : Nat} (hx : x.toNat < n) (hn : n ≤ 65535) :
    (x + 1).toNat = x.toNat + 1 := by
  rw [BitVec.toNat_add]
  exact Nat.mod_eq_of_lt (show x.toNat + 1 < 2 ^ 16 by omega)

/-- The handshake comes nearer to its end (R101 to R107). -/
theorem adcStep_progress {s t : State} (hv : validConfig s.cfg = true) (hb : AdcBound s) (h : adcStep s = .next t) :
    UnitStep adcLeft s t := by
  obtain ⟨-, hmax, -⟩ := valid_numbers hv
  unfold adcStep at h
  split at h <;> cases h
  case h_2 hs =>
    rw [adcAssertCs_eq hv]
    exact .moves ⟨rfl, rfl, rfl, rfl⟩ (by simp [adcLeft, hs])
  case h_3 hs =>
    have hlt := hb.2 (.inr hs)
    rw [adcAwait_eq hv]
    split
    · exact .moves ⟨rfl, rfl, rfl, rfl⟩ (by simp only [adcLeft, hs]; omega)
    · split
      · exact .moves ⟨rfl, rfl, rfl, rfl⟩ (by simp only [adcLeft, hs]; omega)
      · rename_i hwait
        refine .moves ⟨rfl, rfl, rfl, rfl⟩ ?_
        have hcount := toNat_add_one_of_lt hlt hmax
        simp only [adcLeft, polled, hs]
        show s.cfg.adcTimeout - (s.adc.polls + 1).toNat + 3 < _
        omega
  case h_4 hs =>
    rw [adcAssertRd_eq hv]
    exact .moves ⟨rfl, rfl, rfl, rfl⟩ (by simp [adcLeft, hs])
  case h_5 hs =>
    rw [adcDeassertRd_eq hv]
    exact .moves ⟨rfl, rfl, rfl, rfl⟩ (by simp [adcLeft, hs])
  case h_6 hs =>
    rw [adcDeassertCs_eq hv]
    exact .ends _ rfl ⟨rfl, rfl, rfl, rfl⟩ (by simp [adcLeft, hs])

/-- The cycle comes nearer to its end (R121 to R126). -/
theorem capStep_progress {s t : State} (hv : validConfig s.cfg = true) (hb : CapBound s) (h : capStep s = .next t) :
    UnitStep capLeft s t := by
  obtain ⟨-, -, hsettle, -, hmax, -⟩ := valid_numbers hv
  obtain ⟨-, -, hdischarge, hsample, -⟩ := hb
  unfold capStep at h
  split at h <;> cases h
  case h_2 hs =>
    have hle := hdischarge hs
    by_cases hzero : s.cap.timer = 0
    · rw [capDischargeStep_first hv hzero]
      dsimp only
      split
      · exact .moves ⟨rfl, rfl, rfl, rfl⟩ (by simp only [capLeft, hs]; omega)
      · exact .moves ⟨rfl, rfl, rfl, rfl⟩ (by simp [capLeft, hs, hzero]; omega)
    · rw [capDischargeStep_later hzero]
      split
      · exact .moves ⟨rfl, rfl, rfl, rfl⟩ (by simp only [capLeft, hs]; omega)
      · have hcount := toNat_add_one_of_lt (x := s.cap.timer) (n := s.cfg.capSettle) (by omega) hsettle
        exact .moves ⟨rfl, rfl, rfl, rfl⟩ (by simp only [capLeft, hs, hcount]; omega)
  case h_3 hs =>
    rw [capChargeStep_eq hv]
    exact .moves ⟨rfl, rfl, rfl, rfl⟩ (by simp [capLeft, hs])
  case h_4 hs =>
    have hlt := hsample hs
    have hcount := toNat_add_one_of_lt hlt hmax
    rw [capSampleStep_eq]
    dsimp only
    split
    · exact .moves ⟨rfl, rfl, rfl, rfl⟩ (by simp only [capLeft, hs]; omega)
    · split
      · exact .moves ⟨rfl, rfl, rfl, rfl⟩ (by simp only [capLeft, hs]; omega)
      · exact .moves ⟨rfl, rfl, rfl, rfl⟩ (by simp only [capLeft, hs, hcount]; omega)
  case h_5 hs =>
    rw [capComputeStep_eq hv]
    exact .ends _ rfl ⟨rfl, rfl, rfl, rfl⟩ (by simp [capLeft, hs])

/-- The scan comes nearer to its end (R142). -/
theorem reflStep_progress (s : State) : UnitStep scanLeft s (reflStep s) := by
  have hpos : 0 < scanLeft s := Nat.sub_pos_of_lt s.seq.reflIdx.isLt
  rw [reflStep_eq, readChannel_eq]
  split
  case isTrue => exact .ends _ rfl ⟨rfl, rfl, rfl, rfl⟩ hpos
  case isFalse hlast =>
    refine .moves ⟨rfl, rfl, rfl, rfl⟩ ?_
    have hne : s.seq.reflIdx.val ≠ 15 := fun h => hlast (Fin.ext h)
    have hnext : (s.seq.reflIdx + 1).val = s.seq.reflIdx.val + 1 := by
      rw [Fin.val_add]
      exact Nat.mod_eq_of_lt (show s.seq.reflIdx.val + 1 < 16 by omega)
    simp only [scanLeft, hnext]
    omega

/-! ### Commands of one step -/

/-- A poll of one switch moves no unit and no schedule. -/
theorem pollSwitch_shape (x : State × Vector Bool 4) (i : Fin 4) :
    ∃ sw st w, (pollSwitch x i).1 = { x.1 with sw := sw, status := st, io := w } ∧
      st.mode = x.1.status.mode ∧ w.events = x.1.io.events ∧ w.rst = x.1.io.rst := by
  unfold pollSwitch debounce
  dsimp only
  split
  · split
    · exact ⟨_, _, _, rfl, rfl, rfl, rfl⟩
    · split <;> exact ⟨_, _, _, rfl, rfl, rfl, rfl⟩
  · exact ⟨_, _, _, rfl, rfl, rfl, rfl⟩

theorem foldl_pollSwitch_shape (l : List (Fin 4)) (x : State × Vector Bool 4) :
    ∃ sw st w, (l.foldl pollSwitch x).1 = { x.1 with sw := sw, status := st, io := w } ∧
      st.mode = x.1.status.mode ∧ w.events = x.1.io.events ∧ w.rst = x.1.io.rst := by
  induction l generalizing x with
  | nil => exact ⟨_, _, _, rfl, rfl, rfl, rfl⟩
  | cons i l ih =>
    obtain ⟨sw, st, w, heq, hmode, hevents, hrst⟩ := pollSwitch_shape x i
    obtain ⟨sw', st', w', heq', hmode', hevents', hrst'⟩ := ih (pollSwitch x i)
    rw [heq] at heq' hmode' hevents' hrst'
    exact ⟨sw', st', w', heq', hmode'.trans hmode, hevents'.trans hevents, hrst'.trans hrst⟩

/-- The SWP step as the completion of one update (R186). -/
theorem swStep_shape (s : State) :
    ∃ sw st w avail, swStep s =
        complete { s with sw := sw, status := st, io := w, res.sw := swResult avail sw.stable } ∧
      st.mode = s.status.mode ∧ w.events = s.io.events ∧ w.rst = s.io.rst := by
  obtain ⟨sw, st, w, heq, hrest⟩ := foldl_pollSwitch_shape [0, 1, 2, 3] (s, Vector.replicate 4 false)
  have hpoll : (pollSwitches s).1 = { s with sw := sw, status := st, io := w } := heq
  refine ⟨sw, st, w, (pollSwitches s).2, ?_, hrest⟩
  rw [swStep]
  dsimp only
  rw [hpoll]

@[simp] theorem pinWrite_events (n : Pin) (a : Bool) (s : State) : (pinWrite n a s).io.events = s.io.events := by
  obtain ⟨o, tr, heq, -⟩ := pinWrite_shape n a s
  rw [heq]

/-- A command that only completes, in its one step. -/
theorem ends_of_complete {s u : State} (hseq : u.seq = s.seq) (hcfg : u.cfg = s.cfg)
    (hevents : u.io.events = s.io.events) : UnitStep (fun _ => 1) s (complete u) :=
  .ends u rfl ⟨hcfg, hevents, by rw [hseq], by rw [hseq]⟩ Nat.one_pos

theorem drainEncoder_progress (ch : Fin 2) (s : State) : UnitStep (fun _ => 1) s (drainEncoder ch s) :=
  ends_of_complete rfl rfl rfl

theorem swStep_progress (s : State) : UnitStep (fun _ => 1) s (swStep s) := by
  obtain ⟨sw, st, w, avail, heq, -, hevents, -⟩ := swStep_shape s
  rw [heq]
  exact ends_of_complete rfl rfl hevents

/-! ### A step of a command -/

/-- What a step of command `i` may do: BUSY is cleared, or one step less is left. -/
def Progress (i : Instr) (s t : State) : Prop :=
  0 < commandLeft i s ∧
    (t.seq.busy = false ∨
      (t.cfg = s.cfg ∧ t.io.events = s.io.events ∧ t.seq.cmdLatch = s.seq.cmdLatch ∧
        commandLeft i t < commandLeft i s))

/-- A step of its unit is progress of a command that is no FRAME. -/
theorem UnitStep.progress {left : State → Nat} {i : Instr} {s t : State} (h : UnitStep left s t)
    (hleft : commandLeft i = left) (hout : s.inFrame = false) : Progress i s t := by
  cases h with
  | moves same less => exact ⟨hleft ▸ Nat.zero_lt_of_lt less, .inr ⟨same.cfg, same.events, same.latch, hleft ▸ less⟩⟩
  | ends u complete same pos =>
    have hout' : u.inFrame = false := by rw [State.inFrame, same.latch]; exact hout
    rw [complete, complete_of_not_inFrame hout']
    exact ⟨hleft ▸ pos, .inl rfl⟩

/-- The next phase is the first of the phases after this one. -/
theorem frameLeft_nextPhase {u : State} (hp : u.seq.framePhase ≠ .none ∧ u.seq.framePhase ≠ .commit) :
    frameLeft (nextPhase u) ≤ phasesAfter u.cfg u.seq.framePhase := by
  cases h : u.seq.framePhase with
  | none => exact absurd h hp.1
  | commit => exact absurd h hp.2
  | scan => simp [nextPhase_scan h, frameLeft, phaseLeft, phasesAfter]; omega
  | drain0 => simp [nextPhase_drain0 h, frameLeft, phaseLeft, phasesAfter]; omega
  | drain1 => simp [nextPhase_drain1 h, frameLeft, phaseLeft, phasesAfter]; omega
  | switches => simp [nextPhase_switches h, frameLeft, phaseLeft, phasesAfter, capLeft]; omega
  | capacitive => simp [nextPhase_capacitive h, frameLeft, phaseLeft, phasesAfter, adcLeft]
  | adc => simp [nextPhase_adc h, frameLeft, phaseLeft, phasesAfter]

theorem nextPhase_latch (s : State) : (nextPhase s).seq.cmdLatch = s.seq.cmdLatch := by
  unfold nextPhase
  split <;> rfl

/-- A step of the phase's unit is progress of a FRAME. -/
theorem UnitStep.progress_frame {left : State → Nat} {s t : State} (h : UnitStep left s t)
    (hleft : ∀ u, u.seq.framePhase = s.seq.framePhase → phaseLeft u = left u) (hin : s.inFrame = true)
    (hp : s.seq.framePhase ≠ .none ∧ s.seq.framePhase ≠ .commit) : Progress .frame s t := by
  have hs := hleft s rfl
  cases h with
  | moves same less =>
    have hless : frameLeft t < frameLeft s := by
      rw [frameLeft, frameLeft, hleft t same.phase, hs, same.cfg, same.phase]
      omega
    exact ⟨Nat.zero_lt_of_lt hless, .inr ⟨same.cfg, same.events, same.latch, hless⟩⟩
  | ends u complete same pos =>
    have hin' : u.inFrame = true := by rw [State.inFrame, same.latch]; exact hin
    have hnext := frameLeft_nextPhase (u := u) (same.phase ▸ hp)
    rw [complete, complete_of_inFrame hin']
    rw [same.cfg, same.phase] at hnext
    have hless : frameLeft (nextPhase u) < frameLeft s := by
      rw [frameLeft.eq_def s, hs]
      omega
    exact ⟨Nat.zero_lt_of_lt hless, .inr ⟨by simpa using same.cfg, by simpa using same.events,
      (nextPhase_latch u).trans same.latch, hless⟩⟩

/-- A FRAME comes nearer to its commit, and commits (R196, R203). -/
theorem execFrame_progress {s t : State} (hr : Running .frame s) (h : execFrame s = .next t) :
    Progress .frame s t := by
  have hv := (hr.sound.ready (hr.ready (by simp) (by simp))).1
  have hin : s.inFrame = true := by simp [inFrame_decode hr.decoded]
  unfold execFrame at h
  split at h
  case h_1 => cases h
  case h_2 hp =>
    cases h
    exact (reflStep_progress s).progress_frame (fun u hu => by simp [phaseLeft, hu, hp]) hin (by simp [hp])
  case h_3 hp | h_4 hp =>
    cases h
    exact (drainEncoder_progress _ s).progress_frame (fun u hu => by simp [phaseLeft, hu, hp]) hin (by simp [hp])
  case h_5 hp =>
    cases h
    exact (swStep_progress s).progress_frame (fun u hu => by simp [phaseLeft, hu, hp]) hin (by simp [hp])
  case h_6 hp =>
    exact (capStep_progress hv hr.sound.cap h).progress_frame (fun u hu => by simp [phaseLeft, hu, hp]) hin
      (by simp [hp])
  case h_7 hp =>
    exact (adcStep_progress hv hr.sound.adc h).progress_frame (fun u hu => by simp [phaseLeft, hu, hp]) hin
      (by simp [hp])
  case h_8 hp =>
    cases h
    exact ⟨by simp [commandLeft, frameLeft, phaseLeft, hp], .inl rfl⟩

/-- A port command completes or is fatal; either way BUSY is cleared (R86, R87, R218). -/
theorem handleChecked_progress {i : Instr} {s u : State} {p : Nat} (hleft : commandLeft i = fun _ => 1)
    (hout : s.inFrame = false) (hu : UnitStep (fun _ => 1) s u) :
    Progress i s (if s.handleOk p then u else raise .invalidPortHandle s) := by
  split
  · exact hu.progress hleft hout
  · exact ⟨by simp [hleft], .inl rfl⟩

/-- Every command comes nearer to its completion with each step. -/
theorem exec_progress {i : Instr} {s t : State} (hr : Running i s) (h : exec i s = .next t) : Progress i s t := by
  have hready : i ≠ .nop → i ≠ .init → validConfig s.cfg = true := fun h1 h2 => (hr.sound.ready (hr.ready h1 h2)).1
  have hout : i ≠ .frame → s.inFrame = false := fun hi => by simp [inFrame_decode hr.decoded, hi]
  cases i with
  | frame => exact execFrame_progress hr h
  | adcs => exact (adcStep_progress (hready (by simp) (by simp)) hr.sound.adc h).progress rfl (hout (by simp))
  | capm => exact (capStep_progress (hready (by simp) (by simp)) hr.sound.cap h).progress rfl (hout (by simp))
  | rscan =>
    obtain rfl := Host.Outcome.next.inj h
    exact (reflStep_progress s).progress rfl (hout (by simp))
  | nop =>
    obtain rfl := Host.Outcome.next.inj h
    exact (ends_of_complete rfl rfl rfl).progress rfl (hout (by simp))
  | init =>
    obtain rfl := Host.Outcome.next.inj h
    split
    case isTrue hv =>
      rw [initValid_eq hv (hout (by simp))]
      exact ⟨Nat.one_pos, .inl rfl⟩
    case isFalse => exact ⟨Nat.one_pos, .inl rfl⟩
  | prd p =>
    obtain rfl := Host.Outcome.next.inj h
    exact handleChecked_progress rfl (hout (by simp)) (ends_of_complete rfl rfl rfl)
  | pwr p m v =>
    obtain rfl := Host.Outcome.next.inj h
    refine handleChecked_progress rfl (hout (by simp)) (ends_of_complete (by simp) (by simp) ?_)
    rw [portWrite_io]
    split <;> rfl
  | edrn ch =>
    obtain rfl := Host.Outcome.next.inj h
    exact (drainEncoder_progress _ s).progress rfl (hout (by simp))
  | swp =>
    obtain rfl := Host.Outcome.next.inj h
    exact (swStep_progress s).progress rfl (hout (by simp))
  | mset ch v =>
    obtain rfl := Host.Outcome.next.inj h
    split
    · exact (ends_of_complete (by simp) (by simp) (by simp)).progress rfl (hout (by simp))
    · exact (ends_of_complete (by simp) (by simp) (by simp)).progress rfl (hout (by simp))
  | rset ch st =>
    obtain rfl := Host.Outcome.next.inj h
    exact (ends_of_complete (by simp) (by simp) (by simp)).progress rfl (hout (by simp))
  | abort =>
    obtain rfl := Host.Outcome.next.inj h
    exact (ends_of_complete (by simp [releaseLines]) (by simp [releaseLines]) (by simp [releaseLines])).progress rfl
      (hout (by simp))

/-- The command of a state of the invariant has a step. -/
theorem Running.exec_next {i : Instr} {s : State} (h : Running i s) : ∃ t, exec i s = .next t := by
  have hpos := h.position.1
  cases i with
  | adcs => exact adcStep_next hpos.2.1
  | capm => exact capStep_next hpos.2.2.1
  | frame =>
    show ∃ t, execFrame s = .next t
    have hpos : FramePosition s := hpos
    cases hp : s.seq.framePhase with
    | none => simp [FramePosition, hp] at hpos
    | capacitive =>
      simp only [FramePosition, hp] at hpos
      simpa only [execFrame, hp] using capStep_next hpos.1
    | adc =>
      simp only [FramePosition, hp] at hpos
      simpa only [execFrame, hp] using adcStep_next hpos.1
    | scan | drain0 | drain1 | switches | commit => simp [execFrame, hp]
  | nop | init | prd p | pwr p m v | rscan | edrn ch | swp | mset ch v | rset ch st | abort => exact ⟨_, rfl⟩

/-! ### The obligation -/

/-- With nothing pending, a command in flight completes within the steps that are left to it. -/
theorem Running.completes {i : Instr} {s : State} (h : Running i s) (hevents : s.io.events = []) :
    ∃ n t, n ≤ commandLeft i s ∧ core.run n s = .next t ∧ t.seq.busy = false := by
  induction hk : commandLeft i s using Nat.strong_induction_on generalizing s with
  | _ k ih =>
    subst hk
    obtain ⟨t, ht⟩ := h.exec_next
    have hstep : step s = .next t := by
      rw [stepRunsLatchedCommand s i (.inl hevents) h.rst h.busy h.decoded, popped_of_nil hevents, ht]
    obtain ⟨hpos, hidle | ⟨-, hevents', hlatch, hless⟩⟩ := exec_progress h ht
    · exact ⟨1, t, hpos, run_succ hstep 0, hidle⟩
    · by_cases hbusy : t.seq.busy = true
      · have hinv := exec_invariant h ht
        have hrst : t.io.rst = false := by
          have := hinv.resetHeld
          by_contra hr
          exact absurd hbusy (by simp [(this (by simpa using hr)).2])
        have hnext : Running i t := ⟨hinv, hbusy, hrst, by rw [hlatch]; exact h.decoded⟩
        obtain ⟨n, u, hn, hrun, hu⟩ := ih _ hless hnext (hevents'.trans hevents) rfl
        exact ⟨n + 1, u, by omega, (run_succ hstep n).trans hrun, hu⟩
      · exact ⟨1, t, hpos, run_succ hstep 0, by simpa using hbusy⟩

/-- Settles O54: the steps left lower with each step (`exec_progress`), and R89's counts bound them. -/
theorem everyCommandCompletes : Obligations.EveryCommandCompletes := by
  unfold Obligations.EveryCommandCompletes
  intro s hinv hevents hbusy
  have hrst : s.io.rst = false := by
    by_contra hr
    exact absurd hbusy (by simp [(hinv.resetHeld (by simpa using hr)).2])
  obtain ⟨i, hdec⟩ : ∃ i, decode s.seq.cmdLatch = .legal i := by
    have hseq := hinv.sequencer
    unfold SequencerOk at hseq
    rw [if_pos hbusy] at hseq
    split at hseq
    case h_1 i hdec => exact ⟨i, hdec⟩
    case h_2 => exact hseq.elim
  have hr : Running i s := ⟨hinv, hbusy, hrst, hdec⟩
  obtain ⟨n, t, hn, hrun, ht⟩ := hr.completes hevents
  exact ⟨n, t, hn.trans (commandLeft_le i s), hrun, ht⟩

end Sys2Proof.Machine

/-! PROOF. A FRAME from its first phase to its commit, whatever the environment answers (47_frame_abort.md R195 to R204,
40_portbus_ops.md R89). -/

namespace Sys2Proof.Machine

open Sys2Proof

/-! ### A FRAME between two phases -/

/-- A FRAME freely running at the start of phase `p`, its units at positions `a` and `c` (R198). -/
structure FrameAt (p : FramePhase) (a : AdcState) (c : CapState) (s : State) : Prop where
  events : s.io.events = []
  rst    : s.io.rst = false
  valid  : validConfig s.cfg = true
  seq    : s.seq = { busy := true, cmdLatch := encode .frame, framePhase := p, adcState := a, capState := c,
                     reflIdx := 0 }

theorem decode_encode_frame : decode (encode .frame) = .legal .frame := decodeInvertsEncode .frame (by decide)

/-- The ticks are those of the phase's unit. -/
theorem FrameAt.ticking {p : FramePhase} {a : AdcState} {c : CapState} {s : State} (h : FrameAt p a c s) (i : Instr) :
    Ticking i p s where
  events := h.events
  rst := h.rst
  busy := by rw [h.seq]
  runs := .inr (by rw [h.seq]; exact ⟨decode_encode_frame, rfl⟩)

/-- Inside a FRAME completion is NextPhase (R81). -/
theorem complete_frame {s : State} (h : s.seq.cmdLatch = encode .frame) : complete s = nextPhase s :=
  complete_of_inFrame (inFrame_encode h)

/-- `n` steps of a FRAME that make the PinWrites `l`, and leave the configuration, the mode, the duties and the frame
bank alone. -/
structure PhaseRun (n : Nat) (l : List (Pin × Bool)) (s t : State) : Prop where
  run  : BusyRun n s t
  cfg  : t.cfg = s.cfg
  mode : t.status.mode = s.status.mode
  duty : t.duty = s.duty
  bank : t.bank = s.bank
  out  : t.out = driven l s.cfg s.out

theorem PhaseRun.trans {m n : Nat} {l k : List (Pin × Bool)} {s t u : State} (h : PhaseRun m l s t)
    (h' : PhaseRun n k t u) : PhaseRun (m + n) (l ++ k) s u where
  run := h.run.trans h'.run
  cfg := h'.cfg.trans h.cfg
  mode := h'.mode.trans h.mode
  duty := h'.duty.trans h.duty
  bank := h'.bank.trans h.bank
  out := by rw [h'.out, h.out, h.cfg, driven_driven]

/-! ### The phases -/

/-- Phase 1, the scan (R140, R143). -/
theorem FrameAt.scan {s : State} (h : FrameAt .scan .idle .idle s) :
    ∃ t, PhaseRun 16 [] s t ∧ FrameAt .drain0 .idle .idle t ∧ t.enc = s.enc ∧ t.res.reflSt = true := by
  have hrun := ScanStart.completes ⟨h.ticking .rscan, by rw [h.seq]⟩
  rw [complete_frame (by simp [scanned, h.seq]), nextPhase_scan (by simp [scanned, h.seq])] at hrun
  refine ⟨_, ⟨hrun, rfl, scanStatus_mode s 16, rfl, rfl, rfl⟩, ⟨h.events, h.rst, h.valid, ?_⟩, rfl, rfl⟩
  simp only [scanned, h.seq]
  rfl

/-- The coming step is the FRAME's, of the sub-operation of its phase (R196). -/
theorem FrameAt.step_eq {p : FramePhase} {a : AdcState} {c : CapState} {s : State} (h : FrameAt p a c s) :
    step s = execFrame s := by
  have hdec : decode s.seq.cmdLatch = .legal .frame := by rw [h.seq]; exact decode_encode_frame
  rw [stepRunsLatchedCommand s .frame (.inl h.events) h.rst (by rw [h.seq]) hdec, popped_of_nil h.events]
  rfl

/-- Phase 2, the first drain: one accumulator read and cleared (R155), the other's result cleared. -/
theorem FrameAt.drain0 {s : State} (h : FrameAt .drain0 .idle .idle s) :
    ∃ t, PhaseRun 1 [] s t ∧ FrameAt .drain1 .idle .idle t ∧ t.enc = { s.enc with acc := s.enc.acc.set 0 0 } ∧
      t.res = { s.res with enc := (s.res.enc.set 0 (encResult s.enc.acc[0])).set 1 0 } := by
  have hstep : step s = .next (drainEncoder 0 s) := h.step_eq.trans (by simp only [execFrame, h.seq])
  rw [drainEncoder, complete_frame (by simp [h.seq]), nextPhase_drain0 (by simp [h.seq])] at hstep
  refine ⟨_, ⟨.single (by rw [h.seq]) hstep, rfl, rfl, rfl, rfl, rfl⟩, ⟨h.events, h.rst, h.valid, ?_⟩, rfl, rfl⟩
  simp only [h.seq]

/-- Phase 3, the second drain. -/
theorem FrameAt.drain1 {s : State} (h : FrameAt .drain1 .idle .idle s) :
    ∃ t, PhaseRun 1 [] s t ∧ FrameAt .switches .idle .idle t ∧ t.enc = { s.enc with acc := s.enc.acc.set 1 0 } ∧
      t.res = { s.res with enc := s.res.enc.set 1 (encResult s.enc.acc[1]), sw := 0 } := by
  have hstep : step s = .next (drainEncoder 1 s) := h.step_eq.trans (by simp only [execFrame, h.seq])
  rw [drainEncoder, complete_frame (by simp [h.seq]), nextPhase_drain1 (by simp [h.seq])] at hstep
  refine ⟨_, ⟨.single (by rw [h.seq]) hstep, rfl, rfl, rfl, rfl, rfl⟩, ⟨h.events, h.rst, h.valid, ?_⟩, rfl, rfl⟩
  simp only [h.seq]

/-- Both drains: each accumulator is read and cleared. -/
theorem FrameAt.drains {s : State} (h : FrameAt .drain0 .idle .idle s) :
    ∃ t, PhaseRun 2 [] s t ∧ FrameAt .switches .idle .idle t ∧
      (∀ i : Fin 2, t.res.enc[i] = encResult s.enc.acc[i] ∧ t.enc.acc[i] = 0) ∧ t.res.reflSt = s.res.reflSt := by
  obtain ⟨t, hrun, ht, henc, hres⟩ := h.drain0
  obtain ⟨u, hrun', hu, henc', hres'⟩ := ht.drain1
  refine ⟨u, hrun.trans hrun', hu, fun i => ?_, by rw [hres', hres]⟩
  rw [hres', henc', hres, henc]
  fin_cases i <;> simp

/-- The valid bit of `R_SW` (R28). -/
theorem swResult_valid (avail stable : Vector Bool 4) : (swResult avail stable).getLsbD 8 = true := by
  have happ : (swResult avail stable).getLsbD 8 =
      (1#1 ++ nibble avail ++ nibble stable : BitVec (1 + 4 + 4)).getLsbD 8 := rfl
  rw [happ, BitVec.getLsbD_append, BitVec.getLsbD_append]
  simp

/-- Phase 4, the poll of the switches (R186). -/
theorem FrameAt.switches {s : State} (h : FrameAt .switches .idle .idle s) :
    ∃ t, PhaseRun 1 [] s t ∧ FrameAt .capacitive .idle .discharge t ∧
      t.cap = { timer := 0, elapsed := 0, timedOut := false } ∧ t.enc = s.enc ∧
      t.res = { s.res with sw := t.res.sw, cap := 0 } ∧ t.res.sw.getLsbD 8 = true := by
  obtain ⟨sw, st, w, avail, heq, hmode, hevents, hrst⟩ := swStep_shape s
  have hstep : step s = .next (swStep s) := h.step_eq.trans (by simp only [execFrame, h.seq])
  rw [heq, complete_frame (by simp [h.seq]), nextPhase_switches (by simp [h.seq])] at hstep
  refine ⟨_, ⟨.single (by rw [h.seq]) hstep, rfl, hmode, rfl, rfl, rfl⟩,
    ⟨hevents.trans h.events, hrst.trans h.rst, h.valid, ?_⟩, rfl, rfl, rfl, swResult_valid ..⟩
  simp only [h.seq]

/-- Of `b` polls none succeeds, or there is a first that does. -/
theorem first_or_never (f : Nat → Bool) (b : Nat) :
    (∀ j < b, f j = false) ∨ ∃ k < b, f k = true ∧ ∀ j < k, f j = false := by
  induction b with
  | zero => exact .inl fun j hj => absurd hj (Nat.not_lt_zero j)
  | succ b ih =>
    obtain hnever | ⟨k, hk, hfirst⟩ := ih
    · cases hb : f b with
      | true => exact .inr ⟨b, Nat.lt_succ_self b, hb, hnever⟩
      | false =>
        refine .inl fun j hj => ?_
        obtain hj | rfl := Nat.lt_succ_iff_lt_or_eq.mp hj
        · exact hnever j hj
        · exact hb
    · exact .inr ⟨k, Nat.lt_succ_of_lt hk, hfirst⟩

/-- The PinWrites of a cycle (R130). -/
def cycleWrites : List (Pin × Bool) :=
  [(.capDischarge, true), (.capDischarge, false), (.capCharge, true), (.capCharge, false)]

/-- Phase 5, the cycle, crossed or not (R130). -/
theorem FrameAt.cycle {s : State} (h : FrameAt .capacitive .idle .discharge s)
    (hclear : s.cap = { timer := 0, elapsed := 0, timedOut := false }) :
    ∃ n t, s.cfg.capSettle + 4 ≤ n ∧ n ≤ s.cfg.capSettle + s.cfg.capTimeout + 3 ∧ PhaseRun n cycleWrites s t ∧
      FrameAt .adc .assertCs .idle t ∧ t.adc = { polls := 0, err := false, latch := 0 } ∧ t.enc = s.enc ∧
      t.res = { s.res with cap := t.res.cap, adc := 0 } ∧ t.res.cap.getLsbD 18 = true := by
  have hstart : CapStart s := ⟨h.ticking .capm, by rw [h.seq], hclear, h.valid⟩
  have ⟨_, _, _, hpos, _⟩ := valid_numbers h.valid
  obtain hlow | ⟨k, hk, hcross, hlow⟩ := first_or_never (fun j => answerCrosses s.cfg (s.answerAt j)) s.cfg.capTimeout
  · have hrun := hstart.timesOut hlow
    rw [complete_frame (by simp [h.seq]), nextPhase_capacitive (by simp [h.seq])] at hrun
    refine ⟨_, _, by omega, le_refl _, ⟨hrun, rfl, rfl, rfl, rfl, rfl⟩, ⟨h.events, h.rst, h.valid, ?_⟩, rfl, rfl, rfl,
      capResult_valid ..⟩
    simp only [h.seq]
  · have hrun := hstart.crosses hk hlow hcross
    rw [complete_frame (by simp [h.seq]), nextPhase_capacitive (by simp [h.seq])] at hrun
    refine ⟨_, _, by omega, by omega, ⟨hrun, rfl, rfl, rfl, rfl, rfl⟩, ⟨h.events, h.rst, h.valid, ?_⟩, rfl, rfl, rfl,
      capResult_valid ..⟩
    simp only [h.seq]

/-- The PinWrites of a handshake that succeeds, and of one that times out (R108). -/
def handshakeWrites (seen : Bool) : List (Pin × Bool) :=
  if seen then [(.adcCs, true), (.adcRd, true), (.adcRd, false), (.adcCs, false)]
  else [(.adcCs, true), (.adcRd, false), (.adcCs, false)]

/-- Phase 6, the handshake, with a sample or without (R108). -/
theorem FrameAt.handshake {s : State} (h : FrameAt .adc .assertCs .idle s)
    (hclear : s.adc = { polls := 0, err := false, latch := 0 }) :
    ∃ n seen t, 4 ≤ n ∧ n ≤ s.cfg.adcTimeout + 4 ∧ PhaseRun n (handshakeWrites seen) s t ∧
      FrameAt .commit .idle .idle t ∧ t.enc = s.enc ∧ t.res = { s.res with adc := t.res.adc } ∧
      (t.res.adc.getLsbD 8 = true ↔ t.adc.err = false) := by
  have hstart : AdcStart s := ⟨h.ticking .adcs, by rw [h.seq], hclear, h.valid⟩
  have ⟨hpos, _⟩ := valid_numbers h.valid
  obtain hblind | ⟨k, hk, hseen, hbefore⟩ :=
    first_or_never (fun j => seesAsserted s.cfg .adcInt (s.answerAt j)) s.cfg.adcTimeout
  · have hrun := hstart.timesOut hblind
    rw [complete_frame (by simp [h.seq]), nextPhase_adc (by simp [h.seq])] at hrun
    refine ⟨_, false, _, by omega, by omega, ⟨hrun, rfl, rfl, rfl, rfl, rfl⟩, ⟨h.events, h.rst, h.valid, ?_⟩, rfl, rfl,
      by simp⟩
    simp only [h.seq]
  · have hrun := hstart.succeeds (n := k + 1) (by omega) hk (fun j hj => hbefore j (by omega)) hseen
    rw [complete_frame (by simp [h.seq]), nextPhase_adc (by simp [h.seq])] at hrun
    refine ⟨_, true, _, by omega, by omega, ⟨hrun, rfl, rfl, rfl, rfl, rfl⟩, ⟨h.events, h.rst, h.valid, ?_⟩, rfl, rfl,
      by simp [validByte_valid]⟩
    simp only [h.seq]

/-- Phase 7: the commit step (R203). -/
theorem FrameAt.commit {s : State} (h : FrameAt .commit .idle .idle s) : BusyRun 1 s (commitFrame s) := by
  refine .single (by rw [h.seq]) (h.step_eq.trans ?_)
  simp only [execFrame, h.seq]

/-! ### The obligation -/

/-- The lines of both protocols are last written de-asserted. -/
theorem frameWrites_release (seen : Bool) :
    (∀ x ∈ [(Pin.adcCs, false), (.adcRd, false), (.capCharge, false), (.capDischarge, false)],
      ∀ b, lastWritten (cycleWrites ++ handshakeWrites seen) x.1 b = x.2) ∧
      ∀ x ∈ cycleWrites ++ handshakeWrites seen,
        ∃ y ∈ [(Pin.adcCs, false), (.adcRd, false), (.capCharge, false), (.capDischarge, false)], y.1 = x.1 := by
  cases seen <;> decide

/-- Settles O48: the phases in order, each by its own lemma, then the commit step. -/
theorem frameAlwaysCommits : Obligations.FrameAlwaysCommits := by
  unfold Obligations.FrameAlwaysCommits
  intro s hflight hphase hrefl hadc hcap hv hw
  obtain ⟨hevents, hrst, hbusy, hlatch⟩ := hflight
  have hseq : s.seq = { busy := true, cmdLatch := encode .frame, framePhase := .scan, adcState := .idle,
                        capState := .idle, reflIdx := 0 } := by
    rw [← hbusy, ← hlatch, ← hphase, ← hadc, ← hcap, ← hrefl]
  obtain ⟨s₁, hrun₁, h₁, henc₁, hst₁⟩ := FrameAt.scan ⟨hevents, hrst, hv, hseq⟩
  obtain ⟨s₂, hrun₂, h₂, hdrained, hst₂⟩ := h₁.drains
  obtain ⟨s₃, hrun₃, h₃, hcleared₃, henc₃, hres₃, hsw⟩ := h₂.switches
  obtain ⟨n, s₄, hn, hn', hrun₄, h₄, hcleared₄, henc₄, hres₄, hcapValid⟩ := h₃.cycle hcleared₃
  obtain ⟨m, seen, s₅, hm, hm', hrun₅, h₅, henc₅, hres₅, hsample⟩ := h₄.handshake hcleared₄
  have hall₃ := (hrun₁.trans hrun₂).trans hrun₃
  have hall₄ := hall₃.trans hrun₄
  have hall := hall₄.trans hrun₅
  rw [hall₃.cfg] at hn hn'
  rw [hall₄.cfg] at hm'
  have hrun := hall.run.trans h₅.commit
  have henc : s₅.res.enc = s₂.res.enc := by rw [hres₅, hres₄, hres₃]
  have hacc : s₅.enc = s₂.enc := by rw [henc₅, henc₄, henc₃]
  obtain ⟨hlast, hpins⟩ := frameWrites_release seen
  refine ⟨_, _, ?_, ?_, hrun.run, hrun.busyBefore, ?_, ?_, fun i => ?_, ?_, ?_, ?_, hsample, hall.duty, hall.mode,
    latchesDrive_of_driven hv hw hall.cfg hall.out hlast hpins⟩
  · omega
  · omega
  · show ({ s₅.seq with framePhase := .none, busy := false } : SeqRegs) = _
    rw [h₅.seq, hseq]
  · rw [← hall.bank]
    rfl
  · show s₅.res.enc[i] = _ ∧ s₅.enc.acc[i] = 0
    rw [henc, hacc, ← henc₁]
    exact hdrained i
  · show s₅.res.reflSt = true
    rw [hres₅, hres₄, hres₃]
    exact hst₂.trans hst₁
  · show s₅.res.sw.getLsbD 8 = true
    rw [hres₅, hres₄]
    exact hsw
  · show s₅.res.cap.getLsbD 18 = true
    rw [hres₅]
    exact hcapValid

end Sys2Proof.Machine

/-! PROOF. The five steps of an ADCS, one state visit each (41_adc_handshake.md R101 to R107): each step is the one
update that `adcAssertCs_eq` to `adcDeassertCs_eq` give it. -/

namespace Sys2Proof.Machine

open Sys2Proof

/-! ### A step of ADCS at each position -/

theorem exec_adcs_of_assertCs {s : State} (hs : s.seq.adcState = .assertCs) :
    exec .adcs s = .next (adcAssertCs s) := by simp only [exec, execAdcs, adcStep, hs]

theorem exec_adcs_of_awaitConversion {s : State} (hs : s.seq.adcState = .awaitConversion) :
    exec .adcs s = .next (adcAwait s) := by simp only [exec, execAdcs, adcStep, hs]

theorem exec_adcs_of_assertRd {s : State} (hs : s.seq.adcState = .assertRd) :
    exec .adcs s = .next (adcAssertRd s) := by simp only [exec, execAdcs, adcStep, hs]

theorem exec_adcs_of_deassertRd {s : State} (hs : s.seq.adcState = .deassertRd) :
    exec .adcs s = .next (adcDeassertRd s) := by simp only [exec, execAdcs, adcStep, hs]

theorem exec_adcs_of_deassertCs {s : State} (hs : s.seq.adcState = .deassertCs) :
    exec .adcs s = .next (adcDeassertCs s) := by simp only [exec, execAdcs, adcStep, hs]

/-- Latches made by one PinWrite: that pin shows the value written, and no other latch bit differs (R42, R45). -/
theorem latchesDrive_of_driven_one {s t : State} (hv : validConfig s.cfg = true) (hw : Memory.wf s.out) {n : Pin}
    {a : Bool} (hcfg : t.cfg = s.cfg) (hout : t.out = driven [(n, a)] s.cfg s.out) : LatchesDrive s t [(n, a)] :=
  latchesDrive_of_driven hv hw hcfg hout (by simp [lastWritten]) (by simp)

/-! ### The obligations -/

/-- Settles O22: the step is `adcAssertRd_eq`, in whose history the write of RD stands before the read of the data
bus. -/
theorem adcLatchesDataUnderRd : Obligations.AdcLatchesDataUnderRd := by
  unfold Obligations.AdcLatchesDataUnderRd
  intro s hs hv hw
  rw [exec_adcs_of_assertRd hs, adcAssertRd_eq hv]
  exact ⟨_, rfl, latchesDrive_of_driven_one hv hw rfl rfl, rfl⟩

/-- Settles O20: the step is `adcAssertCs_eq`, one PinWrite of CS. -/
theorem adcAssertsChipSelect : Obligations.AdcAssertsChipSelect := by
  unfold Obligations.AdcAssertsChipSelect
  intro s hs hv hw
  rw [exec_adcs_of_assertCs hs, adcAssertCs_eq hv]
  exact ⟨_, rfl, latchesDrive_of_driven_one hv hw rfl rfl, rfl⟩

/-- Settles O21: the step is `adcAwait_eq`, whose branches are those of the statement; ConversionTimeout has sticky bit
3. -/
theorem adcPollsInt : Obligations.AdcPollsInt := by
  unfold Obligations.AdcPollsInt
  intro s hs hv u
  have hpolled : polled 1 s = u := rfl
  have hsticky : stickyWith s.status.esticky .conversionTimeout = s.status.esticky ||| 8#9 := rfl
  rw [exec_adcs_of_awaitConversion hs, adcAwait_eq hv, hpolled, hsticky]

/-- Settles O23: the step is `adcDeassertRd_eq`, one PinWrite of RD. -/
theorem adcReleasesRead : Obligations.AdcReleasesRead := by
  unfold Obligations.AdcReleasesRead
  intro s hs hv hw
  rw [exec_adcs_of_deassertRd hs, adcDeassertRd_eq hv]
  exact ⟨_, rfl, latchesDrive_of_driven_one hv hw rfl rfl, rfl⟩

/-- Settles O24: the step is `adcDeassertCs_eq`, one PinWrite of CS and the result before completion; the word of ADCS
is no FRAME's (`inFrame_encode`), so completion clears BUSY alone. -/
theorem adcCommitsSample : Obligations.AdcCommitsSample := by
  unfold Obligations.AdcCommitsSample
  intro s hs hv hw
  rw [exec_adcs_of_deassertCs hs, adcDeassertCs_eq hv]
  exact ⟨_, rfl, latchesDrive_of_driven_one hv hw rfl rfl, rfl,
    fun hlatch => complete_of_not_inFrame (inFrame_encode hlatch)⟩

end Sys2Proof.Machine

/-! PROOF. The four steps of a CAPM, one state visit each (42_capacitive.md R121 to R127): each step is the one update
that `capDischargeStep_eq`, `capChargeStep_eq`, `capSampleStep_eq` and `capComputeStep_eq` give it. -/

namespace Sys2Proof.Machine

open Sys2Proof

/-! ### A step of CAPM at each position -/

theorem exec_capm_of_discharge {s : State} (hs : s.seq.capState = .discharge) :
    exec .capm s = .next (capDischargeStep s) := by simp only [exec, execCapm, capStep, hs]

theorem exec_capm_of_charge {s : State} (hs : s.seq.capState = .charge) :
    exec .capm s = .next (capChargeStep s) := by simp only [exec, execCapm, capStep, hs]

theorem exec_capm_of_sample {s : State} (hs : s.seq.capState = .sample) :
    exec .capm s = .next (capSampleStep s) := by simp only [exec, execCapm, capStep, hs]

theorem exec_capm_of_compute {s : State} (hs : s.seq.capState = .compute) :
    exec .capm s = .next (capComputeStep s) := by simp only [exec, execCapm, capStep, hs]

/-! ### DISCHARGE -/

/-- The PinWrite of a DISCHARGE step: on the first visit the line is asserted, later there is none (R121, R122). -/
def dischargeWrites (s : State) : List (Pin × Bool) := if s.cap.timer = 0 then [(.capDischarge, true)] else []

/-- Every DISCHARGE step as one update (R121, R122). -/
theorem capDischargeStep_eq {s : State} (hv : validConfig s.cfg = true) :
    capDischargeStep s = { s with
      cap.timer := (if s.cap.timer.toNat = s.cfg.capSettle then s.cap.timer else s.cap.timer + 1),
      seq.capState := (if s.cap.timer.toNat = s.cfg.capSettle then .charge else s.seq.capState),
      out := driven (dischargeWrites s) s.cfg s.out,
      io := s.io.after 0 (if s.cap.timer = 0 then [pinAccess s.cfg .capDischarge true] else []) } := by
  by_cases hzero : s.cap.timer = 0
  · rw [capDischargeStep, dischargeWrites, if_pos hzero, if_pos hzero, if_pos hzero, pinWrite_eq hv]
    split <;> rfl
  · rw [capDischargeStep_later hzero, dischargeWrites, if_neg hzero, if_neg hzero, after_zero_nil]
    split <;> rfl

/-! ### Readings and verdicts -/

/-- A reading of `ANALOG_WIDTH` bits fits its 16-bit register (R46). -/
theorem analogReading_toNat (c : Config) (v : BitVec 16) :
    (analogReading c v).toNat = v.toNat % 2 ^ c.analogWidth := by
  rw [analogReading, BitVec.toNat_ofNat]
  exact Nat.mod_eq_of_lt ((Nat.mod_le _ _).trans_lt v.isLt)

/-- An answer crosses when it is available and its reading is not below the threshold (R124). -/
theorem answerCrosses_iff (c : Config) (a : Answer) :
    answerCrosses c a = true ↔ a.ok = true ∧ c.capVthresh ≤ a.value.toNat % 2 ^ c.analogWidth := by
  rw [answerCrosses, crossed, Bool.and_eq_true, decide_eq_true_iff, analogReading_toNat]

theorem contactVerdict_iff (c : Config) (timedOut : Bool) (elapsed : BitVec 16) :
    contactVerdict c timedOut elapsed = true ↔ timedOut = false ∧ elapsed.toNat < c.capContactT := by
  rw [contactVerdict, Bool.and_eq_true, Bool.not_eq_true', decide_eq_true_iff]

/-- The fields of `R_CAP` (R26), its valid bit in `capResult_valid`. -/
theorem capResult_elapsed (timedOut contact : Bool) (elapsed : BitVec 16) :
    (capResult timedOut contact elapsed).extractLsb' 0 16 = elapsed :=
  BitVec.extractLsb'_append_eq_right

/-- Above the elapsed time stand the three flags. -/
theorem capResult_flag (timedOut contact : Bool) (elapsed : BitVec 16) (k : Nat) :
    (capResult timedOut contact elapsed).getLsbD (16 + k) =
      (1#1 ++ BitVec.ofBool timedOut ++ BitVec.ofBool contact).getLsbD k := by
  refine (BitVec.getLsbD_append (x := 1#1 ++ BitVec.ofBool timedOut ++ BitVec.ofBool contact)).trans ?_
  rw [if_neg (by omega), Nat.add_sub_cancel_left]

theorem capResult_contact (timedOut contact : Bool) (elapsed : BitVec 16) :
    (capResult timedOut contact elapsed).getLsbD 16 = contact := by
  rw [capResult_flag timedOut contact elapsed 0, BitVec.getLsbD_append]
  simp

theorem capResult_timedOut (timedOut contact : Bool) (elapsed : BitVec 16) :
    (capResult timedOut contact elapsed).getLsbD 17 = timedOut := by
  rw [capResult_flag timedOut contact elapsed 1, BitVec.getLsbD_append, BitVec.getLsbD_append]
  simp

/-! ### The obligations -/

/-- Settles O27: the step is `capDischargeStep_eq`; on a later visit the latches are as they were. -/
theorem capDischargeSettles : Obligations.CapDischargeSettles := by
  unfold Obligations.CapDischargeSettles
  intro s hs hv hw
  have hlast : ∀ x ∈ dischargeWrites s, ∀ b, lastWritten (dischargeWrites s) x.1 b = x.2 := by
    unfold dischargeWrites
    split <;> simp [lastWritten]
  rw [exec_capm_of_discharge hs, capDischargeStep_eq hv, hs]
  exact ⟨_, rfl, latchesDrive_of_driven hv hw rfl rfl hlast fun x hx => ⟨x, hx, rfl⟩, rfl⟩

/-- Settles O28: the step is `capChargeStep_eq`, two PinWrites to different pins. -/
theorem capChargeStarts : Obligations.CapChargeStarts := by
  unfold Obligations.CapChargeStarts
  intro s hs hv hw
  rw [exec_capm_of_charge hs, capChargeStep_eq hv]
  exact ⟨_, rfl, latchesDrive_of_driven hv hw rfl rfl (by decide) (by decide), rfl⟩

/-- Settles O29: the step is `capSampleStep_eq`; its first branch is a crossing (`answerCrosses_iff`). -/
theorem capSamplePolls : Obligations.CapSamplePolls := by
  unfold Obligations.CapSamplePolls
  intro s hs u
  rw [exec_capm_of_sample hs, capSampleStep_eq]
  exact congrArg _ (if_congr (answerCrosses_iff _ _) rfl rfl)

/-- Settles O30: the step is `capComputeStep_eq`, whose result has the fields of R26 and the verdict of R127; the word
of CAPM is no FRAME's (`inFrame_encode`), so completion clears BUSY alone. -/
theorem capComputeGivesVerdict : Obligations.CapComputeGivesVerdict := by
  unfold Obligations.CapComputeGivesVerdict
  intro s hs hv hw
  rw [exec_capm_of_compute hs, capComputeStep_eq hv]
  refine ⟨_, rfl, latchesDrive_of_driven_one hv hw rfl rfl, capResult_elapsed _ _ _, ?_, capResult_timedOut _ _ _,
    capResult_valid _ _ _, rfl, fun hlatch => complete_of_not_inFrame (inFrame_encode hlatch)⟩
  rw [capResult_contact]
  exact contactVerdict_iff _ _ _

end Sys2Proof.Machine

/-! PROOF. The single scan step of an RSCAN or inside a FRAME (43_reflectance.md R141, R142). -/

namespace Sys2Proof.Machine

open Sys2Proof

/-- The element as R141 writes it: avail 1 over the reading of `ANALOG_WIDTH` bits, or the sentinel 0x0FFFF. -/
theorem reflElement_literal (c : Config) (a : Answer) :
    reflElement c a = if a.ok then 1#1 ++ BitVec.ofNat 16 (a.value.toNat % 2 ^ c.analogWidth) else 0x0FFFF := rfl

/-- ChannelUnavailable is cause 4, so its sticky bit is bit 4 (R216, R220). -/
theorem stickyWith_channelUnavailable (e : BitVec 9) : stickyWith e .channelUnavailable = e ||| 16#9 := rfl

theorem exec_rscan (s : State) : exec .rscan s = .next (reflStep s) := rfl

/-- Settles O33: the step is `reflStep_eq` with its read as one update (`readChannel_eq`), channel 15 apart from the
others; the word of RSCAN is no FRAME's (`inFrame_encode`), so completion clears BUSY alone. -/
theorem scanReadsOneChannel : Obligations.ScanReadsOneChannel := by
  unfold Obligations.ScanReadsOneChannel
  intro s a k t
  refine ⟨?_, fun hlatch => complete_of_not_inFrame (s := t) (inFrame_encode hlatch)⟩
  rw [exec_rscan, reflStep_eq, readChannel_eq, reflElement_literal, stickyWith_channelUnavailable]
  by_cases hlast : s.seq.reflIdx = 15
  · simp only [t, k, a, if_pos hlast]
  · simp only [t, k, a, if_neg hlast]

end Sys2Proof.Machine

/-! SUPPORT and PROOF. The encoder lines (44_encoder.md R150 to R155): what one level change does to its agent, what a
drain does, and the ticks that a schedule of steps counts between two drains. -/

namespace Sys2Proof.Machine

open Sys2Proof

/-! ### One level change -/

/-- In READY a level change is one update of its line, which counts the edge if it is one that counts (R151). -/
theorem encLineChange_ready {s : State} (i : Fin 2) (l : Level) (hready : s.status.mode = .ready)
    (hrst : s.io.rst = false) :
    encLineChange i l s =
      let n := PinCfg.logical (pinOf s.cfg (.enc i)) l
      { s with
        io.encLine := s.io.encLine.set i l,
        enc.acc := (if n != s.enc.prev[i] && edgeCounts s.cfg n then s.enc.acc.set i (satInc s.enc.acc[i])
          else s.enc.acc),
        enc.prev := s.enc.prev.set i n } := by
  have hactive : State.captureActive { s with io.encLine := s.io.encLine.set i l } = true := by
    simp [State.captureActive, hready, hrst]
  unfold encLineChange
  dsimp only
  rw [hactive, Bool.true_and]
  by_cases hsame : PinCfg.logical (pinOf s.cfg (.enc i)) l = s.enc.prev[i]
  · have hkeep : s.enc.prev.set i s.enc.prev[i] = s.enc.prev := by simp
    simp only [hsame, bne_self_eq_false, Bool.false_and, hkeep]
    rfl
  · simp only [bne_iff_ne.mpr hsame, Bool.true_and, if_true]
    rfl

/-- Outside READY the agent is not active: a level change is one of the line alone (R150, R258). -/
theorem encLineChange_not_ready {s : State} (i : Fin 2) (l : Level) (h : s.status.mode ≠ .ready) :
    encLineChange i l s = { s with io.encLine := s.io.encLine.set i l } := by
  simp [encLineChange, State.captureActive, h]

/-- Which edges count (R153). -/
theorem edgeCounts_eq (c : Config) (n : Bool) :
    edgeCounts c n = (c.encEdge == .both || c.encEdge == (if n then .rising else .falling)) := by
  unfold edgeCounts
  cases c.encEdge with
  | both => rfl
  | rising | falling => cases n <;> rfl

/-- Below the top of the accumulator a tick adds one, at the top it stays there (R152). -/
theorem set_satInc (v : Vector (BitVec 16) 2) (i : Fin 2) :
    v.set i (satInc v[i]) = if v[i].toNat < 32767 then v.set i (v[i] + 1) else v.set i 32767 := by
  unfold satInc
  split <;> rfl

/-- The whole step of a level change (log 1, 5). -/
theorem step_encLine {s : State} {i : Fin 2} {l : Level} {rest : List Event}
    (hev : s.io.events = .encLine i l :: rest) : step s = .next (encLineChange i l s.popped) := step_of_cons hev

/-- Settles O35: the step is the agent's update (`encLineChange_ready`), with the edge's choice and the saturation
written out. -/
theorem edgeIsCaptured : Obligations.EdgeIsCaptured := by
  unfold Obligations.EdgeIsCaptured
  intro s i l rest hev hready hrst n counts
  have hacc : (if counts then s.enc.acc.set i (satInc s.enc.acc[i]) else s.enc.acc) =
      if counts && decide (s.enc.acc[i].toNat < 32767) then s.enc.acc.set i (s.enc.acc[i] + 1)
        else if counts then s.enc.acc.set i 32767 else s.enc.acc := by
    cases counts with
    | false => rfl
    | true => simpa only [if_true, Bool.true_and, decide_eq_true_eq] using set_satInc s.enc.acc i
  rw [step_encLine hev, encLineChange_ready (s := s.popped) i l hready hrst, ← hacc]
  simp only [counts, ← edgeCounts_eq]
  rfl

/-- Settles O36, by `encLineChange_not_ready`. -/
theorem edgeOutsideReadyIsLost : Obligations.EdgeOutsideReadyIsLost := by
  unfold Obligations.EdgeOutsideReadyIsLost
  intro s i l rest hev hmode
  rw [step_encLine hev, encLineChange_not_ready (s := s.popped) i l hmode]
  rfl

/-! ### The drain -/

theorem channelOf_ofNat (c : Fin 2) : channelOf (BitVec.ofNat 8 c.val) = c := by
  revert c
  decide

/-- Settles O38: the meaning is `drainEncoder` of the named line, and the word of EDRN is no FRAME's
(`inFrame_encode`). -/
theorem drainReadsAndClears : Obligations.DrainReadsAndClears := by
  unfold Obligations.DrainReadsAndClears
  intro s c i t
  have hexec : exec i s = .next (drainEncoder (channelOf (BitVec.ofNat 8 c.val)) s) := rfl
  refine ⟨?_, fun hlatch => complete_of_not_inFrame (s := t) (inFrame_encode hlatch)⟩
  rw [hexec, channelOf_ofNat]
  rfl

/-! ### What a stretch of steps counted -/

theorem countedEdges_append (c : Config) (p : Bool) (l m : List Bool) :
    countedEdges c p (l ++ m) = countedEdges c p l + countedEdges c (l.getLastD p) m := by
  induction l generalizing p with
  | nil => simp [countedEdges]
  | cons n l ih =>
    rw [List.cons_append, countedEdges, countedEdges, ih, List.getLastD_cons, Nat.add_assoc]

/-- From `s` to `t` line `i` went through the logical levels `l`, and its accumulator grew by the edges that count
(R151, R154). -/
structure Counted (c : Config) (i : Fin 2) (l : List Bool) (s t : State) : Prop where
  acc  : t.enc.acc[i].toNat = s.enc.acc[i].toNat + countedEdges c s.enc.prev[i] l
  prev : t.enc.prev[i] = l.getLastD s.enc.prev[i]

theorem Counted.trans {c : Config} {i : Fin 2} {l m : List Bool} {s t u : State} (h : Counted c i l s t)
    (k : Counted c i m t u) : Counted c i (l ++ m) s u where
  acc := by rw [k.acc, h.acc, h.prev, countedEdges_append, Nat.add_assoc]
  prev := by simp only [k.prev, h.prev, List.getLastD_eq_getLast?, List.getLast?_append, Option.getD_or]

theorem Counted.of_popped {c : Config} {i : Fin 2} {l : List Bool} {s t : State} (h : Counted c i l s.popped t) :
    Counted c i l s t := ⟨h.acc, h.prev⟩

/-- A step that leaves the line's registers alone counts nothing. -/
theorem Counted.of_kept {c : Config} {i : Fin 2} {s t : State}
    (h : t.enc.acc[i] = s.enc.acc[i] ∧ t.enc.prev[i] = s.enc.prev[i]) : Counted c i [] s t where
  acc := by rw [h.1]; rfl
  prev := h.2

/-- Below the top of the accumulator, a level change in READY counts its edge (R151, R152). -/
theorem encLineChange_counted {s : State} {i : Fin 2} {l : Level} (hready : s.status.mode = .ready)
    (hrst : s.io.rst = false)
    (hroom : s.enc.acc[i].toNat +
      countedEdges s.cfg s.enc.prev[i] [PinCfg.logical (pinOf s.cfg (.enc i)) l] ≤ 32767) :
    Counted s.cfg i [PinCfg.logical (pinOf s.cfg (.enc i)) l] s (encLineChange i l s) := by
  rw [encLineChange_ready i l hready hrst]
  generalize PinCfg.logical (pinOf s.cfg (.enc i)) l = n at hroom ⊢
  refine ⟨?_, by simp⟩
  by_cases hcounts : (n != s.enc.prev[i] && edgeCounts s.cfg n) = true
  · simp only [countedEdges, hcounts, if_true] at hroom ⊢
    have hlt : s.enc.acc[i].toNat < 32767 := by omega
    simp only [Fin.getElem_fin, Vector.getElem_set_self]
    rw [← Fin.getElem_fin, satInc, if_pos hlt]
    exact toNat_add_one_of_lt hlt (by decide)
  · simp only [countedEdges, if_neg hcounts, Nat.add_zero]

/-- A level change touches its own line's registers only (R150). -/
theorem encLineChange_other {i j : Fin 2} (h : j ≠ i) (l : Level) (s : State) :
    (encLineChange i l s).enc.acc[j] = s.enc.acc[j] ∧ (encLineChange i l s).enc.prev[j] = s.enc.prev[j] := by
  have hne : i.val ≠ j.val := fun hv => h (Fin.ext hv.symm)
  unfold encLineChange captureEdge
  dsimp only
  split
  · refine ⟨?_, Vector.getElem_set_ne i.isLt j.isLt hne⟩
    split
    · exact Vector.getElem_set_ne i.isLt j.isLt hne
    · rfl
  · exact ⟨rfl, rfl⟩

theorem encLineChange_events (i : Fin 2) (l : Level) (s : State) :
    (encLineChange i l s).io.events = s.io.events := by
  unfold encLineChange
  dsimp only
  split <;> rfl

/-! ### A command between two drains -/

/-- A drain touches its own line's registers only (R155). -/
theorem drainEncoder_other {i j : Fin 2} (h : j ≠ i) (s : State) :
    (drainEncoder i s).enc.acc[j] = s.enc.acc[j] ∧ (drainEncoder i s).enc.prev[j] = s.enc.prev[j] := by
  have hne : i.val ≠ j.val := fun hv => h (Fin.ext hv.symm)
  simp [drainEncoder, Vector.getElem_set_ne _ _ hne]

/-- Only INIT and a drain of it write the registers of a line (R85, R155, R196). -/
theorem exec_keepsLine {i : Instr} {s t : State} {j : Fin 2} (hinit : i ≠ .init)
    (hedrn : ∀ ch, i = .edrn ch → channelOf ch ≠ j)
    (hframe : i = .frame → s.seq.framePhase ≠ if j = 0 then .drain0 else .drain1) (h : exec i s = .next t) :
    t.enc.acc[j] = s.enc.acc[j] ∧ t.enc.prev[j] = s.enc.prev[j] := by
  by_cases hkept : t.enc = s.enc
  · rw [hkept]
    exact ⟨rfl, rfl⟩
  · obtain rfl | ⟨ch, rfl⟩ | ⟨rfl, hphase | hphase⟩ := (exec_writes h).enc hkept
    · exact absurd rfl hinit
    · obtain rfl := Host.Outcome.next.inj h
      exact drainEncoder_other (hedrn ch rfl).symm s
    · have hstep : execFrame s = .next (drainEncoder 0 s) := by simp [execFrame, hphase]
      obtain rfl := Host.Outcome.next.inj (hstep.symm.trans h)
      exact drainEncoder_other (fun hj => hframe rfl (by rw [hphase, if_pos hj])) s
    · have hstep : execFrame s = .next (drainEncoder 1 s) := by simp [execFrame, hphase]
      obtain rfl := Host.Outcome.next.inj (hstep.symm.trans h)
      exact drainEncoder_other (fun hj => hframe rfl (by rw [hphase, hj]; rfl)) s

/-! ### The schedule through a command -/

theorem UnitStep.events {left : State → Nat} {s t : State} (h : UnitStep left s t) : t.io.events = s.io.events := by
  cases h with
  | moves same less => exact same.events
  | ends u complete same pos => rw [complete, complete_io, same.events]

theorem raise_events (c : Cause) (s : State) : (raise c s).io.events = s.io.events := by
  cases c with
  | invalidPortHandle =>
    obtain ⟨o, tr, heq, -⟩ := deassertOutputs_shape (record .invalidPortHandle s)
    rw [raise_invalidPortHandle, heq]
    rfl
  | configurationError | conversionTimeout | channelUnavailable | contractViolation | wrongMode | illegalCommand
  | aborted => rfl

theorem initValid_events (s : State) : (initValid s).io.events = s.io.events := by
  obtain ⟨o, tr, heq, -⟩ := deassertOutputs_shape s
  simp [initValid, sampleEncoder, heq]

/-- A FRAME leaves the schedule alone in every phase (R196). -/
theorem execFrame_events {s t : State} (hr : Running .frame s) (h : execFrame s = .next t) :
    t.io.events = s.io.events := by
  have hv := (hr.sound.ready (hr.ready (by simp) (by simp))).1
  unfold execFrame at h
  split at h
  case h_1 => cases h
  case h_2 => cases h; exact (reflStep_progress s).events
  case h_3 | h_4 => cases h; exact (drainEncoder_progress _ s).events
  case h_5 => cases h; exact (swStep_progress s).events
  case h_6 => exact (capStep_progress hv hr.sound.cap h).events
  case h_7 => exact (adcStep_progress hv hr.sound.adc h).events
  case h_8 => cases h; rfl

/-- No command touches the schedule of pending steps (log 1). -/
theorem exec_events {i : Instr} {s t : State} (hr : Running i s) (h : exec i s = .next t) :
    t.io.events = s.io.events := by
  have hv : i ≠ .nop → i ≠ .init → validConfig s.cfg = true := fun h1 h2 => (hr.sound.ready (hr.ready h1 h2)).1
  cases i with
  | nop =>
    obtain rfl := Host.Outcome.next.inj h
    rw [complete_io]
  | init =>
    obtain rfl := Host.Outcome.next.inj h
    split
    · exact initValid_events s
    · exact raise_events _ s
  | prd p =>
    obtain rfl := Host.Outcome.next.inj h
    split
    · simp [readPortResult]
    · exact raise_events _ s
  | pwr p m v =>
    obtain rfl := Host.Outcome.next.inj h
    split
    · simp [apply_ite]
    · exact raise_events _ s
  | adcs => exact (adcStep_progress (hv (by simp) (by simp)) hr.sound.adc h).events
  | capm => exact (capStep_progress (hv (by simp) (by simp)) hr.sound.cap h).events
  | rscan =>
    obtain rfl := Host.Outcome.next.inj h
    exact (reflStep_progress s).events
  | edrn ch =>
    obtain rfl := Host.Outcome.next.inj h
    exact (drainEncoder_progress _ s).events
  | swp =>
    obtain rfl := Host.Outcome.next.inj h
    exact (swStep_progress s).events
  | mset ch v =>
    obtain rfl := Host.Outcome.next.inj h
    split
    · simp [stopMotor]
    · simp [driveMotor]
  | rset ch st =>
    obtain rfl := Host.Outcome.next.inj h
    simp
  | frame => exact execFrame_events hr h
  | abort =>
    obtain rfl := Host.Outcome.next.inj h
    simp [releaseLines]

/-! ### A step between two drains -/

/-- A state of the invariant has a next state: an idle tick stays, a running one is `Running.exec_next`, and the other
steps answer one by definition (R210, log 6, 7). -/
theorem Invariant.exists_next {s : State} (h : Invariant s) : ∃ t, step s = .next t := by
  by_cases hnext : TickNext s
  · rw [step_of_tickNext hnext]
    cases hruns : s.popped.sequencerRuns with
    | false => exact ⟨_, tick_idle hruns⟩
    | true =>
      have hbusy : s.seq.busy = true := by
        simp only [State.sequencerRuns, Bool.and_eq_true] at hruns
        exact hruns.1
      have hseq := h.sequencer
      unfold SequencerOk at hseq
      rw [if_pos hbusy] at hseq
      cases hdec : decode s.seq.cmdLatch with
      | illegal e => rw [hdec] at hseq; exact hseq.elim
      | legal i =>
        rw [tick_runs hruns hdec]
        have hrun : RunsNext s i := ⟨hnext, hruns, hdec⟩
        exact (hrun.running h).exec_next
  · cases hev : s.io.events with
    | nil => exact absurd (.inl hev) hnext
    | cons e rest =>
      rw [step_of_cons hev]
      cases e with
      | tick => exact absurd (.inr (by simp [hev])) hnext
      | hostWrite n v | hostRead n | rst a | encLine i l => exact ⟨_, rfl⟩

/-- With the tick next, the pending event is no change of a line. -/
theorem TickNext.lineLevel {s : State} {e : Event} {es : List Event} (h : TickNext s) (hev : s.io.events = e :: es)
    (c : Config) (i : Fin 2) : lineLevel c i e = none := by
  obtain hnil | hhead := h
  · simp [hnil] at hev
  · rw [hev, List.head?_cons, Option.some.injEq] at hhead
    rw [hhead]
    rfl

/-- A step from READY to READY that does not drain line `i` takes its event from the schedule and counts what the event
puts on the line (R151, R154): of the steps listed by `step_cases`, only a change of the line itself writes its
registers. -/
theorem step_counted {s t : State} {i : Fin 2} {e : Event} {es : List Event} (hinv : Invariant s)
    (hev : s.io.events = e :: es) (hready : s.status.mode = .ready) (hdrain : ¬ DrainsNext s i)
    (hroom : s.enc.acc[i].toNat + countedEdges s.cfg s.enc.prev[i] (lineLevel s.cfg i e).toList ≤ 32767)
    (h : step s = .next t) (hready' : t.status.mode = .ready) :
    t.io.events = es ∧ Counted s.cfg i (lineLevel s.cfg i e).toList s t := by
  have hpop : s.popped.io.events = es := by simp [hev]
  obtain ⟨-, -, hrst, -⟩ := hinv.sound.ready hready
  obtain ⟨hnext, -, rfl⟩ | ⟨j, hrun, hexec⟩ | ⟨n, v, rest, hev', rfl⟩ | ⟨n, rest, hev', rfl⟩ |
    ⟨a, rest, hev', rfl⟩ | ⟨j, l, rest, hev', rfl⟩ := step_cases h
  · rw [hnext.lineLevel hev]
    exact ⟨hpop, .of_kept ⟨rfl, rfl⟩⟩
  · have hrunning := hrun.running hinv
    have hinit : j ≠ .init := by
      rintro rfl
      exact absurd (hready.symm.trans hrunning.unconfigured) (by simp)
    have hedrn (ch : Byte) (hj : j = .edrn ch) : channelOf ch ≠ i := fun hch => hdrain (.inl ⟨ch, hch, hj ▸ hrun⟩)
    have hframe (hj : j = .frame) : s.seq.framePhase ≠ if i = 0 then .drain0 else .drain1 :=
      fun hphase => hdrain (.inr ⟨hj ▸ hrun, hphase⟩)
    rw [hrun.1.lineLevel hev]
    have hkept := exec_keepsLine (s := s.popped) hinit hedrn hframe hexec
    exact ⟨(exec_events hrunning hexec).trans hpop, (Counted.of_kept hkept).of_popped⟩
  · obtain ⟨rfl, rfl⟩ := List.cons.inj (hev.symm.trans hev')
    have henc := (hostWrite_registersKept n v s.popped).enc
    exact ⟨by rw [hostWrite_io]; exact hpop, .of_kept (by rw [henc]; exact ⟨rfl, rfl⟩)⟩
  · obtain ⟨rfl, rfl⟩ := List.cons.inj (hev.symm.trans hev')
    exact ⟨hpop, .of_kept ⟨rfl, rfl⟩⟩
  · obtain ⟨rfl, rfl⟩ := List.cons.inj (hev.symm.trans hev')
    cases a with
    | true => cases hready'
    | false => exact ⟨hpop, .of_kept ⟨rfl, rfl⟩⟩
  · obtain ⟨rfl, rfl⟩ := List.cons.inj (hev.symm.trans hev')
    refine ⟨(encLineChange_events j l s.popped).trans hpop, ?_⟩
    by_cases hij : j = i
    · subst hij
      rw [lineLevel_encLine_self] at hroom ⊢
      exact (encLineChange_counted (s := s.popped) hready hrst hroom).of_popped
    · rw [lineLevel_encLine_other s.cfg hij]
      exact (Counted.of_kept (encLineChange_other (Ne.symm hij) l s.popped)).of_popped

/-! ### Runs between two drains -/

/-- Over a schedule in which MODE stays READY and the line is not drained. -/
theorem run_counted {i : Fin 2} {es rest : List Event} {s : State} (hinv : Invariant s)
    (hev : s.io.events = es ++ rest)
    (hready : ∀ k u, k ≤ es.length → core.run k s = .next u → u.status.mode = .ready)
    (hdrain : ∀ k u, k < es.length → core.run k s = .next u → ¬ DrainsNext u i)
    (hroom : s.enc.acc[i].toNat + countedEdges s.cfg s.enc.prev[i] (lineLevels s.cfg i es) ≤ 32767) :
    ∃ t, core.run es.length s = .next t ∧ t.io.events = rest ∧ Counted s.cfg i (lineLevels s.cfg i es) s t := by
  induction es generalizing s with
  | nil => exact ⟨s, rfl, hev, .of_kept ⟨rfl, rfl⟩⟩
  | cons e es ih =>
    obtain ⟨u, hu⟩ := hinv.exists_next
    have hrun (k : Nat) : core.run (k + 1) s = core.run k u := run_succ hu k
    rw [lineLevels_cons, countedEdges_append] at hroom
    obtain ⟨hevents, hfirst⟩ := step_counted hinv hev (hready 0 s (Nat.zero_le _) rfl)
      (hdrain 0 s (Nat.succ_pos _) rfl) (by omega) hu (hready 1 u (by simp) (hrun 0))
    have hcfg : u.cfg = s.cfg := (registersHaveNamedWriters s u hu).1
    obtain ⟨t, ht, hrest, hcounted⟩ := ih (stepKeepsInvariant s u hinv hu) hevents
      (fun k v hk hv => hready (k + 1) v (by simpa using hk) ((hrun k).trans hv))
      (fun k v hk hv => hdrain (k + 1) v (by simpa using hk) ((hrun k).trans hv))
      (by rw [hcfg, hfirst.acc, hfirst.prev]; omega)
    rw [hcfg] at hcounted
    exact ⟨t, (hrun _).trans ht, hrest, by rw [lineLevels_cons]; exact hfirst.trans hcounted⟩

/-- Over a schedule of the line's changes alone, where nothing but the line and its agent changes. -/
theorem run_lineAlone {i : Fin 2} {levels : List Level} {s : State} (hready : s.status.mode = .ready)
    (hrst : s.io.rst = false) (hev : s.io.events = levels.map (.encLine i))
    (hroom : s.enc.acc[i].toNat + countedEdges s.cfg s.enc.prev[i]
      (levels.map (PinCfg.logical (pinOf s.cfg (.enc i)))) ≤ 32767) :
    ∃ t, core.run levels.length s = .next t ∧
      Counted s.cfg i (levels.map (PinCfg.logical (pinOf s.cfg (.enc i)))) s t ∧
      (∀ j, j ≠ i → t.enc.acc[j] = s.enc.acc[j] ∧ t.enc.prev[j] = s.enc.prev[j]) ∧
      t = { s with enc := t.enc, io := { s.io with events := [], encLine := t.io.encLine } } := by
  induction levels generalizing s with
  | nil =>
    refine ⟨s, rfl, .of_kept ⟨rfl, rfl⟩, fun _ _ => ⟨rfl, rfl⟩, ?_⟩
    rw [← show s.io.events = [] from hev]
  | cons l levels ih =>
    rw [List.map_cons, ← List.singleton_append, countedEdges_append] at hroom
    have hfirst : Counted s.cfg i [PinCfg.logical (pinOf s.cfg (.enc i)) l] s (encLineChange i l s.popped) :=
      (encLineChange_counted (s := s.popped) hready hrst
        ((Nat.add_le_add_left (Nat.le_add_right ..) _).trans hroom)).of_popped
    have hother (j : Fin 2) (hj : j ≠ i) := encLineChange_other hj l s.popped
    have hupdate := encLineChange_ready i l (s := s.popped) hready hrst
    have hstep := step_encLine hev
    generalize encLineChange i l s.popped = u at hfirst hother hupdate hstep
    have hcfg : u.cfg = s.cfg := by rw [hupdate]; rfl
    obtain ⟨t, ht, hcounted, hkept, heq⟩ := ih (s := u) (by rw [hupdate]; exact hready) (by rw [hupdate]; exact hrst)
      (by rw [hupdate]; simp [hev]) (by rw [hcfg, hfirst.acc, hfirst.prev]; omega)
    rw [hcfg] at hcounted
    refine ⟨t, (run_succ hstep _).trans ht, hfirst.trans hcounted, fun j hj => ?_, ?_⟩
    · obtain ⟨hacc, hprev⟩ := hkept j hj
      exact ⟨hacc.trans (hother j hj).1, hprev.trans (hother j hj).2⟩
    · rw [hupdate] at heq
      exact heq

/-- Settles O37: each part is its induction over the schedule, one step at a time (`step_counted`,
`encLineChange_counted`). -/
theorem ticksCountEdges : Obligations.TicksCountEdges := by
  unfold Obligations.TicksCountEdges
  refine ⟨fun s i es rest hinv hev hready hdrain hroom => ?_, fun s i levels hready hrst hev hroom => ?_⟩
  · obtain ⟨t, ht, hrest, hcounted⟩ := run_counted hinv hev hready hdrain hroom
    exact ⟨t, ht, hrest, hcounted.acc, hcounted.prev⟩
  · obtain ⟨t, ht, hcounted, hother, heq⟩ := run_lineAlone hready hrst hev hroom
    exact ⟨t, ht, hcounted.acc, hother, heq⟩

end Sys2Proof.Machine

/-! PROOF. The one step of an MSET or an RSET (45_actuators.md R165 to R170): PinWrites in order as one update, and the
clamp law of the duty. -/

namespace Sys2Proof.Machine

open Sys2Proof

/-! ### The duty -/

/-- 17 bits hold the magnitude of every 16-bit speed, -32768 included (R168). -/
theorem abs17_toNat (v : BitVec 16) : (abs17 v).toNat = v.toInt.natAbs := by
  have hlo := BitVec.le_toInt v
  have hhi := BitVec.toInt_lt (x := v)
  rw [abs17, BitVec.toNat_ofNat, Nat.mod_eq_of_lt (by omega)]

theorem clampDuty_toNat (v : BitVec 16) : (clampDuty v).toNat = min v.toInt.natAbs 255 := by
  rw [clampDuty, abs17_toNat, BitVec.toNat_ofNat, Nat.mod_eq_of_lt (by omega)]

/-- Settles O43: the law by `abs17_toNat` and `clampDuty_toNat`, its four values by evaluation. -/
theorem dutyClampsMagnitude : Obligations.DutyClampsMagnitude :=
  ⟨fun v => ⟨abs17_toNat v, clampDuty_toNat v⟩, by decide, by decide, by decide, by decide⟩

/-! ### The commands as one update -/

/-- The state field of an RSET word is the commanded state (R67). -/
theorem relayStateOf_ofBool (on : Bool) : relayStateOf (if on then 1 else 0) = on := by
  cases on <;> rfl

theorem exec_mset_zero (c : Fin 2) (s : State) :
    exec (.mset (BitVec.ofNat 8 c.val) 0) s = .next (stopMotor c s) := by
  show execMset _ _ s = _
  rw [execMset, if_pos rfl, channelOf_ofNat]

theorem exec_mset_of_ne_zero (c : Fin 2) {v : BitVec 16} (hv : v ≠ 0) (s : State) :
    exec (.mset (BitVec.ofNat 8 c.val) v) s = .next (driveMotor c v s) := by
  show execMset _ _ s = _
  rw [execMset, if_neg hv, channelOf_ofNat]

theorem exec_rset (c : Fin 2) (on : Bool) (s : State) :
    exec (.rset (BitVec.ofNat 8 c.val) (if on then 1 else 0)) s = .next (complete (pinWrite (.relay c) on s)) := by
  show execRset _ _ s = _
  rw [execRset, relayStateOf_ofBool, channelOf_ofNat]

/-- MSET with a speed as the completion of one update: direction, enable, then the gate (R166). -/
theorem driveMotor_eq {s : State} (hv : validConfig s.cfg = true) (c : Fin 2) (v : BitVec 16) :
    driveMotor c v s = complete { s with
      duty := s.duty.set c (clampDuty v),
      out := driven [(.motorDir c, decide (v.toInt < 0)), (.motorEn c, true), (.motorPwm c, true)] s.cfg s.out,
      io := s.io.after 0 [pinAccess s.cfg (.motorDir c) (decide (v.toInt < 0)), pinAccess s.cfg (.motorEn c) true,
        pinAccess s.cfg (.motorPwm c) true] } := by
  have hsign : v.slt 0 = decide (v.toInt < 0) := rfl
  rw [driveMotor, hsign, pinWrite_eq hv (.motorDir c), pinWrite_eq (by exact hv) (.motorEn c)]
  dsimp only
  rw [pinWrite_eq (by exact hv)]
  dsimp only
  rw [after_after, after_after, driven_driven, driven_driven]
  rfl

/-- MSET 0 as the completion of one update: the gate, then the enable line by the idle policy (R167). -/
theorem stopMotor_eq {s : State} (hv : validConfig s.cfg = true) (c : Fin 2) :
    stopMotor c s = complete { s with
      duty := s.duty.set c 0,
      out := driven [(.motorPwm c, false), (.motorEn c, s.cfg.motorIdleEn == 1)] s.cfg s.out,
      io := s.io.after 0 [pinAccess s.cfg (.motorPwm c) false,
        pinAccess s.cfg (.motorEn c) (s.cfg.motorIdleEn == 1)] } := by
  rw [stopMotor, pinWrite_eq hv]
  dsimp only
  rw [pinWrite_eq (by exact hv)]
  dsimp only
  rw [after_after, driven_driven]
  rfl

/-! ### The obligations -/

/-- Settles O41: the step is `driveMotor_eq`, three PinWrites to different pins, with the duty of `clampDuty_toNat`;
the word of MSET is no FRAME's (`inFrame_encode`), so completion clears BUSY alone. -/
theorem motorDrives : Obligations.MotorDrives := by
  unfold Obligations.MotorDrives
  intro s c v hne hlatch hv hw
  rw [exec_mset_of_ne_zero c hne, driveMotor_eq hv, complete_of_not_inFrame (by exact inFrame_encode hlatch)]
  refine ⟨_, rfl, latchesDrive_of_driven hv hw rfl rfl (by simp [lastWritten]) (by simp), ?_, fun d hd => ?_, rfl⟩
  · simp [clampDuty_toNat]
  · exact Vector.getElem_set_ne c.isLt d.isLt fun hval => hd (Fin.ext hval.symm)

/-- Settles O42: the step is `stopMotor_eq`, which writes the gate and the enable line only; completion clears BUSY
alone, as for O41. -/
theorem motorStops : Obligations.MotorStops := by
  unfold Obligations.MotorStops
  intro s c hlatch hv hw
  rw [exec_mset_zero, stopMotor_eq hv, complete_of_not_inFrame (by exact inFrame_encode hlatch)]
  exact ⟨_, rfl, latchesDrive_of_driven hv hw rfl rfl (by simp [lastWritten]) (by simp), rfl⟩

/-- Settles O44: the step is one PinWrite of the relay's line (`pinWrite_eq`); the word of RSET is no FRAME's, so
completion clears BUSY alone. -/
theorem relayFollowsCommand : Obligations.RelayFollowsCommand := by
  unfold Obligations.RelayFollowsCommand
  intro s c on i hlatch hv hw
  rw [exec_rset, pinWrite_eq hv, complete_of_not_inFrame (by exact inFrame_encode hlatch)]
  exact ⟨_, rfl, latchesDrive_of_driven_one hv hw rfl rfl, rfl⟩

end Sys2Proof.Machine

/-! SUPPORT and PROOF. The switch debouncer (46_switches.md R186 to R190): what one poll makes of one switch, the four
switches of the SWP step as one update, and runs of polls that disagree with the reported level. -/

namespace Sys2Proof.Machine

open Sys2Proof

/-! ### One switch in one poll -/

/-- The level that a switch reports after a poll that answers `ok` and `raw`, `N = SW_DEBOUNCE` (R186). -/
def nextLevel (N : Nat) (ok raw level : Bool) (count : Byte) : Bool :=
  if (ok && raw != level) && decide (N ≤ count.toNat + 1) then raw else level

/-- The polls of disagreement that are counted after it (R186). -/
def nextCount (N : Nat) (ok raw level : Bool) (count : Byte) : Byte :=
  if (ok && raw != level) && decide (count.toNat + 1 < N) then count + 1 else 0

@[simp] theorem nextLevel_unreadable (N : Nat) (raw level : Bool) (count : Byte) :
    nextLevel N false raw level count = level := rfl

@[simp] theorem nextCount_unreadable (N : Nat) (raw level : Bool) (count : Byte) :
    nextCount N false raw level count = 0 := rfl

@[simp] theorem nextLevel_agree (N : Nat) (ok level : Bool) (count : Byte) :
    nextLevel N ok level level count = level := by simp [nextLevel]

@[simp] theorem nextCount_agree (N : Nat) (ok level : Bool) (count : Byte) :
    nextCount N ok level level count = 0 := by simp [nextCount]

/-- The poll that completes a run of N is the one reported change; the count starts again (R186). -/
theorem next_of_full {N : Nat} {raw level : Bool} {count : Byte} (hdiffer : raw ≠ level)
    (hfull : N ≤ count.toNat + 1) :
    nextLevel N true raw level count = raw ∧ nextCount N true raw level count = 0 := by
  simp [nextLevel, nextCount, hdiffer, hfull]

/-- A poll of disagreement before that is counted and not reported (R186). -/
theorem next_of_short {N : Nat} {raw level : Bool} {count : Byte} (hdiffer : raw ≠ level)
    (hshort : count.toNat + 1 < N) :
    nextLevel N true raw level count = level ∧ nextCount N true raw level count = count + 1 := by
  simp [nextLevel, nextCount, hdiffer, hshort]

/-- The debouncer as one update of its switch. -/
theorem debounce_eq (i : Fin 4) (raw : Bool) (s : State) :
    debounce i raw s = { s with sw := {
      stable := s.sw.stable.set i (nextLevel s.cfg.swDebounce true raw s.sw.stable[i] s.sw.cnt[i]),
      cnt := s.sw.cnt.set i (nextCount s.cfg.swDebounce true raw s.sw.stable[i] s.sw.cnt[i]) } } := by
  unfold debounce
  split
  case isTrue hagree => simp [hagree]
  case isFalse hdiffer =>
    split
    case isTrue hfull =>
      obtain ⟨hlevel, hcount⟩ := next_of_full hdiffer hfull
      rw [hlevel, hcount]
    case isFalse hshort =>
      obtain ⟨hlevel, hcount⟩ := next_of_short hdiffer (not_le.mp hshort)
      rw [hlevel, hcount]
      simp

/-- One switch polled as one update: the read, the debouncer, and the cause when it is unreadable (R186, R187, R220). -/
theorem pollSwitch_eq {s : State} (hv : validConfig s.cfg = true) (av : Vector Bool 4) (i : Fin 4) :
    let a := s.answerAt 0
    let raw := seesAsserted s.cfg (.sw i) a
    pollSwitch (s, av) i = ({ s with
      sw := {
        stable := s.sw.stable.set i (nextLevel s.cfg.swDebounce a.ok raw s.sw.stable[i] s.sw.cnt[i]),
        cnt := s.sw.cnt.set i (nextCount s.cfg.swDebounce a.ok raw s.sw.stable[i] s.sw.cnt[i]) },
      status.cause := (if a.ok then s.status.cause else some .channelUnavailable),
      status.esticky := (if a.ok then s.status.esticky else stickyWith s.status.esticky .channelUnavailable),
      io := s.io.after 1 [readAccess s a (pinOf s.cfg (.sw i)).port] }, av.set i (a.ok || av[i])) := by
  intro a raw
  have hinput : Pin.sw i ∉ outputPins := by revert i; decide
  have hread : swRead i s = ((a.ok, raw),
      { s with io := s.io.after 1 [readAccess s a (pinOf s.cfg (.sw i)).port] }) := by
    rw [swRead, pinRead_input hv _ hinput (by simp), answer_eq]
  rw [pollSwitch, hread]
  cases hok : a.ok with
  | true => simp only [debounce_eq, if_true, Bool.true_or]
  | false => simp [record]

/-! ### The four switches in order -/

/-- The debouncers when the first `m` switches are polled. -/
def debounced (m : Nat) (s : State) : SwRegs where
  stable := Vector.ofFn fun k =>
    if k.val < m then
      nextLevel s.cfg.swDebounce (s.answerAt k.val).ok (seesAsserted s.cfg (.sw k) (s.answerAt k.val))
        s.sw.stable[k] s.sw.cnt[k]
    else s.sw.stable[k]
  cnt := Vector.ofFn fun k =>
    if k.val < m then
      nextCount s.cfg.swDebounce (s.answerAt k.val).ok (seesAsserted s.cfg (.sw k) (s.answerAt k.val))
        s.sw.stable[k] s.sw.cnt[k]
    else s.sw.cnt[k]

/-- Which of the first `m` switches were readable. -/
def readable (m : Nat) (s : State) : Vector Bool 4 :=
  Vector.ofFn fun k => if k.val < m then (s.answerAt k.val).ok else false

/-- The reads of the first `m` switches. -/
def switchReads (m : Nat) (s : State) : List Access :=
  ((List.finRange 4).take m).map fun k => readAccess s (s.answerAt k.val) (pinOf s.cfg (.sw k)).port

/-- The poll that began in `s` when the first `m` switches are polled; each unreadable one is recorded as an unavailable
channel of a scan is. -/
def switchesPolled (m : Nat) (s : State) : State × Vector Bool 4 :=
  ({ s with sw := debounced m s, status := scanStatus s m, io := s.io.after m (switchReads m s) }, readable m s)

theorem switchesPolled_zero (s : State) : switchesPolled 0 s = (s, Vector.replicate 4 false) := by
  have hsw : debounced 0 s = s.sw := by simp [debounced]
  have hreadable : readable 0 s = Vector.replicate 4 false := by
    ext k hk
    simp [readable]
  rw [switchesPolled, hsw, hreadable]
  simp [switchReads, scanStatus]

/-- An update of element `m` of a vector that is filled up to `m` fills it up to `m + 1`. -/
theorem set_ofFn_below {α : Type} {n : Nat} (i : Fin n) (new old : Fin n → α) :
    (Vector.ofFn fun k => if k.val < i.val then new k else old k).set i (new i) =
      Vector.ofFn fun k => if k.val < i.val + 1 then new k else old k := by
  ext j hj
  simp only [Vector.getElem_set, Vector.getElem_ofFn]
  by_cases hji : i.val = j
  · simp [← hji]
  · have hiff : j < i.val + 1 ↔ j < i.val := by omega
    simp [hji, hiff]

theorem debounced_succ (i : Fin 4) (s : State) :
    let raw := seesAsserted s.cfg (.sw i) (s.answerAt i.val)
    { stable := (debounced i.val s).stable.set i (nextLevel s.cfg.swDebounce (s.answerAt i.val).ok raw
        (debounced i.val s).stable[i] (debounced i.val s).cnt[i]),
      cnt := (debounced i.val s).cnt.set i (nextCount s.cfg.swDebounce (s.answerAt i.val).ok raw
        (debounced i.val s).stable[i] (debounced i.val s).cnt[i]) } = debounced (i.val + 1) s := by
  intro raw
  have hlevel : (debounced i.val s).stable[i] = s.sw.stable[i] := by simp [debounced]
  have hcount : (debounced i.val s).cnt[i] = s.sw.cnt[i] := by simp [debounced]
  rw [hlevel, hcount]
  exact congrArg₂ SwRegs.mk (set_ofFn_below i _ _) (set_ofFn_below i _ _)

theorem readable_succ (i : Fin 4) (s : State) :
    (readable i.val s).set i ((s.answerAt i.val).ok || (readable i.val s)[i]) = readable (i.val + 1) s := by
  have hunset : (readable i.val s)[i] = false := by simp [readable]
  rw [hunset, Bool.or_false]
  exact set_ofFn_below i _ _

theorem switchReads_succ (i : Fin 4) (s : State) :
    switchReads (i.val + 1) s =
      switchReads i.val s ++ [readAccess s (s.answerAt i.val) (pinOf s.cfg (.sw i)).port] := by
  rw [switchReads, List.take_add_one, List.map_append]
  simp [switchReads]

/-- The read of the next switch. -/
theorem pollSwitch_switchesPolled {s : State} (hv : validConfig s.cfg = true) (i : Fin 4) :
    pollSwitch (switchesPolled i.val s) i = switchesPolled (i.val + 1) s := by
  have hanswer : (switchesPolled i.val s).1.answerAt 0 = s.answerAt i.val := answerAt_after rfl 0
  have hread (a : Answer) (p : Nat) : readAccess (switchesPolled i.val s).1 a p = readAccess s a p :=
    readAccess_congr rfl rfl rfl a p
  refine (pollSwitch_eq (s := (switchesPolled i.val s).1) (by exact hv) (readable i.val s) i).trans ?_
  rw [hanswer, hread]
  dsimp only [switchesPolled]
  rw [debounced_succ, readable_succ, after_after, switchReads_succ, scanStatus_succ]

/-- The four switches of a poll (R186). -/
theorem pollSwitches_eq {s : State} (hv : validConfig s.cfg = true) : pollSwitches s = switchesPolled 4 s := by
  have h0 : pollSwitch (switchesPolled 0 s) 0 = switchesPolled 1 s := pollSwitch_switchesPolled hv 0
  have h1 : pollSwitch (switchesPolled 1 s) 1 = switchesPolled 2 s := pollSwitch_switchesPolled hv 1
  have h2 : pollSwitch (switchesPolled 2 s) 2 = switchesPolled 3 s := pollSwitch_switchesPolled hv 2
  have h3 : pollSwitch (switchesPolled 3 s) 3 = switchesPolled 4 s := pollSwitch_switchesPolled hv 3
  rw [pollSwitches, ← switchesPolled_zero]
  simp only [List.foldl_cons, List.foldl_nil, h0, h1, h2, h3]

/-- The status registers after `m` reads, of which all or not all succeeded (R220). -/
theorem scanStatus_eq (s : State) (m : Nat) :
    scanStatus s m = { s.status with
      cause := (if ∀ j < m, (s.answerAt j).ok = true then s.status.cause else some .channelUnavailable),
      esticky := (if ∀ j < m, (s.answerAt j).ok = true then s.status.esticky
        else stickyWith s.status.esticky .channelUnavailable) } := by
  induction m with
  | zero => simp [scanStatus]
  | succ m ih =>
    have hsplit : (∀ j < m + 1, (s.answerAt j).ok = true) ↔
        (∀ j < m, (s.answerAt j).ok = true) ∧ (s.answerAt m).ok = true := Nat.forall_lt_succ_right
    have hagain (e : BitVec 9) : stickyWith (stickyWith e .channelUnavailable) .channelUnavailable =
        stickyWith e .channelUnavailable := by
      rw [stickyWith, stickyWith, BitVec.or_assoc, BitVec.or_self]
    rw [scanStatus_succ, ih, if_congr hsplit rfl rfl, if_congr hsplit rfl rfl]
    by_cases hlast : (s.answerAt m).ok = true
    · simp only [hlast, and_true, if_true]
    · simp only [hlast, Bool.false_eq_true, and_false, if_false,
        apply_ite (stickyWith · .channelUnavailable), hagain, ite_self]

/-! ### The result -/

theorem nibble_getLsbD (v : Vector Bool 4) (i : Fin 4) : (nibble v).getLsbD i.val = v[i] := by
  have happ : (nibble v).getLsbD i.val =
      (BitVec.ofBool v[3] ++ BitVec.ofBool v[2] ++ BitVec.ofBool v[1] ++ BitVec.ofBool v[0]
        : BitVec (1 + 1 + 1 + 1)).getLsbD i.val := rfl
  rw [happ, BitVec.getLsbD_append, BitVec.getLsbD_append, BitVec.getLsbD_append]
  fin_cases i <;> simp

theorem swResult_state (avail stable : Vector Bool 4) (i : Fin 4) :
    (swResult avail stable).getLsbD i.val = stable[i] := by
  refine (BitVec.getLsbD_append (x := 1#1 ++ nibble avail)).trans ?_
  rw [if_pos i.isLt, nibble_getLsbD]

theorem swResult_avail (avail stable : Vector Bool 4) (i : Fin 4) :
    (swResult avail stable).getLsbD (4 + i.val) = avail[i] := by
  refine (BitVec.getLsbD_append (x := 1#1 ++ nibble avail)).trans ?_
  rw [if_neg (by omega), Nat.add_sub_cancel_left, BitVec.getLsbD_append, if_pos i.isLt, nibble_getLsbD]

/-! ### The SWP step -/

theorem exec_swp (s : State) : exec .swp s = .next (swStep s) := rfl

/-- The SWP step as the completion of one update (R186). -/
theorem swStep_eq {s : State} (hv : validConfig s.cfg = true) :
    swStep s = complete { s with
      sw := debounced 4 s, res.sw := swResult (readable 4 s) (debounced 4 s).stable, status := scanStatus s 4,
      io := s.io.after 4 (switchReads 4 s) } := by
  rw [swStep, pollSwitches_eq hv]
  rfl

/-- What a whole poll makes of each switch. -/
theorem debounced_four (s : State) (i : Fin 4) :
    (debounced 4 s).stable[i] = nextLevel s.cfg.swDebounce (s.answerAt i.val).ok
        (seesAsserted s.cfg (.sw i) (s.answerAt i.val)) s.sw.stable[i] s.sw.cnt[i] ∧
      (debounced 4 s).cnt[i] = nextCount s.cfg.swDebounce (s.answerAt i.val).ok
        (seesAsserted s.cfg (.sw i) (s.answerAt i.val)) s.sw.stable[i] s.sw.cnt[i] := by
  simp [debounced]

/-- Settles O39: the step is `swStep_eq`, whose four switches are `debounced_four`, the bits of `R_SW` those of
`swResult`, and the cause that of `scanStatus_eq`; the word of SWP is no FRAME's (`inFrame_encode`), so completion
clears BUSY alone. -/
theorem switchPollDebounces : Obligations.SwitchPollDebounces := by
  unfold Obligations.SwitchPollDebounces
  intro s hv
  have hok : (∀ i : Fin 4, (s.answerAt i.val).ok = true) ↔ ∀ j < 4, (s.answerAt j).ok = true := Fin.forall_iff
  rw [exec_swp, swStep_eq hv]
  refine ⟨_, rfl, fun i => ⟨(debounced_four s i).1, (debounced_four s i).2, swResult_state _ _ i, ?_⟩,
    swResult_valid _ _, ?_, fun hlatch => complete_of_not_inFrame (inFrame_encode hlatch)⟩
  · rw [swResult_avail]
    simp [readable]
  · rw [if_congr hok rfl rfl, if_congr hok rfl rfl, ← stickyWith_channelUnavailable, scanStatus_eq]
    rfl

/-! ### Runs of polls -/

/-- What a switch reports after `k` polls of disagreement with `level` (R190). -/
def heldLevel (N : Nat) (level : Bool) (k : Nat) : Bool := if k < N then level else !level

/-- How many of them are then counted. -/
def heldCount (N k : Nat) : Byte := if k < N then BitVec.ofNat 8 k else 0

theorem heldLevel_of_lt {N k : Nat} (h : k < N) (level : Bool) : heldLevel N level k = level := if_pos h

theorem heldLevel_of_le {N k : Nat} (h : N ≤ k) (level : Bool) : heldLevel N level k = !level := if_neg (not_lt.mpr h)

theorem heldCount_of_le {N k : Nat} (h : N ≤ k) : heldCount N k = 0 := if_neg (not_lt.mpr h)

theorem heldCount_zero (N : Nat) : heldCount N 0 = 0 := by simp [heldCount]

theorem heldCount_toNat {N k : Nat} (hfit : N ≤ 255) (h : k < N) : (heldCount N k).toNat = k := by
  rw [heldCount, if_pos h, BitVec.toNat_ofNat, Nat.mod_eq_of_lt (by omega)]

/-- One more poll of the level that disagrees at first: it is counted, or completes the run, or agrees by then. -/
theorem next_held {N : Nat} (hfit : N ≤ 255) (level : Bool) (k : Nat) :
    nextLevel N true (!level) (heldLevel N level k) (heldCount N k) = heldLevel N level (k + 1) ∧
      nextCount N true (!level) (heldLevel N level k) (heldCount N k) = heldCount N (k + 1) := by
  have hdiffer : (!level) ≠ level := by simp
  obtain hshort | hfull | hpast : k + 1 < N ∨ k + 1 = N ∨ N ≤ k := by omega
  · have hk : k < N := by omega
    have hcount : heldCount N k + 1 = heldCount N (k + 1) := by
      apply BitVec.eq_of_toNat_eq
      rw [heldCount_toNat hfit hshort, BitVec.toNat_add, heldCount_toNat hfit hk]
      exact Nat.mod_eq_of_lt (show k + 1 < 256 by omega)
    rw [heldLevel_of_lt hk, heldLevel_of_lt hshort, ← hcount]
    exact next_of_short hdiffer (by rwa [heldCount_toNat hfit hk])
  · have hk : k < N := by omega
    rw [heldLevel_of_lt hk, heldLevel_of_le hfull.ge, heldCount_of_le hfull.ge]
    exact next_of_full hdiffer (by rw [heldCount_toNat hfit hk, hfull])
  · rw [heldLevel_of_le hpast, heldLevel_of_le (by omega : N ≤ k + 1), heldCount_of_le hpast,
      heldCount_of_le (by omega : N ≤ k + 1)]
    exact ⟨nextLevel_agree .., nextCount_agree ..⟩

/-! ### One debouncer -/

theorem set_cnt_zero {s : State} {i : Fin 4} (h : s.sw.cnt[i] = 0) : s.sw.cnt.set i 0 = s.sw.cnt := by
  rw [← h]
  simp

/-- One debouncer after `k` polls of the level that its switch does not report (R190). -/
theorem debounce_iterate {s : State} {i : Fin 4} (hzero : s.sw.cnt[i] = 0) (hpos : 1 ≤ s.cfg.swDebounce)
    (hfit : s.cfg.swDebounce ≤ 255) (k : Nat) :
    (debounce i (!s.sw.stable[i]))^[k] s = { s with sw := {
      stable := s.sw.stable.set i (heldLevel s.cfg.swDebounce s.sw.stable[i] k),
      cnt := s.sw.cnt.set i (heldCount s.cfg.swDebounce k) } } := by
  induction k with
  | zero =>
    rw [heldLevel_of_lt hpos, heldCount_zero, set_cnt_zero hzero]
    simp
  | succ k ih =>
    obtain ⟨hlevel, hcount⟩ := next_held hfit s.sw.stable[i] k
    rw [Function.iterate_succ_apply', ih, debounce_eq]
    simp only [Fin.getElem_fin, Vector.getElem_set_self, Vector.set_set]
    simp only [Fin.getElem_fin] at hlevel hcount
    rw [hlevel, hcount]

/-- Before the run is full only the count differs (R190 (a)). -/
theorem debounce_iterate_of_lt {s : State} {i : Fin 4} (hzero : s.sw.cnt[i] = 0) (hfit : s.cfg.swDebounce ≤ 255)
    {k : Nat} (hk : k < s.cfg.swDebounce) :
    (debounce i (!s.sw.stable[i]))^[k] s =
      { s with sw.cnt := s.sw.cnt.set i (heldCount s.cfg.swDebounce k) } := by
  rw [debounce_iterate hzero (by omega) hfit, heldLevel_of_lt hk]
  simp

/-- From the last poll of the run on only the level differs (R190 (b)). -/
theorem debounce_iterate_of_le {s : State} {i : Fin 4} (hzero : s.sw.cnt[i] = 0) (hpos : 1 ≤ s.cfg.swDebounce)
    (hfit : s.cfg.swDebounce ≤ 255) {k : Nat} (hk : s.cfg.swDebounce ≤ k) :
    (debounce i (!s.sw.stable[i]))^[k] s = { s with sw.stable := s.sw.stable.set i (!s.sw.stable[i]) } := by
  rw [debounce_iterate hzero hpos hfit, heldLevel_of_le hk, heldCount_of_le hk, set_cnt_zero hzero]

/-- A poll that agrees forgets the polls of disagreement. -/
theorem debounce_agree {s : State} {i : Fin 4} {raw : Bool} (h : raw = s.sw.stable[i]) :
    debounce i raw s = { s with sw.cnt := s.sw.cnt.set i 0 } := if_pos h

/-! ### The polls that SWP makes -/

/-- One of the polls, for the one switch. -/
theorem PollsSee.poll {f : Nat → State} {i : Fin 4} {n k : Nat} {raw : Nat → Bool} (h : PollsSee f i n raw)
    (hk : k < n) (hv : validConfig (f k).cfg = true) :
    (f (k + 1)).cfg = (f k).cfg ∧
      (f (k + 1)).sw.stable[i] =
        nextLevel (f k).cfg.swDebounce true (raw k) (f k).sw.stable[i] (f k).sw.cnt[i] ∧
      (f (k + 1)).sw.cnt[i] =
        nextCount (f k).cfg.swDebounce true (raw k) (f k).sw.stable[i] (f k).sw.cnt[i] := by
  obtain ⟨hok, hraw, t, ht, hsw, hcfg⟩ := h k hk
  rw [exec_swp, swStep_eq hv] at ht
  injection ht with ht
  have hpoll := debounced_four (f k) i
  rw [hok, hraw] at hpoll
  rw [hsw, hcfg, ← ht, complete_sw, complete_cfg]
  exact ⟨rfl, hpoll⟩

/-- A run of polls of the level that the switch does not report at first. -/
theorem PollsSee.held {f : Nat → State} {i : Fin 4} {n k : Nat} {raw : Nat → Bool} (h : PollsSee f i n raw)
    (hzero : (f 0).sw.cnt[i] = 0) (hv : validConfig (f 0).cfg = true) (hk : k ≤ n)
    (hdiffer : ∀ j < k, raw j = !(f 0).sw.stable[i]) :
    (f k).cfg = (f 0).cfg ∧ (f k).sw.stable[i] = heldLevel (f 0).cfg.swDebounce (f 0).sw.stable[i] k ∧
      (f k).sw.cnt[i] = heldCount (f 0).cfg.swDebounce k := by
  obtain ⟨-, -, -, -, -, -, -, -, hpos, hfit, -⟩ := valid_numbers hv
  induction k with
  | zero => exact ⟨rfl, (heldLevel_of_lt hpos _).symm, hzero.trans (heldCount_zero _).symm⟩
  | succ k ih =>
    obtain ⟨hcfg, hlevel, hcount⟩ := ih (by omega) fun j hj => hdiffer j (by omega)
    obtain ⟨hcfg', hlevel', hcount'⟩ := h.poll hk (hcfg ▸ hv)
    obtain ⟨hnextLevel, hnextCount⟩ := next_held hfit (f 0).sw.stable[i] k
    rw [hdiffer k (by omega), hcfg, hlevel, hcount] at hlevel' hcount'
    exact ⟨hcfg'.trans hcfg, hlevel'.trans hnextLevel, hcount'.trans hnextCount⟩

/-- A run too short to be reported, ended by a poll that agrees, leaves the level and forgets the count. -/
theorem PollsSee.short {f : Nat → State} {i : Fin 4} {n : Nat}
    (h : PollsSee f i (n + 1) fun k => if k < n then !(f 0).sw.stable[i] else (f 0).sw.stable[i])
    (hzero : (f 0).sw.cnt[i] = 0) (hv : validConfig (f 0).cfg = true) (hn : n < (f 0).cfg.swDebounce) :
    (∀ k, k ≤ n + 1 → (f k).sw.stable[i] = (f 0).sw.stable[i]) ∧ (f (n + 1)).sw.cnt[i] = 0 := by
  have hkept (k : Nat) (hk : k ≤ n) : (f k).cfg = (f 0).cfg ∧ (f k).sw.stable[i] = (f 0).sw.stable[i] := by
    obtain ⟨hcfg, hlevel, -⟩ := h.held hzero hv (by omega : k ≤ n + 1) fun j hj => if_pos (by omega)
    exact ⟨hcfg, hlevel.trans (heldLevel_of_lt (by omega) _)⟩
  obtain ⟨hcfg, hlevel⟩ := hkept n le_rfl
  obtain ⟨-, hlast, hcount⟩ := h.poll (Nat.lt_succ_self n) (hcfg ▸ hv)
  rw [if_neg (Nat.lt_irrefl n), hlevel] at hlast hcount
  rw [nextLevel_agree] at hlast
  rw [nextCount_agree] at hcount
  refine ⟨fun k hk => ?_, hcount⟩
  obtain hk | rfl : k ≤ n ∨ k = n + 1 := by omega
  · exact (hkept k hk).2
  · exact hlast

/-- Settles O40: one debouncer by `debounce_iterate_of_lt` and `debounce_iterate_of_le`, the polls of SWP by
`PollsSee.short` and `PollsSee.held`. -/
theorem debounceNeedsFullRun : Obligations.DebounceNeedsFullRun := by
  unfold Obligations.DebounceNeedsFullRun
  refine ⟨?_, fun f i n hzero hv hn h => h.short hzero hv hn, fun f i m hzero hv h k hk => ?_⟩
  case refine_2 =>
    obtain ⟨-, hlevel, -⟩ := h.held hzero hv hk fun _ _ => rfl
    exact hlevel
  intro s i hzero hpos hfit differ
  have hfrom {k : Nat} (hk : s.cfg.swDebounce ≤ k) : differ^[k] s = _ := debounce_iterate_of_le hzero hpos hfit hk
  refine ⟨fun k hk => ?_, by rw [hfrom le_rfl], by rw [hfrom le_rfl],
    fun m => by rw [hfrom le_rfl, hfrom (Nat.le_add_right _ m)]⟩
  have hbefore : differ^[k] s = _ := debounce_iterate_of_lt hzero hfit hk
  rw [hbefore]
  refine ⟨rfl, ?_, ?_⟩
  · simp [heldCount_toNat hfit hk]
  · rw [debounce_agree (by rfl)]
    dsimp only
    rw [Vector.set_set, set_cnt_zero hzero]

end Sys2Proof.Machine

/-! PROOF. The ABORT step (47_frame_abort.md R207): four PinWrites in order, the flag and the cause. -/

namespace Sys2Proof.Machine

open Sys2Proof

/-- The PinWrites of ABORT (R207). -/
def abortWrites : List (Pin × Bool) := [(.adcRd, false), (.adcCs, false), (.capDischarge, false), (.capCharge, false)]

theorem releaseLines_eq_driveAll (s : State) : releaseLines s = driveAll abortWrites s := rfl

/-- ABORT as the completion of one update: the released lines, `ABORTED`, and cause 8 in `CAUSE` and as sticky bit 8
(R207, R216, R224). -/
theorem execAbort_eq {s : State} (hv : validConfig s.cfg = true) :
    execAbort s = .next (complete { s with
      status.aborted := true, status.cause := some .aborted, status.esticky := s.status.esticky ||| 256#9,
      out := (driveAll abortWrites s).out,
      io := s.io.after 0 (abortWrites.map fun x => pinAccess s.cfg x.1 x.2) }) := by
  rw [execAbort, releaseLines_eq_driveAll]
  dsimp only
  rw [raise_aborted, driveAll_eq hv]
  rfl

/-- Settles O49: the step is `execAbort_eq`, whose four writes drive what they write (`driveAll_drives`); the word of
ABORT is no FRAME's (`inFrame_encode`), so completion clears BUSY alone. -/
theorem abortReleasesLines : Obligations.AbortReleasesLines := by
  unfold Obligations.AbortReleasesLines
  intro s hlatch hv hw
  have hdrives := driveAll_drives hv hw abortWrites (by decide)
  have hcfg : (driveAll abortWrites s).cfg = s.cfg := by rw [driveAll_eq hv]
  have hexec : exec .abort s = execAbort s := rfl
  rw [hexec, execAbort_eq hv, complete_of_not_inFrame (by exact inFrame_encode hlatch)]
  exact ⟨_, rfl, latchesDrive_congr hdrives hcfg.symm rfl, rfl⟩

end Sys2Proof.Machine

/-! PROOF. The phases of a FRAME (47_frame_abort.md R196, R203): the single command's step in each phase but the last,
and the commit step. -/

namespace Sys2Proof.Machine

open Sys2Proof

/-! ### The phases with a command -/

/-- When the phase names a command, the FRAME's step is that command's (R14, R196). -/
theorem exec_frame_of_phaseOperation {s : State} {i : Instr}
    (h : phaseOperation s.seq.framePhase = some (.command i)) : exec .frame s = exec i s := by
  show execFrame s = exec i s
  unfold execFrame
  cases hphase : s.seq.framePhase with
  | none | commit => rw [hphase] at h; cases h
  | scan | drain0 | drain1 | switches | capacitive | adc => rw [hphase] at h; cases h; rfl

/-- Settles O45: each of the six phases names its command. -/
theorem framePhaseRunsSubcommand : Obligations.FramePhaseRunsSubcommand := by
  unfold Obligations.FramePhaseRunsSubcommand
  intro s
  have hnamed {p : FramePhase} {i : Instr} (hp : s.seq.framePhase = p) (hi : phaseOperation p = some (.command i)) :
      exec .frame s = exec i s := exec_frame_of_phaseOperation (hp ▸ hi)
  exact ⟨(hnamed · rfl), (hnamed · rfl), (hnamed · rfl), (hnamed · rfl), (hnamed · rfl), (hnamed · rfl)⟩

/-! ### The commit -/

theorem exec_frame_commit {s : State} (h : s.seq.framePhase = .commit) : exec .frame s = .next (commitFrame s) := by
  show execFrame s = _
  simp only [execFrame, h]

/-- `F_SEQ` after a commit is valid (R29). -/
theorem nextFrameSeq_valid (q : BitVec 17) : (nextFrameSeq q).getLsbD 16 = true := by
  rw [nextFrameSeq, BitVec.getLsbD_append]
  rfl

/-- The number in `F_SEQ` after a commit is one more modulo 65536 (R203). -/
theorem nextFrameSeq_number (q : BitVec 17) :
    ((nextFrameSeq q).extractLsb' 0 16).toNat = ((q.extractLsb' 0 16).toNat + 1) % 65536 := by
  have hlow : (nextFrameSeq q).extractLsb' 0 16 = q.extractLsb' 0 16 + 1 := by
    unfold nextFrameSeq
    exact BitVec.extractLsb'_append_eq_right
  rw [hlow, BitVec.toNat_add]
  rfl

/-- Settles O47: the step is `commitFrame`, which copies the results and takes `F_SEQ` from `nextFrameSeq`. -/
theorem commitPublishesFrame : Obligations.CommitPublishesFrame := by
  unfold Obligations.CommitPublishesFrame
  intro s hphase
  exact ⟨commitFrame s, exec_frame_commit hphase, rfl, rfl, rfl, rfl, rfl, nextFrameSeq_valid _, nextFrameSeq_number _,
    rfl⟩

end Sys2Proof.Machine

/-! PROOF. From a state of the invariant the machine always has a step (48_laws.md R210). -/

namespace Sys2Proof.Machine

open Sys2Proof

/-- A sequencer that runs in a state of the invariant has a command in flight: the latched word is one. -/
theorem Invariant.running {s : State} (h : Invariant s) (hruns : s.sequencerRuns = true) : ∃ i, Running i s := by
  obtain ⟨hbusy, hrst⟩ : s.seq.busy = true ∧ s.io.rst = false := by simpa [State.sequencerRuns] using hruns
  have hseq := h.sequencer
  unfold SequencerOk at hseq
  rw [if_pos hbusy] at hseq
  split at hseq
  case h_1 i hdec => exact ⟨i, h, hbusy, hrst, hdec⟩
  case h_2 => exact hseq.elim

/-- A tick runs the command in flight, which stands at a position with a step (`Running.exec_next`), or is idle
(log 6). -/
theorem tick_next {s : State} (h : Invariant s) : ∃ t, tick s = .next t := by
  cases hruns : s.sequencerRuns with
  | false => exact ⟨s, tick_idle hruns⟩
  | true =>
    obtain ⟨i, hrun⟩ := h.running hruns
    obtain ⟨t, ht⟩ := hrun.exec_next
    exact ⟨t, (tick_runs hruns hrun.decoded).trans ht⟩

/-- Settles O52: a step is a tick of a state of the invariant (`tick_next`), or an event of the host or the environment,
which always answers a next state. -/
theorem stepNeverStops : Obligations.StepNeverStops := by
  unfold Obligations.StepNeverStops
  intro s hinv
  have htick (hnext : TickNext s) : ∃ t, step s = .next t := by
    rw [step_of_tickNext hnext]
    exact tick_next (popped_invariant hinv)
  cases hev : s.io.events with
  | nil => exact htick (.inl hev)
  | cons e rest =>
    cases e with
    | tick => exact htick (.inr (by rw [hev]; rfl))
    | hostWrite n v | hostRead n | rst a | encLine i l => exact ⟨_, step_of_cons hev⟩

end Sys2Proof.Machine

/-! PROOF. The reset input (70_reset_and_hazards.md R240, R241): what asserting it leaves, what happens while it is
asserted, and its release. -/

namespace Sys2Proof.Machine

open Sys2Proof

/-! ### The reset values -/

/-- Asserting RST is one step to the reset state, under the configuration and the outside as they stand (R240). -/
theorem step_rst_asserted {s : State} {rest : List Event} (hev : s.io.events = .rst true :: rest) :
    step s = .next (State.resetWith s.cfg { s.io with events := rest, rst := true }) := by
  rw [step_of_cons hev]
  show Host.Outcome.next (State.resetWith s.cfg { s.io with events := s.io.events.tail, rst := true }) = _
  rw [hev]
  rfl

/-- After reset no latch is listed, so each holds 0x00 (R241). -/
theorem resetWith_latch (c : Config) (w : World) (p : Nat) : (State.resetWith c w).latch p = 0 := Memory.read_nil p

/-- Settles O10: the step ends in `State.resetWith` (`step_rst_asserted`), whose vectors hold one value throughout. -/
theorem resetValues : Obligations.ResetValues := by
  unfold Obligations.ResetValues
  intro s rest hev
  refine ⟨_, step_rst_asserted hev, rfl, rfl, rfl, rfl, fun i => ⟨?_, ?_⟩, fun i => ⟨?_, ?_, ?_⟩, resetWith_latch _ _,
    rfl, rfl, rfl, rfl, rfl, fun i => ⟨?_, ?_⟩, fun k => ⟨?_, ?_⟩, rfl, rfl, rfl, rfl, rfl, rfl⟩
  all_goals exact Vector.getElem_replicate _

/-! ### While RST is asserted -/

/-- A host write is ignored under reset (R240). -/
theorem hostWrite_of_rst {s : State} (hrst : s.io.rst = true) (n : BitVec 6) (v : Word) : hostWrite n v s = s := by
  unfold hostWrite issueCommand
  rw [hrst, Bool.true_or, if_pos rfl, ite_self]

/-- A capture agent is not active under reset: a level change is one of the line alone (R240; log 5). -/
theorem encLineChange_of_rst {s : State} (hrst : s.io.rst = true) (i : Fin 2) (l : Level) :
    encLineChange i l s = { s with io.encLine := s.io.encLine.set i l } := by
  simp [encLineChange, State.captureActive, hrst]

/-- Settles O11: RST asserted is `step_rst_asserted`; under it the sequencer is idle (O6), and the host and the agents
are ignored. -/
theorem resetHoldsEverything : Obligations.ResetHoldsEverything := by
  unfold Obligations.ResetHoldsEverything
  intro s
  refine ⟨fun rest hev => ⟨_, step_rst_asserted hev, rfl⟩, fun rest hev => step_of_cons hev, fun hrst => ?_⟩
  have hrst' : s.popped.io.rst = true := hrst
  refine ⟨fun hnext => idleTickChangesNothing s hnext (.inr hrst), fun n v rest hev => ?_, fun i l rest hev => ?_⟩
  · rw [step_of_cons hev]
    exact congrArg _ (hostWrite_of_rst hrst' n v)
  · rw [step_of_cons hev]
    exact congrArg _ (encLineChange_of_rst hrst' i l)

end Sys2Proof.Machine
